-- ==== Sys2Proof/Word.lean ====
section
/-! DEFINITION. The word types of P252E (spec/00_scope.md R9, R10): bytes, the 16-, 32- and 64-bit registers,
and the field elements, which the architecture holds as canonical integers and never as bit patterns. -/

namespace Sys2Proof

/-- A byte of a stream, or one byte field of a command word (R9, R91). -/
abbrev Byte := BitVec 8

/-- A 16-bit quantity: the immediate of `LDI` (R92), the register `ESTICKY` (R27). -/
abbrev Half := BitVec 16

/-- A 32-bit quantity: a command word (R91), a control and status register as `RDSR` shows it (R32), `PCNT` (R28). -/
abbrev Word := BitVec 32

/-- A 64-bit domain tag (R151). -/
abbrev Tag64 := BitVec 64

/-- The five field elements of the permutation state (R21). A field element is its canonical representative, an integer `v`
with `0 <= v < P` (R10): a `Nat`, that is. That it is below `P` is part of the invariant `Machine.Inv` (R33 (a)), since `P` is
a parameter of the configuration. -/
abbrev PermState := Vector Nat 5

end Sys2Proof
end

