-- ==== Sys2Proof/Config.lean ====
section
/-! DEFINITION. The configuration record `CFG` (spec/00_scope.md R5 to R8): the open parameters of the spec as data,
with the constraints of R6 as proof fields, so that an ill-formed configuration cannot be built (R8: a model must
refuse it). `Config.installed` is the configuration of the machine at hand: a constant with no body, of which a proof
can see nothing but that it is well formed. `Config.toy31` is the test configuration of spec/95_test_vectors.md part 2. -/

namespace Sys2Proof

/-- One step of an IO-pattern: `Absorb(n)` or `Squeeze(n)` (R25). -/
inductive PatStep where
  | absorb (n : Nat)
  | squeeze (n : Nat)
deriving DecidableEq, Repr

/-- The domain set of R151, in the source's order; the index of a domain is its place in this list. -/
inductive Domain where
  | merkle2
  | merkle4
  | encryption
  | other
deriving DecidableEq, Repr

/-- Number of vector registers (R7). -/
abbrev NVR : Nat := 32
/-- Largest number of steps of an IO-pattern (R7). -/
abbrev NPAT : Nat := 16
/-- Largest number of elements of the output accumulator (R7). -/
abbrev NOUT : Nat := 32

/-- Every element of a table is canonical (R6, R61). -/
abbrev tableBelow {n : Nat} (p : Nat) (t : Vector (Vector Nat 5) n) : Bool :=
  t.all fun row => row.all fun v => decide (v < p)

/-- No element of a table is the additive identity (R6, R24). -/
abbrev tableNonzero {n : Nat} (t : Vector (Vector Nat 5) n) : Bool :=
  t.all fun row => row.all fun v => decide (v ≠ 0)

/-- The configuration record `CFG` (R6). The proof fields are the constraints of R6, each as stated there, so a value
of this type is a WELL-FORMED configuration (R8). `TAG_OF` is an arbitrary total function of the spec; as plain data it is
the finite table `tagTable` of chosen values, and `Config.freeTag` wherever the table lists none (log entry 3). -/
structure Config where
  /-- `P`, the field modulus. -/
  p : Nat
  /-- `RC[r][k]`, the round constants: exactly 68 rows of 5 (R24; a table of another shape is no value of this type). -/
  rc : Vector (Vector Nat 5) 68
  /-- `MDS[k][j]`. -/
  mds : Vector (Vector Nat 5) 5
  /-- `DOM_TAG[d]`, indexed by the domain index of R151. -/
  domTag : Vector Tag64 4
  /-- The listed values of `TAG_OF(pattern, tag64)`. -/
  tagTable : List ((List PatStep × Tag64) × Nat)
  /-- `MCAP`, the message capacity of the cipher. -/
  mcap : Nat
  /-- `CIPHER_DOMAIN_CONST`. -/
  cipherDomain : Nat
  /-- `CIPHER_CAPACITY_CONST`. -/
  cipherCapacity : Nat
  /-- `TRUNC_BITS`. -/
  truncBits : Nat
  /-- `Q`, the modulus of the smaller field. -/
  q : Nat
  p_prime : Nat.Prime p
  p_bounds : 2 < p ∧ p < 2 ^ 256
  rc_canonical : tableBelow p rc = true
  rc_nonzero : tableNonzero rc = true
  mds_canonical : tableBelow p mds = true
  domTag_distinct : domTag.toList.Nodup
  tagTable_canonical : (tagTable.all fun e => decide (e.2 < p)) = true
  mcap_bounds : 1 ≤ mcap ∧ mcap ≤ 4
  cipherDomain_canonical : cipherDomain < p
  cipherCapacity_canonical : cipherCapacity < p
  truncBits_bounds : 1 ≤ truncBits ∧ truncBits ≤ 256
  q_bounds : 1 < q ∧ q < p
deriving DecidableEq, Repr

/-- FREE VALUE (R152): what `TAG_OF` answers, before it is brought into the field, for a pattern and a tag that the
configuration's table does not list. Within one configuration it depends on its two arguments only, and nothing else is
known of it. -/
opaque Config.freeTag : Config → List PatStep → Tag64 → Nat

/-- `2^31 - 1` is prime (spec/95_test_vectors.md part 2). -/
theorem toy31_prime : Nat.Prime 2147483647 := by
  have h : (mersenne 31).Prime := lucas_lehmer_sufficiency _ (by simp) (by norm_num)
  simpa [mersenne] using h

/-- The test configuration `TOY31` (spec/95_test_vectors.md part 2). Its table lists the tags of vectors V-T1 to V-T9. -/
def Config.toy31 : Config where
  p := 2147483647
  rc := Vector.ofFn fun r => Vector.ofFn fun k => 5 * r.val + k.val + 1
  mds := #v[#v[858993459, 1789569706, 1840700269, 268435456, 1908874353],
            #v[1789569706, 1840700269, 268435456, 1908874353, 1503238553],
            #v[1840700269, 268435456, 1908874353, 1503238553, 1952257861],
            #v[268435456, 1908874353, 1503238553, 1952257861, 894784853],
            #v[1908874353, 1503238553, 1952257861, 894784853, 1486719448]]
  domTag := #v[3, 15, 4294967296, 0]
  tagTable :=
    [(([.absorb 4, .squeeze 1], 15), 2621498),
     (([.absorb 2, .squeeze 1], 3), 786450),
     (([.absorb 2, .squeeze 1], 0), 393225),
     (([.absorb 4, .squeeze 1], 0), 655373),
     (([.absorb 8, .squeeze 1], 0), 1179669),
     (([.absorb 12, .squeeze 1], 0), 1703965),
     (([.absorb 4, .squeeze 1], 4294967296), 917523),
     (([.absorb 3, .squeeze 2, .absorb 1, .squeeze 5], 0), 3539030),
     (([.absorb 2, .absorb 2, .squeeze 1], 15), 6094980)]
  mcap := 2
  cipherDomain := 2
  cipherCapacity := 2
  truncBits := 20
  q := 524287
  p_prime := toy31_prime
  p_bounds := by decide
  rc_canonical := by decide +kernel
  rc_nonzero := by decide +kernel
  mds_canonical := by decide +kernel
  domTag_distinct := by decide +kernel
  tagTable_canonical := by decide +kernel
  mcap_bounds := by decide
  cipherDomain_canonical := by decide
  cipherCapacity_canonical := by decide
  truncBits_bounds := by decide
  q_bounds := by decide

/-- FREE VALUE: the configuration of a machine, given only that some configuration exists. It has no body. -/
opaque Config.anyWellFormed [Inhabited Config] : Config

/-- The configuration installed in the machine at hand, fixed before the first command and never changed (R20, R281).
Nothing is known of it but what its type says: it is well formed (R8). Log entry 2. -/
def Config.installed : Config := @Config.anyWellFormed ⟨Config.toy31⟩

end Sys2Proof
end

