-- ==== Sys2Proof/Syntax.lean ====
section
/-! DEFINITION. The 25 commands of P252E (spec/30_encoding.md R98), one constructor per row of
spec/opcode_table.json. An operand is the byte field that carries it (R92), in the order of the fields `A`, `B`, `C`. -/

namespace Sys2Proof

inductive Instr where
  /-- `NOP` (R220). -/
  | nop
  /-- `LDI vd, imm` (R221). -/
  | ldi (vd : Byte) (imm : Half)
  /-- `LDE vd, e` (R222); the payload is the 32 bytes after the command word. -/
  | lde (vd : Byte) (payload : List Byte)
  /-- `STE vs` (R223). -/
  | ste (vs : Byte)
  /-- `LDC vd, [e0, ..., e_MCAP]` (R206); the payload is the `32 * (MCAP + 1)` bytes after the command word. -/
  | ldc (vd : Byte) (payload : List Byte)
  /-- `STC vs` (R207). -/
  | stc (vs : Byte)
  /-- `LDST vs` (R224). -/
  | ldst (vs : Byte)
  /-- `STST vd` (R225). -/
  | stst (vd : Byte)
  /-- `TRUNC vd, vs` (R185). -/
  | trunc (vs : Byte) (vd : Byte)
  /-- `PERM` (R128). -/
  | perm
  /-- `PCLR` (R159). -/
  | pclr
  /-- `PABS n` (R160). -/
  | pabs (n : Byte)
  /-- `PSQZ n` (R161). -/
  | psqz (n : Byte)
  /-- `START d` (R162). -/
  | start (d : Byte)
  /-- `ABSORB vs, n, m` (R163). -/
  | absorb (vs : Byte) (n : Byte) (m : Byte)
  /-- `SQUEEZE n` (R164). -/
  | squeeze (n : Byte)
  /-- `FINISH vd` (R165). -/
  | finish (vd : Byte)
  /-- `ABORT` (R166). -/
  | abort
  /-- `HASH vd, vs, n` (R181). -/
  | hash (vs : Byte) (n : Byte) (vd : Byte)
  /-- `MHASH2 vd, vs, m` (R182). -/
  | mhash2 (vs : Byte) (m : Byte) (vd : Byte)
  /-- `MHASH4 vd, vs, m` (R183). -/
  | mhash4 (vs : Byte) (m : Byte) (vd : Byte)
  /-- `ENC vd, vs, mlen` (R204). -/
  | enc (vs : Byte) (mlen : Byte) (vd : Byte)
  /-- `DEC vd, vs` (R205). -/
  | dec (vs : Byte) (vd : Byte)
  /-- `RDSR csr` (R226). -/
  | rdsr (csr : Byte)
  /-- `CLRERR` (R227). -/
  | clrerr
deriving DecidableEq, Repr

end Sys2Proof
end

