-- ==== Sys2Proof/WellFormed.lean ====
section
/-! DEFINITION. Which terms of `Instr` are commands of a machine with message capacity `mcap`: the payload has the
length that the opcode's format fixes (spec/30_encoding.md R90). Every value of every byte field is encodable, and a
field value the machine has no register for is `BadOperand` at execution, not an ill-formed command (R95). -/

namespace Sys2Proof

/-- The payload bytes of format `E`, one encoded element: `ELEM_BYTES` (R7, R90). -/
def payloadLenE : Nat := 32

/-- The payload bytes of format `V` (R90). -/
def payloadLenV (mcap : Nat) : Nat := 32 * (mcap + 1)

/-- A command whose payload has the length its format fixes (R90). -/
def Instr.wellFormed (mcap : Nat) : Instr → Bool
  | .lde _ payload => payload.length == payloadLenE
  | .ldc _ payload => payload.length == payloadLenV mcap
  | .nop => true
  | .ldi _ _ => true
  | .ste _ => true
  | .stc _ => true
  | .ldst _ => true
  | .stst _ => true
  | .trunc _ _ => true
  | .perm => true
  | .pclr => true
  | .pabs _ => true
  | .psqz _ => true
  | .start _ => true
  | .absorb _ _ _ => true
  | .squeeze _ => true
  | .finish _ => true
  | .abort => true
  | .hash _ _ _ => true
  | .mhash2 _ _ _ => true
  | .mhash4 _ _ _ => true
  | .enc _ _ _ => true
  | .dec _ _ => true
  | .rdsr _ => true
  | .clrerr => true

end Sys2Proof
end

