-- ==== Sys2Proof/Decode.lean ====
section
/-! DEFINITION. Byte order (spec/20_memory.md R62, R63), the decoder (spec/30_encoding.md R91 to R95), total on any
bytes and rejecting by name, and the encoder, written from the same opcode map (R98). -/

namespace Sys2Proof

/-- `le_bytes(v, n)`: the `n` bytes of `v`, least significant first (R11). -/
def leBytes : Nat → Nat → List Byte
  | 0, _ => []
  | n + 1, v => BitVec.ofNat 8 v :: leBytes n (v / 256)

/-- `le(bytes)`: the little-endian value of a byte sequence (R11). -/
def leNat : List Byte → Nat
  | [] => 0
  | b :: bs => b.toNat + 256 * leNat bs

/-- Why bytes are no command (R94 (2), R95); the four reasons are examined in this order, and the machine's answer to
each is the same `IllegalCommand`. -/
inductive DecodeError where
  /-- Fewer than 4 bytes remain. -/
  | shortWord
  /-- The opcode byte is none of the 25 assigned ones. -/
  | unassignedOpcode
  /-- A field that the opcode does not use is not zero. -/
  | reservedField
  /-- The payload runs past the end of the command stream. -/
  | truncatedPayload
deriving DecidableEq, Repr

/-- The bytes of the longest packet of any configuration: format `V` with `MCAP = 4` (R90). -/
def longestPacket : Nat := 164

/-- The command `i`, provided that the fields its opcode does not use are zero (R94 (2), R95). -/
def onlyIf (unusedZero : Bool) (i : Instr) : Except DecodeError Instr :=
  if unusedZero then .ok i else .error .reservedField

/-- A command with a payload of `n` bytes, the first ones of `rest` (R90, R94 (2)). A stream that holds the longest
payload of any configuration holds this one, so that case is answered before `n` is looked at. -/
def withPayload (unusedZero : Bool) (n : Nat) (rest : List Byte) (mk : List Byte → Instr) : Except DecodeError Instr :=
  if unusedZero then
    if rest.length < longestPacket - 4 && rest.length < n then .error .truncatedPayload
    else .ok (mk (rest.take n))
  else .error .reservedField

/-- The opcode map of R98: what a command word with the fields `op`, `a`, `b`, `c`, followed by the bytes `rest`, is. -/
def decodeFields (mcap : Nat) (op a b c : Byte) (rest : List Byte) : Except DecodeError Instr :=
  match op with
  | 0x00#8 => onlyIf (a == 0 && b == 0 && c == 0) .nop
  | 0x01#8 => .ok (.ldi a (c ++ b))
  | 0x02#8 => withPayload (b == 0 && c == 0) payloadLenE rest (.lde a)
  | 0x03#8 => onlyIf (b == 0 && c == 0) (.ste a)
  | 0x04#8 => withPayload (b == 0 && c == 0) (payloadLenV mcap) rest (.ldc a)
  | 0x05#8 => onlyIf (b == 0 && c == 0) (.stc a)
  | 0x06#8 => onlyIf (b == 0 && c == 0) (.ldst a)
  | 0x07#8 => onlyIf (b == 0 && c == 0) (.stst a)
  | 0x08#8 => onlyIf (b == 0) (.trunc a c)
  | 0x10#8 => onlyIf (a == 0 && b == 0 && c == 0) .perm
  | 0x20#8 => onlyIf (a == 0 && b == 0 && c == 0) .pclr
  | 0x21#8 => onlyIf (a == 0 && c == 0) (.pabs b)
  | 0x22#8 => onlyIf (a == 0 && c == 0) (.psqz b)
  | 0x23#8 => onlyIf (b == 0 && c == 0) (.start a)
  | 0x24#8 => .ok (.absorb a b c)
  | 0x25#8 => onlyIf (a == 0 && c == 0) (.squeeze b)
  | 0x26#8 => onlyIf (b == 0 && c == 0) (.finish a)
  | 0x27#8 => onlyIf (a == 0 && b == 0 && c == 0) .abort
  | 0x28#8 => .ok (.hash a b c)
  | 0x29#8 => .ok (.mhash2 a b c)
  | 0x2A#8 => .ok (.mhash4 a b c)
  | 0x30#8 => .ok (.enc a b c)
  | 0x31#8 => onlyIf (b == 0) (.dec a c)
  | 0x40#8 => onlyIf (b == 0 && c == 0) (.rdsr a)
  | 0x41#8 => onlyIf (a == 0 && b == 0 && c == 0) .clrerr
  | _ => .error .unassignedOpcode

/-- The command at the head of `bytes`, the rest of the command stream from `CP` on (R91, R94 (2)). -/
def decode (mcap : Nat) (bytes : List Byte) : Except DecodeError Instr :=
  match bytes with
  | op :: a :: b :: c :: rest => decodeFields mcap op a b c rest
  | _ => .error .shortWord

/-- The instruction that the decoder reads from a packet whose bits are `w`, numbered as the opcode table numbers
them: byte `k` of the packet is bits `8k+7 .. 8k` of `w`, and every bit above the row's `nbits` is zero, up to the
longest packet of any configuration. The capacity is the installed configuration's. -/
def decodeTableWord (nbits w : Nat) : Option Instr :=
  match decode Config.installed.mcap (leBytes longestPacket (w % 2 ^ nbits)) with
  | .ok i => some i
  | .error _ => none

/-- The opcode byte of a command (R98). -/
def Instr.opcode : Instr → Byte
  | .nop => 0x00
  | .ldi _ _ => 0x01
  | .lde _ _ => 0x02
  | .ste _ => 0x03
  | .ldc _ _ => 0x04
  | .stc _ => 0x05
  | .ldst _ => 0x06
  | .stst _ => 0x07
  | .trunc _ _ => 0x08
  | .perm => 0x10
  | .pclr => 0x20
  | .pabs _ => 0x21
  | .psqz _ => 0x22
  | .start _ => 0x23
  | .absorb _ _ _ => 0x24
  | .squeeze _ => 0x25
  | .finish _ => 0x26
  | .abort => 0x27
  | .hash _ _ _ => 0x28
  | .mhash2 _ _ _ => 0x29
  | .mhash4 _ _ _ => 0x2A
  | .enc _ _ _ => 0x30
  | .dec _ _ => 0x31
  | .rdsr _ => 0x40
  | .clrerr => 0x41

/-- The packet length of R90 and R93. -/
def Instr.packetLen (mcap : Nat) : Instr → Nat
  | .lde _ _ => 36
  | .ldc _ _ => 4 + 32 * (mcap + 1)
  | .nop => 4
  | .ldi _ _ => 4
  | .ste _ => 4
  | .stc _ => 4
  | .ldst _ => 4
  | .stst _ => 4
  | .trunc _ _ => 4
  | .perm => 4
  | .pclr => 4
  | .pabs _ => 4
  | .psqz _ => 4
  | .start _ => 4
  | .absorb _ _ _ => 4
  | .squeeze _ => 4
  | .finish _ => 4
  | .abort => 4
  | .hash _ _ _ => 4
  | .mhash2 _ _ _ => 4
  | .mhash4 _ _ _ => 4
  | .enc _ _ _ => 4
  | .dec _ _ => 4
  | .rdsr _ => 4
  | .clrerr => 4

/-- The packet of a command: its word `op, A, B, C` (R91, R98) and its payload. -/
def encode : Instr → List Byte
  | .nop => [0x00, 0, 0, 0]
  | .ldi vd imm => [0x01, vd, imm.extractLsb' 0 8, imm.extractLsb' 8 8]
  | .lde vd payload => [0x02, vd, 0, 0] ++ payload
  | .ste vs => [0x03, vs, 0, 0]
  | .ldc vd payload => [0x04, vd, 0, 0] ++ payload
  | .stc vs => [0x05, vs, 0, 0]
  | .ldst vs => [0x06, vs, 0, 0]
  | .stst vd => [0x07, vd, 0, 0]
  | .trunc vs vd => [0x08, vs, 0, vd]
  | .perm => [0x10, 0, 0, 0]
  | .pclr => [0x20, 0, 0, 0]
  | .pabs n => [0x21, 0, n, 0]
  | .psqz n => [0x22, 0, n, 0]
  | .start d => [0x23, d, 0, 0]
  | .absorb vs n m => [0x24, vs, n, m]
  | .squeeze n => [0x25, 0, n, 0]
  | .finish vd => [0x26, vd, 0, 0]
  | .abort => [0x27, 0, 0, 0]
  | .hash vs n vd => [0x28, vs, n, vd]
  | .mhash2 vs m vd => [0x29, vs, m, vd]
  | .mhash4 vs m vd => [0x2A, vs, m, vd]
  | .enc vs mlen vd => [0x30, vs, mlen, vd]
  | .dec vs vd => [0x31, vs, 0, vd]
  | .rdsr csr => [0x40, csr, 0, 0]
  | .clrerr => [0x41, 0, 0, 0]

end Sys2Proof
end

