-- ==== Sys2Proof/Machine/Field.lean ====
section
/-! DEFINITION. Field arithmetic on canonical representatives (spec/40_permutation.md R120), the field element of a
natural number (spec/00_scope.md R10), and the 32-byte encoding (spec/20_memory.md R62). -/

namespace Sys2Proof.Machine

/-- `fe(n) = n mod P` (R10). -/
def fe (p : Nat) (n : Nat) : Nat := n % p

/-- `fadd(a,b) = (a + b) mod P` (R120). -/
def fadd (p : Nat) (a b : Nat) : Nat := (a + b) % p

/-- `fsub(a,b) = (a - b) mod P`, the difference taken in the integers (R120). -/
def fsub (p : Nat) (a b : Nat) : Nat := (((a : Int) - (b : Int)) % (p : Int)).toNat

/-- `fmul(a,b) = (a * b) mod P` (R120). -/
def fmul (p : Nat) (a b : Nat) : Nat := (a * b) % p

/-- `fsq(a) = fmul(a,a)` (R120). -/
def fsq (p : Nat) (a : Nat) : Nat := fmul p a a

/-- `feq(a,b)`: equality of canonical representatives (R120). -/
def feq (a b : Nat) : Bool := decide (a = b)

/-- `enc32(v) = le_bytes(v, 32)` (R62). -/
def enc32 (v : Nat) : List Byte := leBytes 32 v

/-- `dec32(b)`: the little-endian value when it is below `P`, a failure otherwise (R62). -/
def dec32 (p : Nat) (b : List Byte) : Option Nat :=
  if leNat b < p then some (leNat b) else none

end Sys2Proof.Machine
end

