-- ==== Sys2Proof/Machine/State.lean ====
section
/-! DEFINITION. The state of one P252E (spec/10_state.md R20 to R31), its reset value (R34), and the reasons a step can
stop. `cfg` and `cs` are the two parameters of the spec's step function (R20: immutable, not mutable state); the step
takes one argument, so they stand in `State` as fields that no command writes (log entry 1). -/

namespace Sys2Proof.Machine

/-- `MODE` (R26): `ACTIVE` when a sponge exists. It is no privilege mode (R258). -/
inductive Mode where
  | idle
  | active
deriving DecidableEq, Repr

/-- The result codes (spec/60_exceptions.md R250), in the order of their numbers 0 to 8. -/
inductive ResultCode where
  | ok
  | ioPatternViolation
  | invalidIOPattern
  | tooFewInputElements
  | decryptionFailed
  | nonCanonicalElement
  | badOperand
  | badState
  | illegalCommand
deriving DecidableEq, Repr

/-- One response packet (R96): the four header bytes and the payload. -/
structure Packet where
  code : Byte
  echo : Byte
  cnt : Byte
  plw : Byte
  payload : List Byte
deriving DecidableEq, Repr

/-- The command stream `CS` (spec/20_memory.md R60): `size` bytes at the addresses 0 to `size - 1`, of which `cells` lists
those that are not `0x00`, by rising address. There is no byte at an address from `size` on. -/
structure Memory where
  size : Nat
  cells : List Host.Cell
deriving DecidableEq, Repr

/-- The architectural state. -/
structure State where
  /-- `CFG` (R6, R20): a parameter, never written. -/
  cfg : Config
  /-- `CS` (R60): a parameter, never written by a command. -/
  cs : Memory
  /-- `ST[0..5]` (R21). -/
  st : PermState
  /-- `VR[0..32]` (R22). -/
  vr : Vector Nat 32
  /-- `PAT`, of length `PLEN` (R25). -/
  pat : List PatStep
  /-- `APAT`, of length `APLEN` (R25). -/
  apat : List PatStep
  /-- `MODE` (R26). -/
  mode : Mode
  /-- `DOM` (R26). -/
  dom : Domain
  /-- `IOC` (R26). -/
  ioc : Nat
  /-- `APOS`, 0 to 3 (R26). -/
  apos : Fin 4
  /-- `SPOS`, 0 to 4 (R26). -/
  spos : Fin 5
  /-- `OUT`, of length `OLEN` (R23). -/
  out : List Nat
  /-- `ESTICKY` (R27). -/
  esticky : Half
  /-- `LASTCODE` (R27). -/
  lastcode : Byte
  /-- `PCNT` (R28). -/
  pcnt : Word
  /-- `HALT` (R29). -/
  halt : Bool
  /-- `CP` (R30). -/
  cp : Nat
  /-- `RSP`, oldest packet first (R31). -/
  rsp : List Packet
deriving DecidableEq, Repr

/-- Why the sequencer makes no step (spec/30_encoding.md R94 (1)). Both are raised by `step`, by no command, and both are
safe: the machine makes no step there either. -/
inductive Fault where
  /-- `HALT = 1`: stuck until reset (R255, spec/93_implementation_defined.md U16). Raised by `step`; safe. -/
  | halted
  /-- `CP` has reached the end of the command stream: the run has ended normally (R282) and the sequencer is idle until the
  host supplies more bytes (R263). Raised by `step`; safe. -/
  | streamEnd
deriving DecidableEq, Repr

/-- What the model has no meaning for. -/
inductive Refusal where
  /-- An instruction without a meaning, by its mnemonic. Raised by an arm of `exec` only (by none: every instruction has its
  meaning); safe. -/
  | notModelled (mnemonic : String)
deriving DecidableEq, Repr

/-- The outcome of a command. -/
abbrev Result := Host.Outcome State Fault Refusal

/-- The reset state of a machine with configuration `cfg` to which the command stream `cs` is then given (R34, R280). -/
def State.resetWith (cfg : Config) (cs : Memory) : State where
  cfg := cfg
  cs := cs
  st := Vector.replicate 5 0
  vr := Vector.replicate 32 0
  pat := []
  apat := []
  mode := .idle
  dom := .merkle2
  ioc := 0
  apos := 0
  spos := 0
  out := []
  esticky := 0
  lastcode := 0
  pcnt := 0
  halt := false
  cp := 0
  rsp := []

/-- The machine right after reset (R34), its installed configuration in place (R281) and no command stream supplied yet. -/
def State.reset : State := State.resetWith Config.installed ⟨0, []⟩

end Sys2Proof.Machine
end

