-- ==== Sys2Proof/Machine/Operands.lean ====
section
/-! DEFINITION. The operand forms (spec/30_encoding.md R92), the static operand checks (R101), the register file `VR`
(spec/10_state.md R22), the domain index (spec/41_sponge.md R151) and the tag of a pattern (R152). -/

namespace Sys2Proof.Machine

/-- A register index must be below 32 (R101). -/
def regOk (i : Nat) : Bool := decide (i < NVR)

/-- A register range `VR[b .. b+n]` must satisfy `b < 32` and `b + n <= 32` (R101). -/
def rangeOk (b n : Nat) : Bool := decide (b < NVR) && decide (b + n ≤ NVR)

/-- `VR[i]` (R11). Every command checks its indices before it reads (R101), so the answer `0` for an index from 32 on is
never used. -/
def State.vrAt (s : State) (i : Nat) : Nat := s.vr[i]?.getD 0

/-- `[VR[b], ..., VR[b+n-1]]` (R121: in increasing index order). -/
def State.vrRange (s : State) (b n : Nat) : List Nat := (List.range' b n).map s.vrAt

/-- A register file with `xs` written from the index `b` on; the other registers keep their values. -/
def writeRegs (vr : Vector Nat 32) (b : Nat) (xs : List Nat) : Vector Nat 32 :=
  Vector.ofFn fun k : Fin 32 => if b ≤ k.val then (xs[k.val - b]?).getD vr[k] else vr[k]

/-- `VR[b + k] <- xs[k]` for every `k` below the length of `xs`; the other registers keep their values. -/
def State.vrWrite (s : State) (b : Nat) (xs : List Nat) : State := { s with vr := writeRegs s.vr b xs }

/-- `VR[i] <- v`. -/
def State.vrSet (s : State) (i : Nat) (v : Nat) : State := s.vrWrite i [v]

/-- The chunks of a payload, `n` of 32 bytes each: chunk `i` is the bytes `32*i .. 32*(i+1)` of it (R206). -/
def chunks (payload : List Byte) (n : Nat) : List (List Byte) :=
  (List.range n).map fun i => (payload.drop (32 * i)).take 32

/-- The elements of a payload when every chunk decodes, a failure otherwise (R206: all or nothing). -/
def decodeAll (p : Nat) : List (List Byte) → Option (List Nat)
  | [] => some []
  | c :: cs =>
    match dec32 p c, decodeAll p cs with
    | some v, some vs => some (v :: vs)
    | _, _ => none

/-- The index of a domain (R151). -/
def domainIndex : Domain → Nat
  | .merkle2 => 0
  | .merkle4 => 1
  | .encryption => 2
  | .other => 3

/-- The domain of an index, legal when at most 3 (R92, R151). -/
def domainOf (d : Nat) : Option Domain :=
  match d with
  | 0 => some .merkle2
  | 1 => some .merkle4
  | 2 => some .encryption
  | 3 => some .other
  | _ => none

/-- The arity of a Merkle domain (R151). -/
def arity : Domain → Option Nat
  | .merkle2 => some 2
  | .merkle4 => some 4
  | .encryption => none
  | .other => none

/-- `DOM_TAG[d]` (R151). -/
def domTag (c : Config) : Domain → Tag64
  | .merkle2 => c.domTag[0]
  | .merkle4 => c.domTag[1]
  | .encryption => c.domTag[2]
  | .other => c.domTag[3]

/-- `TAG_OF(pattern, tag64)` (R152): the value the configuration lists, or else the free value, taken into the field. -/
def tagOf (c : Config) (pat : List PatStep) (t : Tag64) : Nat :=
  match c.tagTable.lookup (pat, t) with
  | some v => v
  | none => fe c.p (c.freeTag pat t)

end Sys2Proof.Machine
end

