-- ==== Sys2Proof/Machine/Flags.lean ====
section
/-! DEFINITION. The numbers of the result codes (spec/60_exceptions.md R250), the sticky flags (spec/10_state.md R27,
spec/30_encoding.md R97), and the control and status registers as `RDSR` shows them (spec/10_state.md R32). -/

namespace Sys2Proof.Machine

/-- The number of a result code (R250). -/
def codeNum : ResultCode → Nat
  | .ok => 0
  | .ioPatternViolation => 1
  | .invalidIOPattern => 2
  | .tooFewInputElements => 3
  | .decryptionFailed => 4
  | .nonCanonicalElement => 5
  | .badOperand => 6
  | .badState => 7
  | .illegalCommand => 8

/-- A result code as the byte of the response header and of `LASTCODE` (R250). -/
def codeByte (c : ResultCode) : Byte := BitVec.ofNat 8 (codeNum c)

/-- `ESTICKY` after a command that ends with code `c`: bit `c` is set unless `c` is 0 (R97 (3)). -/
def stickyAfter (c : ResultCode) (e : Half) : Half :=
  if codeNum c = 0 then e else e ||| (1#16 <<< codeNum c)

/-- `MODE` as a number: 0 `IDLE`, 1 `ACTIVE` (R26). -/
def modeNum : Mode → Nat
  | .idle => 0
  | .active => 1

/-- The value of the control and status register number `n`, none above 13 (R32). -/
def csrValue (s : State) (n : Nat) : Option Word :=
  match n with
  | 0 => some 0x013C0805#32
  | 1 => some (0x00201020#32 + BitVec.ofNat 32 (s.cfg.mcap * 2 ^ 24))
  | 2 => some (BitVec.ofNat 32 (modeNum s.mode))
  | 3 => some (BitVec.ofNat 32 (domainIndex s.dom))
  | 4 => some (BitVec.ofNat 32 s.pat.length)
  | 5 => some (BitVec.ofNat 32 s.apat.length)
  | 6 => some (BitVec.ofNat 32 s.ioc)
  | 7 => some (BitVec.ofNat 32 s.apos.val)
  | 8 => some (BitVec.ofNat 32 s.spos.val)
  | 9 => some (BitVec.ofNat 32 s.out.length)
  | 10 => some (BitVec.setWidth 32 s.esticky)
  | 11 => some (BitVec.setWidth 32 s.lastcode)
  | 12 => some s.pcnt
  | 13 => some (BitVec.ofNat 32 s.cp)
  | _ => none

end Sys2Proof.Machine
end

