-- ==== Sys2Proof/Machine/Memory.lean ====
section
/-! DEFINITION. The operations over a command stream (spec/20_memory.md R60, R65, R66): reading one byte, reading what
lies from an address on, and the host's writes. Every one of them keeps the canonical form `Memory.wf`. -/

namespace Sys2Proof.Machine

/-- The byte that `cells` gives the address `a`: an address it does not list holds `0x00`. -/
def cellAt : List Host.Cell → Nat → Byte
  | [], _ => 0
  | (k, v) :: rest, a => if k = a then v else cellAt rest a

/-- `cells` with the byte `b` at the address `a`; a zero byte is held by listing nothing. -/
def setCell : List Host.Cell → Nat → Byte → List Host.Cell
  | [], a, b => if b = 0 then [] else [(a, b)]
  | (k, v) :: rest, a, b =>
    if a < k then (if b = 0 then (k, v) :: rest else (a, b) :: (k, v) :: rest)
    else if a = k then (if b = 0 then rest else (a, b) :: rest)
    else (k, v) :: setCell rest a b

/-- The addresses of `cells` rise strictly from `lo` on, stay below `hi`, and no listed byte is zero. -/
def cellsWf (lo hi : Nat) : List Host.Cell → Bool
  | [] => true
  | (k, v) :: rest => decide (lo ≤ k) && decide (k < hi) && decide (v ≠ 0) && cellsWf (k + 1) hi rest

/-- The canonical form: two command streams of the same bytes are the same data. -/
def Memory.wf (m : Memory) : Bool := cellsWf 0 m.size m.cells

/-- `MemRead(CS, a, 1)` (R11): the byte at `a`, none from the stream's length on (R65). -/
def Memory.read (m : Memory) (a : Nat) : Option Byte :=
  if a < m.size then some (cellAt m.cells a) else none

/-- The bytes from the address `a` on, at most `n` of them: those that the stream holds. -/
def Memory.window (m : Memory) (a n : Nat) : List Byte :=
  (List.range' a (min n (m.size - a))).map (cellAt m.cells)

/-- All the bytes of the stream, in address order. -/
def Memory.bytes (m : Memory) : List Byte := m.window 0 m.size

/-- The host's write of one byte at `a`; the stream grows to hold it. -/
def Memory.write (m : Memory) (a : Nat) (b : Byte) : Memory :=
  ⟨max m.size (a + 1), setCell m.cells a b⟩

/-- The host's write of the bytes `bs` from the address `a` on. -/
def Memory.writeBytes (m : Memory) (a : Nat) : List Byte → Memory
  | [] => m
  | b :: bs => (m.write a b).writeBytes (a + 1) bs

/-- The command stream of the bytes `bs`. -/
def Memory.ofBytes (bs : List Byte) : Memory := Memory.writeBytes ⟨0, []⟩ 0 bs

/-- The command stream with the bytes `bs` added at its end (R66). -/
def Memory.append (m : Memory) (bs : List Byte) : Memory := m.writeBytes m.size bs

end Sys2Proof.Machine
end

