-- ==== Sys2Proof/Machine/Ops.lean ====
section
/-! DEFINITION. What every command shares: the response packet (spec/30_encoding.md R96), the epilogue (R97), ending a
command normally or with an error (spec/60_exceptions.md R254), the halting fault (R255), the zeroisation `SpongeKill`
(spec/41_sponge.md R158), and the host's inputs (spec/20_memory.md R66, spec/70_reset_and_hazards.md R280). P252E has no
return from an error: an error transfers control nowhere (R256). -/

namespace Sys2Proof.Machine

/-- The response packet with result code `c`, echo byte `echo`, count `cnt` and payload (R96). -/
def responsePacket (c : ResultCode) (echo cnt : Byte) (payload : List Byte) : Packet where
  code := codeByte c
  echo := echo
  cnt := cnt
  plw := BitVec.ofNat 8 (payload.length / 4)
  payload := payload

/-- The bytes of a response packet on the response stream (R96). -/
def Packet.bytes (k : Packet) : List Byte := [k.code, k.echo, k.cnt, k.plw] ++ k.payload

/-- The response stream as a byte sequence (R66). -/
def State.rspBytes (s : State) : List Byte := s.rsp.flatMap Packet.bytes

/-- The epilogue of a command with result code `c` and packet length `len` (R97). -/
def epilogue (c : ResultCode) (echo : Byte) (len : Nat) (cnt : Byte) (payload : List Byte) (s : State) : State :=
  { s with
    rsp := s.rsp ++ [responsePacket c echo cnt payload]
    lastcode := codeByte c
    esticky := stickyAfter c s.esticky
    halt := s.halt || decide (c = .illegalCommand)
    cp := if c = .illegalCommand then s.cp else s.cp + len }

/-- The command `i` ends with `OK` and the response `respond(cnt, payload)` (R11, R94 (4)). -/
def completeWith (i : Instr) (cnt : Byte) (payload : List Byte) (s : State) : State :=
  epilogue .ok i.opcode (i.packetLen s.cfg.mcap) cnt payload s

/-- The command `i` ends with `OK` and an empty response. -/
def complete (i : Instr) (s : State) : State := completeWith i 0 [] s

/-- `raise c` in the command `i` (R11, R254): the epilogue with an empty payload, over the state `s` that holds exactly
the changes R254 lists for the code. Control goes on with the next packet. -/
def raise (i : Instr) (c : ResultCode) (s : State) : State :=
  epilogue c i.opcode (i.packetLen s.cfg.mcap) 0 [] s

/-- `raise IllegalCommand` by the decoder, with `op` the byte of `CS` at `CP` (R94 (2), R255). There is no packet, so no
packet length. -/
def raiseIllegal (op : Byte) (s : State) : State :=
  epilogue .illegalCommand op 0 0 [] s

/-- `SpongeKill()` (R158). -/
def spongeKill (s : State) : State :=
  { s with
    st := Vector.replicate 5 0
    apat := []
    dom := .merkle2
    ioc := 0
    apos := 0
    spos := 0
    out := []
    mode := .idle }

/-- The platform asserts reset and the host supplies a new command stream: everything but `CFG` takes its reset value
(R280). -/
def State.platformReset (s : State) (cs : Memory) : State := State.resetWith s.cfg cs

/-- The host adds bytes at the end of the command stream (R66). -/
def State.supply (s : State) (bs : List Byte) : State := { s with cs := s.cs.append bs }

end Sys2Proof.Machine
end

