-- ==== Sys2Proof/Machine/Permutation.lean ====
section
/-! DEFINITION. The permutation engine (spec/40_permutation.md R122 to R126) and its command `PERM` (R128). -/

namespace Sys2Proof.Machine

/-- The S-box: two squarings, then one multiplication (R122). -/
def sbox (p : Nat) (x : Nat) : Nat :=
  let x2 := fsq p x
  let x4 := fsq p x2
  fmul p x4 x

/-- `ARC(s, r)`: row `r` of the round constants is added elementwise (R123). The row index is below 68 by its type, so the
constants cannot run out (R265). -/
def arc (c : Config) (s : PermState) (r : Fin 68) : PermState :=
  Vector.ofFn fun k : Fin 5 => fadd c.p s[k] c.rc[r][k]

/-- `SBOX_FULL(s)` (R123). -/
def sboxFull (c : Config) (s : PermState) : PermState :=
  Vector.ofFn fun k : Fin 5 => sbox c.p s[k]

/-- `SBOX_PARTIAL(s)`: the last element only (R123). -/
def sboxPartial (c : Config) (s : PermState) : PermState :=
  Vector.ofFn fun k : Fin 5 => if k = 4 then sbox c.p s[k] else s[k]

/-- Output position `k` of `MIX`: the sum over `j` of `MDS[k][j] * s[j]` (R123). -/
def mixAt (c : Config) (s : PermState) (k : Fin 5) : Nat :=
  fadd c.p (fadd c.p (fadd c.p (fadd c.p
    (fmul c.p c.mds[k][0] s[0]) (fmul c.p c.mds[k][1] s[1]))
    (fmul c.p c.mds[k][2] s[2])) (fmul c.p c.mds[k][3] s[3])) (fmul c.p c.mds[k][4] s[4])

/-- `MIX(s)`, the linear layer (R123). -/
def mix (c : Config) (s : PermState) : PermState := Vector.ofFn (mixAt c s)

/-- `FULL(s, r)` (R124). -/
def fullRound (c : Config) (s : PermState) (r : Fin 68) : PermState := mix c (sboxFull c (arc c s r))

/-- `PARTIAL(s, r)` (R124). -/
def partialRound (c : Config) (s : PermState) (r : Fin 68) : PermState := mix c (sboxPartial c (arc c s r))

/-- Round number `r` of the schedule: rows 4 to 63 are partial rounds, the others full rounds (R125). -/
def roundAt (c : Config) (s : PermState) (r : Fin 68) : PermState :=
  if 4 ≤ r.val ∧ r.val < 64 then partialRound c s r else fullRound c s r

/-- The 68 rounds of a permutation, row by row in order (R125, R126). -/
def permutation (c : Config) (s : PermState) : PermState := (List.finRange 68).foldl (roundAt c) s

/-- `Permute()`: `ST` in place, and one more in `PCNT`, modulo `2^32` (R126). -/
def permute (s : State) : State :=
  { s with st := permutation s.cfg s.st, pcnt := s.pcnt + 1 }

/-- `PERM` (R128). -/
def execPerm (s : State) : Result := .next <|
  if s.mode ≠ .idle then raise .perm .badState s
  else complete .perm (permute s)

end Sys2Proof.Machine
end

