-- ==== Sys2Proof/Machine/Cipher.lean ====
section
/-! DEFINITION. The authenticated cipher (spec/43_cipher.md): the initial state (R201), the two procedures (R202, R203),
the commands `ENC` and `DEC` (R204, R205), and the cipher byte format, `LDC` and `STC` (R206, R207). -/

namespace Sys2Proof.Machine

/-- The initial cipher state for a shared secret `(sx, sy)` and a nonce (R201). -/
def cipherSeed (c : Config) (sx sy nc : Nat) : PermState :=
  #v[c.cipherDomain, c.cipherCapacity, sx, sy, nc]

/-- `ST[i+1] <- xs[i]` for every `i` below the length of `xs`; the other positions keep their values. -/
def overwriteFrom1 (st : PermState) (xs : List Nat) : PermState :=
  Vector.ofFn fun k : Fin 5 => if k.val = 0 then st[k] else (xs[k.val - 1]?).getD st[k]

/-- `ST[i+1]`. The indices used are at most `MCAP`, at most 4. -/
def slotAfter (st : PermState) (i : Nat) : Nat := st[i + 1]?.getD 0

/-- `EncryptCore(sx, sy, nc, msg)` (R202): the state it leaves, and the cipher value of `MCAP + 1` elements. -/
def encryptCore (sx sy nc : Nat) (msg : List Nat) (s : State) : State × List Nat :=
  let a := permute { s with st := cipherSeed s.cfg sx sy nc }
  let c := (List.range s.cfg.mcap).map fun i => fadd s.cfg.p (slotAfter a.st i) (msg.getD i 0)
  let b := permute { a with st := overwriteFrom1 a.st c }
  (b, c ++ [b.st[1]])

/-- `DecryptCore(sx, sy, nc, c)` (R203): the state it leaves, and the message of `MCAP` elements, or none when the
authentication element does not match. -/
def decryptCore (sx sy nc : Nat) (c : List Nat) (s : State) : State × Option (List Nat) :=
  let a := permute { s with st := cipherSeed s.cfg sx sy nc }
  let m := (List.range s.cfg.mcap).map fun i => fsub s.cfg.p (c.getD i 0) (slotAfter a.st i)
  let b := permute { a with st := overwriteFrom1 a.st (c.take s.cfg.mcap) }
  (b, if feq b.st[1] (c.getD s.cfg.mcap 0) then some m else none)

/-- The message elements that `ENC` reads: at most `MCAP` (R204). -/
def messageLen (c : Config) (mlen : Nat) : Nat := min mlen c.mcap

/-- `ENC vd, vs, mlen` (R204). -/
def execEnc (vs mlen vd : Byte) (s : State) : Result := .next <|
  let ml := messageLen s.cfg mlen.toNat
  if s.mode ≠ .idle then raise (.enc vs mlen vd) .badState s
  else if (rangeOk vs.toNat (3 + ml) && rangeOk vd.toNat (s.cfg.mcap + 1)) = false then
    raise (.enc vs mlen vd) .badOperand s
  else
    let r := encryptCore (s.vrAt vs.toNat) (s.vrAt (vs.toNat + 1)) (s.vrAt (vs.toNat + 2))
      (s.vrRange (vs.toNat + 3) ml) s
    complete (.enc vs mlen vd) ((spongeKill r.1).vrWrite vd.toNat r.2)

/-- `DEC vd, vs` (R205). -/
def execDec (vs vd : Byte) (s : State) : Result := .next <|
  if s.mode ≠ .idle then raise (.dec vs vd) .badState s
  else if (rangeOk vs.toNat (3 + s.cfg.mcap + 1) && rangeOk vd.toNat s.cfg.mcap) = false then
    raise (.dec vs vd) .badOperand s
  else
    let r := decryptCore (s.vrAt vs.toNat) (s.vrAt (vs.toNat + 1)) (s.vrAt (vs.toNat + 2))
      (s.vrRange (vs.toNat + 3) (s.cfg.mcap + 1)) s
    match r.2 with
    | none => raise (.dec vs vd) .decryptionFailed (spongeKill r.1)
    | some m => complete (.dec vs vd) ((spongeKill r.1).vrWrite vd.toNat m)

/-- `LDC vd, [e0, ..., e_MCAP]` (R206). -/
def execLdc (vd : Byte) (payload : List Byte) (s : State) : Result := .next <|
  if rangeOk vd.toNat (s.cfg.mcap + 1) = false then raise (.ldc vd payload) .badOperand s
  else
    match decodeAll s.cfg.p (chunks payload (s.cfg.mcap + 1)) with
    | none => raise (.ldc vd payload) .nonCanonicalElement s
    | some es => complete (.ldc vd payload) (s.vrWrite vd.toNat es)

/-- `STC vs` (R207). -/
def execStc (vs : Byte) (s : State) : Result := .next <|
  if rangeOk vs.toNat (s.cfg.mcap + 1) = false then raise (.stc vs) .badOperand s
  else completeWith (.stc vs) 0 ((s.vrRange vs.toNat (s.cfg.mcap + 1)).flatMap enc32) s

end Sys2Proof.Machine
end

