-- ==== Sys2Proof/Machine/Sponge.lean ====
section
/-! DEFINITION. The sponge controller (spec/41_sponge.md): pattern validity (R153), the three core procedures (R154,
R156, R157), pattern staging (R159 to R161) and the protocol commands (R162 to R166). -/

namespace Sys2Proof.Machine

/-- The length of a step (R25). -/
def stepLen : PatStep → Nat
  | .absorb n => n
  | .squeeze n => n

/-- Whether a step is an `Absorb`. -/
def isAbsorb : PatStep → Bool
  | .absorb _ => true
  | .squeeze _ => false

/-- Whether a step is a `Squeeze`. -/
def isSqueeze : PatStep → Bool
  | .absorb _ => false
  | .squeeze _ => true

/-- The sum of `n` over the `Absorb` steps. -/
def absorbTotal : List PatStep → Nat
  | [] => 0
  | .absorb n :: rest => n + absorbTotal rest
  | .squeeze _ :: rest => absorbTotal rest

/-- The sum of `n` over the `Squeeze` steps. -/
def squeezeTotal : List PatStep → Nat
  | [] => 0
  | .absorb _ :: rest => squeezeTotal rest
  | .squeeze n :: rest => n + squeezeTotal rest

/-- Condition (d) of `PatternValid`: the shape of a Merkle domain (R153). -/
def merkleShape (pat : List PatStep) (d : Domain) : Bool :=
  match arity d with
  | some k => decide (absorbTotal pat = k) && decide (squeezeTotal pat = 1)
  | none => true

/-- `PatternValid(pat, d)` (R153): not empty, every step of length at least 1, an `Absorb` first and a `Squeeze` last, and
the shape of a Merkle domain. -/
def patternValid (pat : List PatStep) (d : Domain) : Bool :=
  !pat.isEmpty && pat.all (fun t => decide (1 ≤ stepLen t))
    && pat.head?.any isAbsorb && pat.getLast?.any isSqueeze && merkleShape pat d

/-- `SpongeInit(pat, d)` (R154). -/
def spongeInit (pat : List PatStep) (d : Domain) (s : State) : State :=
  { s with
    apat := pat
    dom := d
    st := #v[tagOf s.cfg pat (domTag s.cfg d), 0, 0, 0, 0]
    ioc := 0
    apos := 0
    spos := 4
    out := []
    mode := .active }

/-- One turn of the loop of `AbsorbCore` (R156): the element is added at `ST[1 + APOS]`, and the fourth one of a chunk
permutes at once. -/
def absorbOne (s : State) (e : Nat) : State :=
  let st := s.st.set (1 + s.apos.val) (fadd s.cfg.p s.st[1 + s.apos.val] e)
  if s.apos = 3 then { permute { s with st := st } with apos := 0 }
  else { s with st := st, apos := s.apos + 1 }

/-- `AbsorbCore(n, e)` with `n` the length of `e` (R156). -/
def absorbCore (e : List Nat) (s : State) : State :=
  let t := e.foldl absorbOne s
  { t with spos := if t.apos = 0 then 0 else 4, ioc := t.ioc + 1 }

/-- `OUT[OLEN] <- ST[1 + k]`, and `SPOS` one further (R157). -/
def takeRate (s : State) (k : Fin 4) : State :=
  { s with out := s.out ++ [s.st[1 + k.val]], spos := k.succ }

/-- One turn of the loop of `SqueezeCore` (R157): a permutation runs first exactly when `SPOS = 4`. -/
def squeezeOne (s : State) : State :=
  if h : s.spos.val < 4 then takeRate s ⟨s.spos.val, h⟩
  else takeRate { permute s with spos := 0, apos := 0 } 0

/-- `n` turns of the loop of `SqueezeCore`. -/
def squeezeMany : Nat → State → State
  | 0, s => s
  | n + 1, s => squeezeMany n (squeezeOne s)

/-- `SqueezeCore(n)` (R157). -/
def squeezeCore (n : Nat) (s : State) : State :=
  let t := squeezeMany n s
  { t with ioc := t.ioc + 1 }

/-- Appending a step to the staged pattern: `BadState` when it already holds 16 (R160, R161). -/
def stageStep (i : Instr) (t : PatStep) (s : State) : State :=
  if s.pat.length = NPAT then raise i .badState s
  else complete i { s with pat := s.pat ++ [t] }

/-- `PCLR` (R159). -/
def execPclr (s : State) : Result := .next (complete .pclr { s with pat := [] })

/-- `PABS n` (R160). -/
def execPabs (n : Byte) (s : State) : Result := .next (stageStep (.pabs n) (.absorb n.toNat) s)

/-- `PSQZ n` (R161). -/
def execPsqz (n : Byte) (s : State) : Result := .next (stageStep (.psqz n) (.squeeze n.toNat) s)

/-- `START d` (R162). -/
def execStart (d : Byte) (s : State) : Result := .next <|
  if s.mode ≠ .idle then raise (.start d) .badState s
  else
    match domainOf d.toNat with
    | none => raise (.start d) .badOperand s
    | some dom =>
      if patternValid s.pat dom = false then raise (.start d) .invalidIOPattern s
      else if NOUT < squeezeTotal s.pat then raise (.start d) .badOperand s
      else complete (.start d) (spongeInit s.pat dom s)

/-- `ABSORB vs, n, m` (R163). -/
def execAbsorb (vs n m : Byte) (s : State) : Result := .next <|
  if s.mode ≠ .active then raise (.absorb vs n m) .badState s
  else if rangeOk vs.toNat m.toNat = false then raise (.absorb vs n m) .badOperand s
  else if m.toNat < n.toNat then raise (.absorb vs n m) .tooFewInputElements (spongeKill s)
  else if s.apat[s.ioc]? ≠ some (.absorb n.toNat) then raise (.absorb vs n m) .ioPatternViolation (spongeKill s)
  else complete (.absorb vs n m) (absorbCore (s.vrRange vs.toNat n.toNat) s)

/-- `SQUEEZE n` (R164). -/
def execSqueeze (n : Byte) (s : State) : Result := .next <|
  if s.mode ≠ .active then raise (.squeeze n) .badState s
  else if s.apat[s.ioc]? ≠ some (.squeeze n.toNat) then raise (.squeeze n) .ioPatternViolation (spongeKill s)
  else complete (.squeeze n) (squeezeCore n.toNat s)

/-- `FINISH vd` (R165). -/
def execFinish (vd : Byte) (s : State) : Result := .next <|
  if s.mode ≠ .active then raise (.finish vd) .badState s
  else if regOk vd.toNat = false then raise (.finish vd) .badOperand s
  else if s.ioc ≠ s.apat.length then raise (.finish vd) .ioPatternViolation (spongeKill s)
  else if NVR < vd.toNat + s.out.length then raise (.finish vd) .badOperand s
  else completeWith (.finish vd) (BitVec.ofNat 8 s.out.length) [] (spongeKill (s.vrWrite vd.toNat s.out))

/-- `ABORT` (R166). -/
def execAbort (s : State) : Result := .next (complete .abort (spongeKill s))

end Sys2Proof.Machine
end

