-- ==== Sys2Proof/Machine/Hash.lean ====
section
/-! DEFINITION. The hash operations on the sponge (spec/42_hash.md): padding (R180), the variable-length hash (R181), the
fixed-arity Merkle hashes (R182, R183) and the truncation (R185). -/

namespace Sys2Proof.Machine

/-- `Lp`, the padded length of a message of `n` elements (R180). -/
def paddedLen (n : Nat) : Nat := 4 * (n / 4 + 1)

/-- `Pad(m)` (R180): a one, then zeros up to the end of the chunk. -/
def pad (m : List Nat) : List Nat := m ++ 1 :: List.replicate (3 - m.length % 4) 0

/-- A whole sponge run that absorbs `e` in one step and squeezes one element (the shared pseudocode of R181 to R183):
the result, and the state it leaves, whose context is zeroised. -/
def spongeHash (d : Domain) (absorbLen : Nat) (e : List Nat) (s : State) : State × Nat :=
  let t := squeezeCore 1 (absorbCore e (spongeInit [.absorb absorbLen, .squeeze 1] d s))
  (spongeKill t, t.out.headD 0)

/-- A hash command's last step: `VR[vd] <- h` (R181 to R183). -/
def hashInto (i : Instr) (vd : Nat) (r : State × Nat) : State := complete i (r.1.vrSet vd r.2)

/-- A fixed-arity Merkle hash of arity `k` in the domain `d` (R182, R183). -/
def merkleHash (i : Instr) (d : Domain) (k : Nat) (vs m vd : Nat) (s : State) : State :=
  if s.mode ≠ .idle then raise i .badState s
  else if (rangeOk vs m && regOk vd) = false then raise i .badOperand s
  else if m ≠ k then raise i .ioPatternViolation s
  else hashInto i vd (spongeHash d k (s.vrRange vs k) s)

/-- `HASH vd, vs, n` (R181). -/
def execHash (vs n vd : Byte) (s : State) : Result := .next <|
  if s.mode ≠ .idle then raise (.hash vs n vd) .badState s
  else if (rangeOk vs.toNat n.toNat && regOk vd.toNat) = false then raise (.hash vs n vd) .badOperand s
  else hashInto (.hash vs n vd) vd.toNat
    (spongeHash .other (paddedLen n.toNat) (pad (s.vrRange vs.toNat n.toNat)) s)

/-- `MHASH2 vd, vs, m` (R182). -/
def execMhash2 (vs m vd : Byte) (s : State) : Result := .next <|
  merkleHash (.mhash2 vs m vd) .merkle2 2 vs.toNat m.toNat vd.toNat s

/-- `MHASH4 vd, vs, m` (R183). -/
def execMhash4 (vs m vd : Byte) (s : State) : Result := .next <|
  merkleHash (.mhash4 vs m vd) .merkle4 4 vs.toNat m.toNat vd.toNat s

/-- The truncation of R185: keep the low `TRUNC_BITS` bits of the canonical integer, then reduce modulo `Q`. -/
def truncElem (c : Config) (x : Nat) : Nat := (x &&& (2 ^ c.truncBits - 1)) % c.q

/-- `TRUNC vd, vs` (R185). -/
def execTrunc (vs vd : Byte) (s : State) : Result := .next <|
  if (regOk vs.toNat && regOk vd.toNat) = false then raise (.trunc vs vd) .badOperand s
  else complete (.trunc vs vd) (s.vrSet vd.toNat (truncElem s.cfg (s.vrAt vs.toNat)))

end Sys2Proof.Machine
end

