-- ==== Sys2Proof/Machine/System.lean ====
section
/-! DEFINITION. Status (spec/44_transfer_system.md R226, R227): `RDSR`, `CLRERR`. -/

namespace Sys2Proof.Machine

/-- `RDSR csr` (R226): the value before this command's epilogue, least significant byte first. -/
def execRdsr (csr : Byte) (s : State) : Result := .next <|
  match csrValue s csr.toNat with
  | none => raise (.rdsr csr) .badOperand s
  | some v => completeWith (.rdsr csr) 0 (leBytes 4 v.toNat) s

/-- `CLRERR` (R227). -/
def execClrerr (s : State) : Result := .next (complete .clrerr { s with esticky := 0 })

end Sys2Proof.Machine
end

