-- ==== Sys2Proof/Machine/Transfer.lean ====
section
/-! DEFINITION. Register transfer (spec/44_transfer_system.md R220 to R225): `NOP`, `LDI`, `LDE`, `STE`, `LDST`, `STST`. -/

namespace Sys2Proof.Machine

/-- `NOP` (R220). -/
def execNop (s : State) : Result := .next (complete .nop s)

/-- `LDI vd, imm` (R221). -/
def execLdi (vd : Byte) (imm : Half) (s : State) : Result := .next <|
  if regOk vd.toNat = false then raise (.ldi vd imm) .badOperand s
  else complete (.ldi vd imm) (s.vrSet vd.toNat (fe s.cfg.p imm.toNat))

/-- `LDE vd, e` (R222). -/
def execLde (vd : Byte) (payload : List Byte) (s : State) : Result := .next <|
  if regOk vd.toNat = false then raise (.lde vd payload) .badOperand s
  else
    match dec32 s.cfg.p payload with
    | none => raise (.lde vd payload) .nonCanonicalElement s
    | some v => complete (.lde vd payload) (s.vrSet vd.toNat v)

/-- `STE vs` (R223). -/
def execSte (vs : Byte) (s : State) : Result := .next <|
  if regOk vs.toNat = false then raise (.ste vs) .badOperand s
  else completeWith (.ste vs) 0 (enc32 (s.vrAt vs.toNat)) s

/-- `LDST vs` (R224). -/
def execLdst (vs : Byte) (s : State) : Result := .next <|
  if s.mode ≠ .idle then raise (.ldst vs) .badState s
  else if rangeOk vs.toNat 5 = false then raise (.ldst vs) .badOperand s
  else complete (.ldst vs) { s with st := Vector.ofFn fun k : Fin 5 => s.vrAt (vs.toNat + k.val) }

/-- `STST vd` (R225). -/
def execStst (vd : Byte) (s : State) : Result := .next <|
  if s.mode ≠ .idle then raise (.stst vd) .badState s
  else if rangeOk vd.toNat 5 = false then raise (.stst vd) .badOperand s
  else complete (.stst vd) (s.vrWrite vd.toNat s.st.toList)

end Sys2Proof.Machine
end

