-- ==== Sys2Proof/Machine/Dispatch.lean ====
section
/-! DEFINITION. The meaning of each command: one arm per row of spec/opcode_table.json, each a call of that command's own
definition. -/

namespace Sys2Proof.Machine

def exec (i : Instr) (s : State) : Host.Outcome State Fault Refusal :=
  match i with
  | .nop => Sys2Proof.Machine.execNop s
  | .ldi vd imm => Sys2Proof.Machine.execLdi vd imm s
  | .lde vd payload => Sys2Proof.Machine.execLde vd payload s
  | .ste vs => Sys2Proof.Machine.execSte vs s
  | .ldc vd payload => Sys2Proof.Machine.execLdc vd payload s
  | .stc vs => Sys2Proof.Machine.execStc vs s
  | .ldst vs => Sys2Proof.Machine.execLdst vs s
  | .stst vd => Sys2Proof.Machine.execStst vd s
  | .trunc vs vd => Sys2Proof.Machine.execTrunc vs vd s
  | .perm => Sys2Proof.Machine.execPerm s
  | .pclr => Sys2Proof.Machine.execPclr s
  | .pabs n => Sys2Proof.Machine.execPabs n s
  | .psqz n => Sys2Proof.Machine.execPsqz n s
  | .start d => Sys2Proof.Machine.execStart d s
  | .absorb vs n m => Sys2Proof.Machine.execAbsorb vs n m s
  | .squeeze n => Sys2Proof.Machine.execSqueeze n s
  | .finish vd => Sys2Proof.Machine.execFinish vd s
  | .abort => Sys2Proof.Machine.execAbort s
  | .hash vs n vd => Sys2Proof.Machine.execHash vs n vd s
  | .mhash2 vs m vd => Sys2Proof.Machine.execMhash2 vs m vd s
  | .mhash4 vs m vd => Sys2Proof.Machine.execMhash4 vs m vd s
  | .enc vs mlen vd => Sys2Proof.Machine.execEnc vs mlen vd s
  | .dec vs vd => Sys2Proof.Machine.execDec vs vd s
  | .rdsr csr => Sys2Proof.Machine.execRdsr csr s
  | .clrerr => Sys2Proof.Machine.execClrerr s

end Sys2Proof.Machine
end

