-- ==== Sys2Proof/Machine/Fetch.lean ====
section
/-! DEFINITION. Fetching a packet (spec/20_memory.md R65, spec/30_encoding.md R93, R94), and placing one where the
sequencer fetches next. -/

namespace Sys2Proof.Machine

/-- What the decoder is given: the bytes of `CS` from `CP` on, as far as the longest packet of any configuration reaches. -/
def fetchBytes (s : State) : List Byte := s.cs.window s.cp longestPacket

/-- What stands at `CP` (R94 (2)): a command, or none. -/
def fetch (s : State) : Except DecodeError Instr := decode s.cfg.mcap (fetchBytes s)

/-- `s` with the packet of the bits `w` written at `CP`, zero above bit `nbits` as far as the longest packet reaches, and
the sequencer not halted. -/
def placeWord (s : State) (nbits w : Nat) : State :=
  { s with cs := s.cs.writeBytes s.cp (leBytes longestPacket (w % 2 ^ nbits)), halt := false }

end Sys2Proof.Machine
end

