-- ==== Sys2Proof/Machine/Step.lean ====
section
/-! DEFINITION. One step of the sequencer (spec/30_encoding.md R94). -/

namespace Sys2Proof.Machine

/-- One step of the sequencer (R94): no step when it is halted or no byte stands at `CP`; otherwise the bytes at `CP` are
decoded, and the command runs, or `IllegalCommand` is raised with the byte at `CP` as its echo.
DESIGN CHOICE (log entry 17): `length(CS)` is the number of bytes supplied so far, so a step over a packet of which only a part
has been supplied raises `IllegalCommand`, even if the host would supply the rest later. -/
def step (s : State) : Host.Outcome State Fault Refusal :=
  if s.halt then .fault .halted
  else
    match s.cs.read s.cp with
    | none => .fault .streamEnd
    | some op =>
      match fetch s with
      | .error _ => .next (raiseIllegal op s)
      | .ok i => exec i s

/-- The state in which the very next step fetches and runs the instruction of the bits `w` (log entry 7). -/
def State.withFetchWord (s : State) (nbits w : Nat) : State := placeWord s nbits w

end Sys2Proof.Machine
end

