-- ==== Sys2Proof/Machine/Tables.lean ====
section
/-! DEFINITION. The table ROM `TR` (spec/20_memory.md R61): its bytes, and the initialisation that reads the round
constants and the matrix from it before the first command (R281). `TR` is no state of its own: its contents are those of
`RC` and `MDS` in the configuration (spec/10_state.md R20, R24), and no command reaches it (R60). -/

namespace Sys2Proof.Machine

/-- The round-constant table: 68 rows of 5 elements (R24). -/
abbrev RoundTable := Vector (Vector Nat 5) 68

/-- The matrix of the linear layer (R24). -/
abbrev MdsTable := Vector (Vector Nat 5) 5

/-- Bytes of the table ROM (R60, R61). -/
def tableBytes : Nat := 11680

/-- Byte address of `RC[r][k]` (R61). -/
def rcAddr (r k : Nat) : Nat := 32 * (5 * r + k)

/-- Byte address of `MDS[k][j]` (R61). -/
def mdsAddr (k j : Nat) : Nat := 10880 + 32 * (5 * k + j)

/-- The bytes of a table, row by row (R61). -/
def rowsBytes {n : Nat} (t : Vector (Vector Nat 5) n) : List Byte :=
  t.toList.flatMap fun row => row.toList.flatMap enc32

/-- The contents of the table ROM for the tables `rc` and `mds` (R61). -/
def tableImage (rc : RoundTable) (mds : MdsTable) : List Byte := rowsBytes rc ++ rowsBytes mds

/-- The table ROM of a configuration. -/
def tableRom (c : Config) : List Byte := tableImage c.rc c.mds

/-- `MemRead(TR, a, n)` (R11). -/
def tableRead (tr : List Byte) (a n : Nat) : List Byte := (tr.drop a).take n

/-- Limb `i` of the element at the byte address `a`: 8 bytes, least significant first (R61). -/
def tableLimb (tr : List Byte) (a i : Nat) : Nat := leNat (tableRead tr (a + 8 * i) 8)

/-- The element at the byte address `a`: four limbs, limb 0 the least significant (R61). -/
def tableElem (tr : List Byte) (a : Nat) : Nat :=
  tableLimb tr a 0 + tableLimb tr a 1 * 2 ^ 64 + tableLimb tr a 2 * 2 ^ 128 + tableLimb tr a 3 * 2 ^ 192

/-- The round constants that a table ROM holds. -/
def loadRc (tr : List Byte) : RoundTable :=
  Vector.ofFn fun r : Fin 68 => Vector.ofFn fun k : Fin 5 => tableElem tr (rcAddr r k)

/-- The matrix that a table ROM holds. -/
def loadMds (tr : List Byte) : MdsTable :=
  Vector.ofFn fun k : Fin 5 => Vector.ofFn fun j : Fin 5 => tableElem tr (mdsAddr k j)

/-- Table initialisation (R61): every element below `P`, every round constant non-zero, or else the table ROM makes an
ill-formed configuration (R8). -/
def loadTables (p : Nat) (tr : List Byte) : Option (RoundTable × MdsTable) :=
  if tr.length = tableBytes ∧ tableBelow p (loadRc tr) = true ∧ tableNonzero (loadRc tr) = true
      ∧ tableBelow p (loadMds tr) = true then
    some (loadRc tr, loadMds tr)
  else none

end Sys2Proof.Machine
end

