-- ==== Sys2Proof/Safety.lean ====
section
/-! DEFINITION. The words the claims are stated in: the invariant of every reachable state (spec/10_state.md R33), what
the end of a command writes (spec/30_encoding.md R97), the frames (what a command leaves alone), and the reference
descriptions of the schedule (spec/40_permutation.md R125) and of the chunk-wise hash (spec/42_hash.md R180, R181). -/

namespace Sys2Proof.Machine

/-! ## The invariant -/

/-- R33 (c): no sponge exists, and its bookkeeping is zero. -/
structure IdleOk (s : State) : Prop where
  apat : s.apat = []
  dom : domainIndex s.dom = 0
  ioc : s.ioc = 0
  apos : s.apos = 0
  spos : s.spos = 0
  out : s.out = []

/-- R33 (d): the bookkeeping of a running sponge. `APOS <= 3` and `SPOS <= 4` hold by their types. -/
structure ActiveOk (s : State) : Prop where
  nonempty : 1 ≤ s.apat.length
  ioc : s.ioc ≤ s.apat.length
  steps : ∀ t ∈ s.apat, 1 ≤ stepLen t
  first : ∃ n, s.apat.head? = some (.absorb n)
  last : ∃ n, s.apat.getLast? = some (.squeeze n)
  out_length : s.out.length = squeezeTotal (s.apat.take s.ioc)
  total : squeezeTotal s.apat ≤ 32

/-- The invariant of every reachable state (R33), with the canonical form of the command stream and the ranges of R25, R27
and R60. -/
structure Inv (s : State) : Prop where
  st_canonical : ∀ k : Fin 5, s.st[k] < s.cfg.p
  vr_canonical : ∀ k : Fin 32, s.vr[k] < s.cfg.p
  out_canonical : ∀ v ∈ s.out, v < s.cfg.p
  pat_length : s.pat.length ≤ 16
  apat_length : s.apat.length ≤ 16
  out_length : s.out.length ≤ 32
  pat_steps : ∀ t ∈ s.pat, stepLen t ≤ 255
  idle : s.mode = .idle → IdleOk s
  active : s.mode = .active → ActiveOk s
  cp_aligned : s.cp % 4 = 0
  cp_bound : s.cp ≤ s.cs.size
  stream_wf : s.cs.wf = true
  stream_length : s.cs.size < 2 ^ 32
  sticky_bits : ∀ b, s.esticky.getLsbD b = true → 1 ≤ b ∧ b ≤ 8

/-- The response stream and what the last response left behind (R96, R97, R250, R255): every packet's payload length is the
one its header announces, no code above 8 appears, `LASTCODE` is the last packet's code, and a halted sequencer's last code
is `IllegalCommand`. -/
structure ResponsesOk (s : State) : Prop where
  payload : ∀ k ∈ s.rsp, k.payload.length = 4 * k.plw.toNat
  codes : ∀ k ∈ s.rsp, k.code.toNat ≤ 8
  lastcode : s.lastcode = ((s.rsp.getLast?).map Packet.code).getD 0
  halted : s.halt = true → s.lastcode = 8 ∧ s.esticky.getLsbD 8 = true

/-! ## Ends and frames of a command -/

/-- The configuration and the command stream are as before, and so is every byte of it. -/
structure ParamsKept (s t : State) : Prop where
  cfg : t.cfg = s.cfg
  cs : t.cs = s.cs
  bytes : ∀ a, t.cs.read a = s.cs.read a

/-- The sponge context is as before: `ST`, `APAT`, `MODE`, `DOM`, `IOC`, `APOS`, `SPOS`, `OUT`. -/
structure SpongeKept (s t : State) : Prop where
  st : t.st = s.st
  apat : t.apat = s.apat
  mode : t.mode = s.mode
  dom : t.dom = s.dom
  ioc : t.ioc = s.ioc
  apos : t.apos = s.apos
  spos : t.spos = s.spos
  out : t.out = s.out

/-- The sponge context as `SpongeKill` leaves it (R158). -/
structure SpongeCleared (t : State) : Prop where
  st : ∀ k : Fin 5, t.st[k] = 0
  apat : t.apat = []
  mode : t.mode = .idle
  dom : domainIndex t.dom = 0
  ioc : t.ioc = 0
  apos : t.apos = 0
  spos : t.spos = 0
  out : t.out = []

/-- What the epilogue of R97 writes for a command `i` that ends with the code `c`, 0 to 7, but for `ESTICKY`: one response
packet at the end of `RSP`, `LASTCODE`, and `CP` past the whole packet. `HALT` is as before. -/
structure Responded (c : ResultCode) (i : Instr) (cnt : Byte) (payload : List Byte) (s t : State) : Prop where
  rsp : t.rsp = s.rsp ++
    [⟨BitVec.ofNat 8 (codeNum c), i.opcode, cnt, BitVec.ofNat 8 (payload.length / 4), payload⟩]
  lastcode : t.lastcode = BitVec.ofNat 8 (codeNum c)
  cp : t.cp = s.cp + i.packetLen s.cfg.mcap
  halt : t.halt = s.halt

/-- Bit `c` of `ESTICKY` is set when `c` is not 0, and every other bit is as before (R97 (3)). -/
def StickySet (c : ResultCode) (s t : State) : Prop :=
  ∀ b, t.esticky.getLsbD b = (s.esticky.getLsbD b || (decide (b = codeNum c) && decide (codeNum c ≠ 0)))

/-- The whole epilogue of R97 for a command `i` that ends with the code `c`, 0 to 7. -/
def Ended (c : ResultCode) (i : Instr) (cnt : Byte) (payload : List Byte) (s t : State) : Prop :=
  Responded c i cnt payload s t ∧ StickySet c s t

/-- `VR[b + k] = xs[k]` for every `k` below the length of `xs`, and every other register is as before. -/
def VrBecomes (s t : State) (b : Nat) (xs : List Nat) : Prop :=
  ∀ k : Fin 32, t.vr[k] = if b ≤ k.val ∧ k.val < b + xs.length then xs.getD (k.val - b) 0 else s.vr[k]

/-- The command ended with the code `c` and an empty response, and nothing else changed (R254: `BadState`, `BadOperand`,
`NonCanonicalElement`, `InvalidIOPattern`; also `OK` for `NOP`). -/
def OnlyEnded (c : ResultCode) (i : Instr) (s t : State) : Prop :=
  Ended c i 0 [] s t ∧ SpongeKept s t ∧ ParamsKept s t ∧ t.vr = s.vr ∧ t.pat = s.pat ∧ t.pcnt = s.pcnt

/-- The command ended with the code `c` and an empty response and killed the sponge; `VR`, `PAT` and `PCNT` are as before
(R254: `IOPatternViolation`, `TooFewInputElements`). -/
def KilledWith (c : ResultCode) (i : Instr) (s t : State) : Prop :=
  Ended c i 0 [] s t ∧ SpongeCleared t ∧ ParamsKept s t ∧ t.vr = s.vr ∧ t.pat = s.pat ∧ t.pcnt = s.pcnt

/-! ## Reference descriptions -/

/-- The rows `lo`, ..., `hi - 1` of the round-constant table, in order. -/
def rows (lo hi : Nat) : List (Fin 68) := (List.finRange 68).filter fun r => decide (lo ≤ r.val) && decide (r.val < hi)

/-- A sequence in chunks of four; what does not fill a chunk is left out. -/
def chunksOf4 : List Nat → List (List Nat)
  | a :: b :: c :: d :: rest => [a, b, c, d] :: chunksOf4 rest
  | _ => []

/-- A chunk added into the four rate slots of a state. -/
def addChunk (p : Nat) (st : PermState) (chunk : List Nat) : PermState :=
  Vector.ofFn fun k : Fin 5 => if k.val = 0 then st[k] else (st[k] + chunk.getD (k.val - 1) 0) % p

/-- The variable-length hash described chunk by chunk (R180, R181): from the tag in the capacity slot, add a chunk of the
padded message and permute, for each chunk in order; the hash is the first rate slot. -/
def chunkedHash (c : Config) (tag : Nat) (m : List Nat) : Nat :=
  ((chunksOf4 (m ++ 1 :: List.replicate (3 - m.length % 4) 0)).foldl
    (fun st chunk => permutation c (addChunk c.p st chunk)) #v[tag, 0, 0, 0, 0])[1]

/-- The commands of `is`, executed in order; none when one of them does not answer a next state. -/
def execAll : List Instr → State → Option State
  | [], s => some s
  | i :: is, s =>
    match exec i s with
    | .next t => execAll is t
    | .fault _ => none
    | .refused _ => none

/-- The result codes that a command can end with (R251). -/
def codesOf : Instr → List ResultCode
  | .nop => [.ok]
  | .ldi _ _ => [.ok, .badOperand]
  | .lde _ _ => [.ok, .badOperand, .nonCanonicalElement]
  | .ste _ => [.ok, .badOperand]
  | .ldc _ _ => [.ok, .badOperand, .nonCanonicalElement]
  | .stc _ => [.ok, .badOperand]
  | .ldst _ => [.ok, .badOperand, .badState]
  | .stst _ => [.ok, .badOperand, .badState]
  | .trunc _ _ => [.ok, .badOperand]
  | .perm => [.ok, .badState]
  | .pclr => [.ok]
  | .pabs _ => [.ok, .badState]
  | .psqz _ => [.ok, .badState]
  | .start _ => [.ok, .invalidIOPattern, .badOperand, .badState]
  | .absorb _ _ _ => [.ok, .ioPatternViolation, .tooFewInputElements, .badOperand, .badState]
  | .squeeze _ => [.ok, .ioPatternViolation, .badState]
  | .finish _ => [.ok, .ioPatternViolation, .badOperand, .badState]
  | .abort => [.ok]
  | .hash _ _ _ => [.ok, .badOperand, .badState]
  | .mhash2 _ _ _ => [.ok, .ioPatternViolation, .badOperand, .badState]
  | .mhash4 _ _ _ => [.ok, .ioPatternViolation, .badOperand, .badState]
  | .enc _ _ _ => [.ok, .badOperand, .badState]
  | .dec _ _ => [.ok, .decryptionFailed, .badOperand, .badState]
  | .rdsr _ => [.ok, .badOperand]
  | .clrerr => [.ok]

end Sys2Proof.Machine
end

