-- ==== Sys2Proof/Certificates/Slice0/Obligations.lean ====
section
/-! DEFINITION. The statements for the provers: what the numbered rules of spec/ say a command, the decoder or the machine
does. A result is stated through the state's fields and the predicates of Sys2Proof/Safety.lean. -/

open Sys2Proof Sys2Proof.Machine

/-! ## Encoding -/

/-- Eight packets of format `C`, written out from the encoding tables of R91 and R98, decode to the commands they stand for,
and four byte sequences are rejected, each by its own name (R94). -/
def Obligations.SpecPacketsDecode : Prop :=
  decode 2 [0x00, 0x00, 0x00, 0x00] = .ok .nop ∧
  decode 2 [0x01, 0x1F, 0x34, 0x12] = .ok (.ldi 31 0x1234) ∧
  decode 2 [0x08, 0x09, 0x00, 0x0A] = .ok (.trunc 9 10) ∧
  decode 2 [0x10, 0x00, 0x00, 0x00] = .ok .perm ∧
  decode 2 [0x10, 0x01, 0x00, 0x00] = .error .reservedField ∧
  decode 2 [0x24, 0x1F, 0x02, 0x03] = .ok (.absorb 31 2 3) ∧
  decode 2 [0x2A, 0x00, 0x04, 0x08] = .ok (.mhash4 0 4 8) ∧
  decode 2 [0x31, 0x14, 0x00, 0x1C] = .ok (.dec 20 28) ∧
  decode 2 [0x40, 0x0C, 0x00, 0x00] = .ok (.rdsr 12) ∧
  decode 2 [0x99, 0x00, 0x00, 0x00] = .error .unassignedOpcode ∧
  decode 2 [0x02, 0x00, 0x00, 0x00, 0x01, 0x02, 0x03] = .error .truncatedPayload ∧
  decode 2 [0x00, 0x00, 0x00] = .error .shortWord

/-- Every well-formed command, with every operand at every value, is what its packet decodes to, whatever follows the
packet in the stream; and the packet has the length of R90. -/
def Obligations.DecodeOfEncode : Prop :=
  ∀ (mcap : Nat) (i : Instr) (rest : List Byte), mcap ≤ 4 → i.wellFormed mcap = true →
    decode mcap (encode i ++ rest) = .ok i ∧ (encode i).length = i.packetLen mcap

/-- What decodes is a packet: the bytes begin with the packet of the command that the decoder reads, every must-be-zero
field zero and the whole payload present. -/
def Obligations.DecodeAcceptsOnlyPackets : Prop :=
  ∀ (mcap : Nat) (bytes : List Byte) (i : Instr), mcap ≤ 4 → decode mcap bytes = .ok i →
    i.wellFormed mcap = true ∧ ∃ rest, bytes = encode i ++ rest

/-- The opcodes of R98 are the 25 listed, and a word is rejected as unassigned exactly when its opcode is none of them. -/
def Obligations.AssignedOpcodes : Prop :=
  ∀ (mcap : Nat) (op a b c : Byte) (rest : List Byte),
    (decode mcap (op :: a :: b :: c :: rest) = .error .unassignedOpcode ↔
      op.toNat ∉ [0x00, 0x01, 0x02, 0x03, 0x04, 0x05, 0x06, 0x07, 0x08, 0x10, 0x20, 0x21, 0x22, 0x23, 0x24, 0x25,
        0x26, 0x27, 0x28, 0x29, 0x2A, 0x30, 0x31, 0x40, 0x41]) ∧
    ((∃ i : Instr, i.opcode = op) ↔
      op.toNat ∈ [0x00, 0x01, 0x02, 0x03, 0x04, 0x05, 0x06, 0x07, 0x08, 0x10, 0x20, 0x21, 0x22, 0x23, 0x24, 0x25,
        0x26, 0x27, 0x28, 0x29, 0x2A, 0x30, 0x31, 0x40, 0x41])

/-! ## Arithmetic and the permutation -/

/-- R120: the field operations on canonical representatives, and the corner cases the rule lists. -/
def Obligations.FieldArithmetic : Prop :=
  ∀ (c : Config) (a b : Nat), a < c.p → b < c.p →
    fadd c.p a b = (a + b) % c.p ∧
    fsub c.p a b = (if b ≤ a then a - b else a + c.p - b) ∧
    ((fsub c.p a b : Nat) : Int) = ((a : Int) - (b : Int)) % (c.p : Int) ∧
    fmul c.p a b = (a * b) % c.p ∧
    fsq c.p a = fmul c.p a a ∧
    (feq a b = true ↔ a = b) ∧
    fadd c.p a b < c.p ∧ fsub c.p a b < c.p ∧ fmul c.p a b < c.p ∧
    fadd c.p a 0 = a ∧ fadd c.p (c.p - 1) 1 = 0 ∧ fsub c.p 0 1 = c.p - 1 ∧ fsub c.p a a = 0 ∧
    fmul c.p a 0 = 0 ∧ fmul c.p a 1 = a ∧ fmul c.p (c.p - 1) (c.p - 1) = 1

/-- R122: the S-box is two squarings and one multiplication, it is the fifth power, and the corner cases of the rule. -/
def Obligations.SboxIsFifthPower : Prop :=
  ∀ (c : Config) (x : Nat),
    sbox c.p x = fmul c.p (fsq c.p (fsq c.p x)) x ∧ sbox c.p x = x ^ 5 % c.p ∧
    sbox c.p 0 = 0 ∧ sbox c.p 1 = 1 ∧ sbox c.p (c.p - 1) = c.p - 1 ∧ sbox c.p 2 = fe c.p 32

/-- R123 and R124: the three layers, position by position, every output position computed from the old state, and the two
kinds of round. -/
def Obligations.RoundLayers : Prop :=
  ∀ (c : Config) (s : PermState) (r : Fin 68),
    (∀ k : Fin 5, (arc c s r)[k] = (s[k] + c.rc[r][k]) % c.p) ∧
    (∀ k : Fin 5, (sboxFull c s)[k] = sbox c.p s[k]) ∧
    (∀ k : Fin 5, (sboxPartial c s)[k] = if k.val = 4 then sbox c.p s[k] else s[k]) ∧
    (∀ k : Fin 5, (mix c s)[k] = (∑ j : Fin 5, c.mds[k][j] * s[j]) % c.p) ∧
    fullRound c s r = mix c (sboxFull c (arc c s r)) ∧
    partialRound c s r = mix c (sboxPartial c (arc c s r))

/-- R125 and R126: rows 0 to 3 are used by full rounds, rows 4 to 63 by partial rounds, rows 64 to 67 by full rounds, in
this order; and `Permute` changes `ST` and adds 1 to `PCNT`, nothing else. -/
def Obligations.PermutationSchedule : Prop :=
  (∀ (c : Config) (s : PermState), permutation c s =
    (rows 64 68).foldl (fullRound c) ((rows 4 64).foldl (partialRound c) ((rows 0 4).foldl (fullRound c) s))) ∧
  (rows 0 4).map Fin.val = List.range' 0 4 ∧ (rows 4 64).map Fin.val = List.range' 4 60 ∧
  (rows 64 68).map Fin.val = List.range' 64 4 ∧
  (∀ s : State, permute s = { s with st := permutation s.cfg s.st, pcnt := s.pcnt + 1 })

/-! ## Byte encodings -/

/-- R62: the canonical encoding is 32 bytes, least significant first; it decodes to the element it encodes, what decodes
is the encoding of its element, and a sequence whose value is not below `P` does not decode. -/
def Obligations.ElementEncoding : Prop :=
  ∀ c : Config,
    (∀ v, v < c.p → (enc32 v).length = 32 ∧ dec32 c.p (enc32 v) = some v ∧
      ∀ k, k < 32 → (enc32 v)[k]? = some (BitVec.ofNat 8 (v / 256 ^ k))) ∧
    (∀ b : List Byte, b.length = 32 →
      ∀ v, dec32 c.p b = some v ↔ (enc32 v = b ∧ v < c.p)) ∧
    (∀ b : List Byte, dec32 c.p b = none ↔ c.p ≤ leNat b)

/-- R61: the table ROM of a configuration is 11680 bytes, and each element stands at its address in the encoding of R62;
and table initialisation loads a pair of tables exactly from their image, byte for byte, provided that every element is
below `P` and every round constant non-zero. -/
def Obligations.TableRomDeserialisesToItself : Prop :=
  (∀ c : Config, (tableRom c).length = 11680 ∧
    (∀ (r : Fin 68) (k : Fin 5), tableRead (tableRom c) (32 * (5 * r.val + k.val)) 32 = enc32 c.rc[r][k]) ∧
    (∀ k j : Fin 5, tableRead (tableRom c) (10880 + 32 * (5 * k.val + j.val)) 32 = enc32 c.mds[k][j])) ∧
  (∀ (c : Config) (tr : List Byte) (rc : RoundTable) (mds : MdsTable), loadTables c.p tr = some (rc, mds) ↔
    tr = tableImage rc mds ∧ (∀ (r : Fin 68) (k : Fin 5), rc[r][k] < c.p ∧ rc[r][k] ≠ 0) ∧
      (∀ k j : Fin 5, mds[k][j] < c.p))

/-! ## The sequencer -/

/-- A step runs the command whose packet stands at `CP`. Nothing is added around `exec`: the epilogue of a command, its
advance of `CP` among it, is part of its meaning. -/
def Obligations.StepRunsDecodedCommand : Prop :=
  ∀ (s : State) (i : Instr), s.halt = false → i.wellFormed s.cfg.mcap = true →
    s.cs.window s.cp (i.packetLen s.cfg.mcap) = encode i → step s = exec i s

/-- R255: where no packet of a command stands at `CP`, the sequencer answers `08 xx 00 00` with `xx` the byte at `CP`, sets
`LASTCODE`, bit 8 of `ESTICKY` and `HALT`, keeps `CP`, and leaves everything else, an active sponge among it, as it was. -/
def Obligations.IllegalPacketHalts : Prop :=
  ∀ (s : State) (op : Byte), s.halt = false → s.cs.read s.cp = some op →
    (∀ i : Instr, i.wellFormed s.cfg.mcap = true → s.cs.window s.cp (i.packetLen s.cfg.mcap) ≠ encode i) →
    ∃ t, step s = .next t ∧ t.rsp = s.rsp ++ [⟨8, op, 0, 0, []⟩] ∧ t.lastcode = 8 ∧
      (∀ b, t.esticky.getLsbD b = (s.esticky.getLsbD b || decide (b = 8))) ∧ t.halt = true ∧ t.cp = s.cp ∧
      SpongeKept s t ∧ ParamsKept s t ∧ t.vr = s.vr ∧ t.pat = s.pat ∧ t.pcnt = s.pcnt

/-- R94 (1): there is no step when `HALT = 1`, nor when `CP` has reached the end of the stream. That "no step" is one of two
faults is the model's choice (log entry 6). -/
def Obligations.NoStepWhenHaltedOrAtEnd : Prop :=
  (∀ s : State, s.halt = true → step s = .fault .halted) ∧
  (∀ s : State, s.halt = false → s.cp = s.cs.size → step s = .fault .streamEnd)

/-- Every command answers exactly one response packet that echoes its opcode, and moves `CP` past exactly its packet,
whether it ends `OK` or with an error (R30, R96, R97). -/
def Obligations.OneResponsePerCommand : Prop :=
  ∀ (i : Instr) (s : State), ∃ t k, exec i s = .next t ∧ t.rsp = s.rsp ++ [k] ∧ k.echo = i.opcode ∧
    t.lastcode = k.code ∧ t.cp = s.cp + i.packetLen s.cfg.mcap ∧ t.halt = s.halt ∧
    (k.code ≠ 0 → k.payload = [] ∧ k.cnt = 0)

/-- No command changes the configuration or a byte of the command stream (R71), which the model holds in the state (log
entry 1). -/
def Obligations.CommandsKeepParameters : Prop :=
  ∀ (i : Instr) (s t : State), exec i s = .next t → ParamsKept s t

/-- R34: every piece of state after reset. -/
def Obligations.ResetValues : Prop :=
  (∀ k : Fin 5, State.reset.st[k] = 0) ∧ (∀ k : Fin 32, State.reset.vr[k] = 0) ∧
  State.reset.pat = [] ∧ State.reset.apat = [] ∧ State.reset.mode = .idle ∧ domainIndex State.reset.dom = 0 ∧
  State.reset.ioc = 0 ∧ State.reset.apos = 0 ∧ State.reset.spos = 0 ∧ State.reset.out = [] ∧
  State.reset.esticky = 0 ∧ State.reset.lastcode = 0 ∧ State.reset.pcnt = 0 ∧ State.reset.halt = false ∧
  State.reset.cp = 0 ∧ State.reset.rsp = []

/-- R280: a reset in any state, a halted one and one with an active sponge among them, keeps the configuration and
nothing else. It is an operation of the platform, outside the step (log entry 12). -/
def Obligations.PlatformResetKeepsOnlyConfiguration : Prop :=
  ∀ (s : State) (cs : Memory),
    s.platformReset cs = { State.reset with cfg := s.cfg, cs := cs }

/-- The reset state meets the invariant and the invariant of the responses. -/
def Obligations.ResetMeetsInvariants : Prop := Inv State.reset ∧ ResponsesOk State.reset

/-- R33: every step keeps the invariant. -/
def Obligations.StepKeepsInvariant : Prop :=
  ∀ s t : State, Inv s → step s = .next t → Inv t

/-- Every step keeps the form of the response stream; no result code above 8 ever appears (R96, R250). -/
def Obligations.StepKeepsResponses : Prop :=
  ∀ s t : State, ResponsesOk s → step s = .next t → ResponsesOk t

/-- R282: a run over the bytes supplied ends after at most as many steps as bytes remain, in one of two ways: normally, with
`CP` at the end of the stream and `HALT = 0`, or faulted, after an `IllegalCommand`, with `HALT = 1` and `CP`
at a byte of the stream; and then no step follows, which the model says by its two faults (log entry 6). -/
def Obligations.EveryRunEnds : Prop :=
  ∀ s : State, s.halt = false → s.cp ≤ s.cs.size →
    ∃ (k : Nat) (t : State), k ≤ s.cs.size - s.cp ∧ core.run k s = .next t ∧ t.cs = s.cs ∧
      ((t.halt = false ∧ t.cp = t.cs.size ∧ step t = .fault .streamEnd) ∨
        (t.halt = true ∧ t.lastcode = 8 ∧ t.cp < t.cs.size ∧ step t = .fault .halted))

/-- R66: what the host adds to the stream stands after what it held, byte for byte; nothing else of the state changes, and
the invariant is kept as long as the stream's length stays below `2^32`. It is an operation of the host, outside the step
(log entry 12). -/
def Obligations.SupplyAppendsBytes : Prop :=
  ∀ (s : State) (bs : List Byte), s.cs.wf = true →
    (s.supply bs).cs.bytes = s.cs.bytes ++ bs ∧ (s.supply bs).cs.size = s.cs.size + bs.length ∧
    { s.supply bs with cs := s.cs } = s ∧
    (Inv s → s.cs.size + bs.length < 2 ^ 32 → Inv (s.supply bs))

/-- R66 and R71: the sequencer does not read ahead. A step that runs a command wholly present in the stream gives the same
result whether the host supplies more bytes before it or after it. -/
def Obligations.SupplyCommutesWithStep : Prop :=
  ∀ (s : State) (i : Instr) (bs : List Byte), s.cs.wf = true → s.halt = false → i.wellFormed s.cfg.mcap = true →
    s.cs.window s.cp (i.packetLen s.cfg.mcap) = encode i →
    ∃ t, step s = .next t ∧ step (s.supply bs) = .next (t.supply bs)

/-! ## Transfer and status -/

/-- R220. -/
def Obligations.NopOnlyEnds : Prop :=
  encode .nop = [0x00, 0, 0, 0] ∧
  ∀ s : State, ∃ t, exec .nop s = .next t ∧ OnlyEnded .ok .nop s t

/-- R221: `LDI` loads its immediate, taken into the field, in either mode; a register index of 32 or more is `BadOperand`. -/
def Obligations.LdiLoadsImmediate : Prop :=
  ∀ (vd : Byte) (imm : Half) (s : State),
    encode (.ldi vd imm) = [0x01, vd, BitVec.ofNat 8 imm.toNat, BitVec.ofNat 8 (imm.toNat / 256)] ∧
    (vd.toNat < 32 → ∃ t, exec (.ldi vd imm) s = .next t ∧ Ended .ok (.ldi vd imm) 0 [] s t ∧
      VrBecomes s t vd.toNat [imm.toNat % s.cfg.p] ∧ SpongeKept s t ∧ ParamsKept s t ∧ t.pat = s.pat ∧
      t.pcnt = s.pcnt) ∧
    (32 ≤ vd.toNat → ∃ t, exec (.ldi vd imm) s = .next t ∧ OnlyEnded .badOperand (.ldi vd imm) s t)

/-- R222: `LDE` loads the element its payload encodes; a payload whose value is not below `P` is `NonCanonicalElement` and
writes nothing; a register index of 32 or more is `BadOperand`, whatever the payload. -/
def Obligations.LdeLoadsElement : Prop :=
  ∀ (vd : Byte) (payload : List Byte) (s : State),
    encode (.lde vd payload) = [0x02, vd, 0, 0] ++ payload ∧
    (vd.toNat < 32 → leNat payload < s.cfg.p → ∃ t, exec (.lde vd payload) s = .next t ∧
      Ended .ok (.lde vd payload) 0 [] s t ∧ VrBecomes s t vd.toNat [leNat payload] ∧ SpongeKept s t ∧
      ParamsKept s t ∧ t.pat = s.pat ∧ t.pcnt = s.pcnt) ∧
    (vd.toNat < 32 → s.cfg.p ≤ leNat payload → ∃ t, exec (.lde vd payload) s = .next t ∧
      OnlyEnded .nonCanonicalElement (.lde vd payload) s t) ∧
    (32 ≤ vd.toNat → ∃ t, exec (.lde vd payload) s = .next t ∧ OnlyEnded .badOperand (.lde vd payload) s t)

/-- R223: `STE` answers the 32-byte encoding of the register, and an `LDE` of that payload ends `OK` and loads
the same element again. -/
def Obligations.SteReturnsElement : Prop :=
  ∀ (vs : Byte) (s : State),
    encode (.ste vs) = [0x03, vs, 0, 0] ∧
    (∀ h : vs.toNat < 32, ∃ t, exec (.ste vs) s = .next t ∧ Ended .ok (.ste vs) 0 (enc32 s.vr[vs.toNat]) s t ∧
      (enc32 s.vr[vs.toNat]).length = 32 ∧
      SpongeKept s t ∧ ParamsKept s t ∧ t.vr = s.vr ∧ t.pat = s.pat ∧ t.pcnt = s.pcnt ∧
      (s.vr[vs.toNat] < s.cfg.p → ∀ vd : Byte, vd.toNat < 32 →
        ∃ u, exec (.lde vd (enc32 s.vr[vs.toNat])) t = .next u ∧
          Ended .ok (.lde vd (enc32 s.vr[vs.toNat])) 0 [] t u ∧ VrBecomes t u vd.toNat [s.vr[vs.toNat]])) ∧
    (32 ≤ vs.toNat → ∃ t, exec (.ste vs) s = .next t ∧ OnlyEnded .badOperand (.ste vs) s t)

/-- R224: `LDST` loads `ST` from five consecutive registers. -/
def Obligations.LdstLoadsState : Prop :=
  ∀ (vs : Byte) (s : State),
    encode (.ldst vs) = [0x06, vs, 0, 0] ∧
    (s.mode = .active → ∃ t, exec (.ldst vs) s = .next t ∧ OnlyEnded .badState (.ldst vs) s t) ∧
    (s.mode = .idle → 27 < vs.toNat → ∃ t, exec (.ldst vs) s = .next t ∧ OnlyEnded .badOperand (.ldst vs) s t) ∧
    (s.mode = .idle → ∀ h : vs.toNat ≤ 27, ∃ t, exec (.ldst vs) s = .next t ∧ Ended .ok (.ldst vs) 0 [] s t ∧
      (∀ k : Fin 5, t.st[k] = s.vr[vs.toNat + k.val]) ∧ SpongeKept s { t with st := s.st } ∧ ParamsKept s t ∧
      t.vr = s.vr ∧ t.pat = s.pat ∧ t.pcnt = s.pcnt)

/-- R225: `STST` stores `ST` to five consecutive registers. -/
def Obligations.StstStoresState : Prop :=
  ∀ (vd : Byte) (s : State),
    encode (.stst vd) = [0x07, vd, 0, 0] ∧
    (s.mode = .active → ∃ t, exec (.stst vd) s = .next t ∧ OnlyEnded .badState (.stst vd) s t) ∧
    (s.mode = .idle → 27 < vd.toNat → ∃ t, exec (.stst vd) s = .next t ∧ OnlyEnded .badOperand (.stst vd) s t) ∧
    (s.mode = .idle → vd.toNat ≤ 27 → ∃ t, exec (.stst vd) s = .next t ∧ Ended .ok (.stst vd) 0 [] s t ∧
      VrBecomes s t vd.toNat [s.st[0], s.st[1], s.st[2], s.st[3], s.st[4]] ∧ SpongeKept s t ∧ ParamsKept s t ∧
      t.pat = s.pat ∧ t.pcnt = s.pcnt)

/-- R226 and R32: `RDSR` answers the value of the register before the command, four bytes, least significant first; a
number above 13 is `BadOperand`. -/
def Obligations.RdsrReadsRegister : Prop :=
  ∀ (csr : Byte) (s : State),
    (csr.toNat ≤ 13 → ∃ t v, exec (.rdsr csr) s = .next t ∧ Ended .ok (.rdsr csr) 0 (leBytes 4 v) s t ∧
      [0x013C0805, 0x00201020 + s.cfg.mcap * 2 ^ 24, if s.mode = .idle then 0 else 1, domainIndex s.dom,
        s.pat.length % 2 ^ 32, s.apat.length % 2 ^ 32, s.ioc % 2 ^ 32, s.apos.val, s.spos.val, s.out.length % 2 ^ 32,
        s.esticky.toNat, s.lastcode.toNat, s.pcnt.toNat, s.cp % 2 ^ 32][csr.toNat]? = some v ∧
      SpongeKept s t ∧ ParamsKept s t ∧ t.vr = s.vr ∧ t.pat = s.pat ∧ t.pcnt = s.pcnt) ∧
    (13 < csr.toNat → ∃ t, exec (.rdsr csr) s = .next t ∧ OnlyEnded .badOperand (.rdsr csr) s t)

/-- R227: `CLRERR` clears `ESTICKY` and touches nothing else but what the epilogue writes. -/
def Obligations.ClrerrClearsSticky : Prop :=
  encode .clrerr = [0x41, 0, 0, 0] ∧
  ∀ s : State, ∃ t, exec .clrerr s = .next t ∧ Responded .ok .clrerr 0 [] s t ∧ t.esticky = 0 ∧ SpongeKept s t ∧
    ParamsKept s t ∧ t.vr = s.vr ∧ t.pat = s.pat ∧ t.pcnt = s.pcnt

/-! ## The permutation command -/

/-- R128: `PERM` permutes `ST` and counts one permutation; a sponge that is active refuses it. -/
def Obligations.PermPermutesState : Prop :=
  ∀ s : State,
    encode .perm = [0x10, 0, 0, 0] ∧
    (s.mode = .active → ∃ t, exec .perm s = .next t ∧ OnlyEnded .badState .perm s t) ∧
    (s.mode = .idle → ∃ t, exec .perm s = .next t ∧ Ended .ok .perm 0 [] s t ∧ t.st = permutation s.cfg s.st ∧
      t.pcnt = s.pcnt + 1 ∧ SpongeKept s { t with st := s.st } ∧ ParamsKept s t ∧ t.vr = s.vr ∧ t.pat = s.pat)

/-! ## The sponge -/

/-- R159 to R161: `PCLR` empties the staged pattern; `PABS n` and `PSQZ n` append one step, or end with `BadState` when 16
are staged. The active sponge is not affected. -/
def Obligations.StagingEditsPattern : Prop :=
  encode .pclr = [0x20, 0, 0, 0] ∧
  (∀ n : Byte, encode (.pabs n) = [0x21, 0, n, 0] ∧ encode (.psqz n) = [0x22, 0, n, 0]) ∧
  (∀ s : State, ∃ t, exec .pclr s = .next t ∧ Ended .ok .pclr 0 [] s t ∧ t.pat = [] ∧ SpongeKept s t ∧
    ParamsKept s t ∧ t.vr = s.vr ∧ t.pcnt = s.pcnt) ∧
  (∀ (n : Byte) (s : State), s.pat.length ≠ 16 →
    (∃ t, exec (.pabs n) s = .next t ∧ Ended .ok (.pabs n) 0 [] s t ∧ t.pat = s.pat ++ [.absorb n.toNat] ∧
      SpongeKept s t ∧ ParamsKept s t ∧ t.vr = s.vr ∧ t.pcnt = s.pcnt) ∧
    (∃ t, exec (.psqz n) s = .next t ∧ Ended .ok (.psqz n) 0 [] s t ∧ t.pat = s.pat ++ [.squeeze n.toNat] ∧
      SpongeKept s t ∧ ParamsKept s t ∧ t.vr = s.vr ∧ t.pcnt = s.pcnt)) ∧
  (∀ (n : Byte) (s : State), s.pat.length = 16 →
    (∃ t, exec (.pabs n) s = .next t ∧ OnlyEnded .badState (.pabs n) s t) ∧
    (∃ t, exec (.psqz n) s = .next t ∧ OnlyEnded .badState (.psqz n) s t))

/-- R153: which patterns are valid for which domain, condition by condition. -/
def Obligations.PatternValidity : Prop :=
  ∀ (pat : List PatStep) (d : Domain), patternValid pat d = true ↔
    (pat ≠ [] ∧ (∀ t ∈ pat, 1 ≤ stepLen t) ∧ (∃ n, pat.head? = some (.absorb n)) ∧
      (∃ n, pat.getLast? = some (.squeeze n)) ∧
      (d = .merkle2 → (pat.map fun t => if isAbsorb t then stepLen t else 0).sum = 2 ∧
        (pat.map fun t => if isAbsorb t then 0 else stepLen t).sum = 1) ∧
      (d = .merkle4 → (pat.map fun t => if isAbsorb t then stepLen t else 0).sum = 4 ∧
        (pat.map fun t => if isAbsorb t then 0 else stepLen t).sum = 1))

/-- R162 and R154: a `START` of a valid pattern whose squeeze total is at most 32 creates the sponge; no permutation
runs. -/
def Obligations.StartCreatesSponge : Prop :=
  ∀ (d : Byte) (dom : Domain) (s : State), s.mode = .idle → domainIndex dom = d.toNat →
    patternValid s.pat dom = true → squeezeTotal s.pat ≤ 32 →
    ∃ t, exec (.start d) s = .next t ∧ Ended .ok (.start d) 0 [] s t ∧ t.mode = .active ∧ t.apat = s.pat ∧
      t.dom = dom ∧ t.st = #v[tagOf s.cfg s.pat (domTag s.cfg dom), 0, 0, 0, 0] ∧ t.ioc = 0 ∧ t.apos = 0 ∧
      t.spos = 4 ∧ t.out = [] ∧ t.pat = s.pat ∧ t.pcnt = s.pcnt ∧ t.vr = s.vr ∧ ParamsKept s t

/-- R162: the checks of `START`, in order; on every error nothing changes and no sponge exists. -/
def Obligations.StartChecksInOrder : Prop :=
  ∀ (d : Byte) (s : State),
    (s.mode = .active → ∃ t, exec (.start d) s = .next t ∧ OnlyEnded .badState (.start d) s t) ∧
    (s.mode = .idle → 3 < d.toNat → ∃ t, exec (.start d) s = .next t ∧ OnlyEnded .badOperand (.start d) s t) ∧
    (∀ dom, s.mode = .idle → domainIndex dom = d.toNat → patternValid s.pat dom = false →
      ∃ t, exec (.start d) s = .next t ∧ OnlyEnded .invalidIOPattern (.start d) s t) ∧
    (∀ dom, s.mode = .idle → domainIndex dom = d.toNat → patternValid s.pat dom = true →
      32 < squeezeTotal s.pat →
      ∃ t, exec (.start d) s = .next t ∧ OnlyEnded .badOperand (.start d) s t)

/-- R163: `ABSORB vs, n, m` consumes the next step when it is `Absorb(n)`: the first `n` of the `m` registers are absorbed
and the surplus is ignored; `floor((APOS + n) / 4)` permutations run. -/
def Obligations.AbsorbConsumesStep : Prop :=
  ∀ (vs n m : Byte) (s : State), s.mode = .active → vs.toNat < 32 → vs.toNat + m.toNat ≤ 32 →
    n.toNat ≤ m.toNat → s.apat[s.ioc]? = some (.absorb n.toNat) →
    ∃ t, exec (.absorb vs n m) s = .next t ∧ Ended .ok (.absorb vs n m) 0 [] s t ∧
      t.st = (absorbCore ((List.range n.toNat).map fun k => s.vr[vs.toNat + k]?.getD 0) s).st ∧
      t.apos.val = (s.apos.val + n.toNat) % 4 ∧
      t.spos.val = (if (s.apos.val + n.toNat) % 4 = 0 then 0 else 4) ∧ t.ioc = s.ioc + 1 ∧
      t.pcnt = s.pcnt + BitVec.ofNat 32 ((s.apos.val + n.toNat) / 4) ∧
      t.apat = s.apat ∧ t.mode = .active ∧ t.dom = s.dom ∧ t.out = s.out ∧ t.vr = s.vr ∧ t.pat = s.pat ∧
      ParamsKept s t

/-- R163: the checks of `ABSORB`, in order; the mode and operand errors leave the sponge alive and unchanged, the two
errors of the source kill it. -/
def Obligations.AbsorbChecksInOrder : Prop :=
  ∀ (vs n m : Byte) (s : State),
    (s.mode = .idle → ∃ t, exec (.absorb vs n m) s = .next t ∧ OnlyEnded .badState (.absorb vs n m) s t) ∧
    (s.mode = .active → (32 ≤ vs.toNat ∨ 32 < vs.toNat + m.toNat) →
      ∃ t, exec (.absorb vs n m) s = .next t ∧ OnlyEnded .badOperand (.absorb vs n m) s t) ∧
    (s.mode = .active → vs.toNat < 32 → vs.toNat + m.toNat ≤ 32 → m.toNat < n.toNat →
      ∃ t, exec (.absorb vs n m) s = .next t ∧ KilledWith .tooFewInputElements (.absorb vs n m) s t) ∧
    (s.mode = .active → vs.toNat < 32 → vs.toNat + m.toNat ≤ 32 → n.toNat ≤ m.toNat →
      s.apat[s.ioc]? ≠ some (.absorb n.toNat) →
      ∃ t, exec (.absorb vs n m) s = .next t ∧ KilledWith .ioPatternViolation (.absorb vs n m) s t)

/-- R156 and R168: absorbing elements that do not fill the chunk adds them into `ST[1 + APOS ..]` and nothing else, `ST[0]`
among it; elements that fill it exactly are added and then one permutation runs; and absorbing a longer sequence is
absorbing its parts in order. Together these fix the state after any absorption. -/
def Obligations.AbsorbCoreByChunks : Prop :=
  (∀ (s : State) (e : List Nat), s.apos.val + e.length < 4 →
    ∀ k : Fin 5, (absorbCore e s).st[k] =
      if s.apos.val < k.val ∧ k.val ≤ s.apos.val + e.length then (s.st[k] + e.getD (k.val - 1 - s.apos.val) 0) % s.cfg.p
      else s.st[k]) ∧
  (∀ (s : State) (e : List Nat), s.apos.val + e.length = 4 →
    (absorbCore e s).st = permutation s.cfg (Vector.ofFn fun k : Fin 5 =>
      if s.apos.val < k.val then (s.st[k] + e.getD (k.val - 1 - s.apos.val) 0) % s.cfg.p else s.st[k])) ∧
  (∀ (s : State) (e f : List Nat),
    absorbCore (e ++ f) s = { absorbCore f (absorbCore e s) with ioc := s.ioc + 1 })

/-- R164: `SQUEEZE n` consumes the next step when it is `Squeeze(n)`: `n` elements are appended to the accumulator and
`floor((SPOS + n - 1) / 4)` permutations run. -/
def Obligations.SqueezeConsumesStep : Prop :=
  ∀ (n : Byte) (s : State), s.mode = .active → 1 ≤ n.toNat → s.apat[s.ioc]? = some (.squeeze n.toNat) →
    ∃ t, exec (.squeeze n) s = .next t ∧ Ended .ok (.squeeze n) 0 [] s t ∧
      t.out = (squeezeCore n.toNat s).out ∧ t.st = (squeezeCore n.toNat s).st ∧
      t.out.length = s.out.length + n.toNat ∧ s.out <+: t.out ∧
      t.spos.val = (s.spos.val + n.toNat - 1) % 4 + 1 ∧
      t.apos = (if s.spos.val + n.toNat ≤ 4 then s.apos else 0) ∧ t.ioc = s.ioc + 1 ∧
      t.pcnt = s.pcnt + BitVec.ofNat 32 ((s.spos.val + n.toNat - 1) / 4) ∧
      t.apat = s.apat ∧ t.mode = .active ∧ t.dom = s.dom ∧ t.vr = s.vr ∧ t.pat = s.pat ∧ ParamsKept s t

/-- R164: the checks of `SQUEEZE`, in order: an out-of-pattern call kills the sponge. A length of 0 is one. -/
def Obligations.SqueezeChecksInOrder : Prop :=
  ∀ (n : Byte) (s : State),
    (s.mode = .idle → ∃ t, exec (.squeeze n) s = .next t ∧ OnlyEnded .badState (.squeeze n) s t) ∧
    (s.mode = .active → s.apat[s.ioc]? ≠ some (.squeeze n.toNat) →
      ∃ t, exec (.squeeze n) s = .next t ∧ KilledWith .ioPatternViolation (.squeeze n) s t)

/-- R157: a squeeze that the current state still has elements for reads `ST[1 + SPOS ..]` and runs no permutation; one at
`SPOS = 4` of at most four elements permutes once and reads `ST[1 ..]` of the new state, so `ST[0]` is never read out; and
a longer squeeze is its parts in order. Together these fix the output of any squeeze. -/
def Obligations.SqueezeCoreByChunks : Prop :=
  (∀ (s : State) (n : Nat), s.spos.val + n ≤ 4 →
    (squeezeCore n s).out = s.out ++ (s.st.toList.drop (1 + s.spos.val)).take n ∧ (squeezeCore n s).st = s.st) ∧
  (∀ (s : State) (n : Nat), s.spos.val = 4 → 1 ≤ n → n ≤ 4 →
    (squeezeCore n s).st = permutation s.cfg s.st ∧
    (squeezeCore n s).out = s.out ++ ((permutation s.cfg s.st).toList.drop 1).take n) ∧
  (∀ (s : State) (n m : Nat),
    squeezeCore (n + m) s = { squeezeCore m (squeezeCore n s) with ioc := s.ioc + 1 })

/-- R165: `FINISH vd` delivers the accumulated output, answers its length and ends the sponge; no permutation runs. -/
def Obligations.FinishDeliversOutput : Prop :=
  ∀ (vd : Byte) (s : State), s.mode = .active → vd.toNat < 32 → s.ioc = s.apat.length →
    vd.toNat + s.out.length ≤ 32 →
    ∃ t, exec (.finish vd) s = .next t ∧ Ended .ok (.finish vd) (BitVec.ofNat 8 s.out.length) [] s t ∧
      VrBecomes s t vd.toNat s.out ∧ SpongeCleared t ∧ ParamsKept s t ∧ t.pat = s.pat ∧ t.pcnt = s.pcnt

/-- R165: the checks of `FINISH`, in order: unconsumed steps kill the sponge and deliver nothing; a destination out of
range leaves it alive and unchanged. -/
def Obligations.FinishChecksInOrder : Prop :=
  ∀ (vd : Byte) (s : State),
    (s.mode = .idle → ∃ t, exec (.finish vd) s = .next t ∧ OnlyEnded .badState (.finish vd) s t) ∧
    (s.mode = .active → 32 ≤ vd.toNat →
      ∃ t, exec (.finish vd) s = .next t ∧ OnlyEnded .badOperand (.finish vd) s t) ∧
    (s.mode = .active → vd.toNat < 32 → s.ioc ≠ s.apat.length →
      ∃ t, exec (.finish vd) s = .next t ∧ KilledWith .ioPatternViolation (.finish vd) s t) ∧
    (s.mode = .active → vd.toNat < 32 → s.ioc = s.apat.length → 32 < vd.toNat + s.out.length →
      ∃ t, exec (.finish vd) s = .next t ∧ OnlyEnded .badOperand (.finish vd) s t)

/-- R166 and R158: `ABORT` zeroises the sponge context in either mode. -/
def Obligations.AbortClearsSponge : Prop :=
  ∀ s : State, ∃ t, exec .abort s = .next t ∧ Ended .ok .abort 0 [] s t ∧ SpongeCleared t ∧ ParamsKept s t ∧
    t.vr = s.vr ∧ t.pat = s.pat ∧ t.pcnt = s.pcnt

/-! ## The hashes -/

/-- R180: padding appends a one and then zeros up to a multiple of four strictly greater than the message's length, and no
two messages have the same padded sequence. -/
def Obligations.PaddingIsUnambiguous : Prop :=
  (∀ m : List Nat, (pad m).length = 4 * (m.length / 4 + 1) ∧ m <+: pad m ∧ (pad m)[m.length]? = some 1 ∧
    (∀ k, m.length < k → k < (pad m).length → (pad m)[k]? = some 0)) ∧
  (∀ m m' : List Nat, pad m = pad m' → m = m')

/-- R181: `HASH` writes the chunk-wise hash of the padded message, from the tag of the pattern `[Absorb(Lp), Squeeze(1)]` in
the domain `OTHER`, counts `floor(n / 4) + 1` permutations, and leaves the sponge context zeroised; with its checks. -/
def Obligations.HashIsChunkwiseSponge : Prop :=
  ∀ (vs n vd : Byte) (s : State),
    encode (.hash vs n vd) = [0x28, vs, n, vd] ∧
    (s.mode = .active → ∃ t, exec (.hash vs n vd) s = .next t ∧ OnlyEnded .badState (.hash vs n vd) s t) ∧
    (s.mode = .idle → (32 ≤ vs.toNat ∨ 32 ≤ vd.toNat ∨ 32 < vs.toNat + n.toNat) →
      ∃ t, exec (.hash vs n vd) s = .next t ∧ OnlyEnded .badOperand (.hash vs n vd) s t) ∧
    (s.mode = .idle → vs.toNat < 32 → vd.toNat < 32 → vs.toNat + n.toNat ≤ 32 →
      ∃ t, exec (.hash vs n vd) s = .next t ∧ Ended .ok (.hash vs n vd) 0 [] s t ∧
        VrBecomes s t vd.toNat [chunkedHash s.cfg
          (tagOf s.cfg [.absorb (4 * (n.toNat / 4 + 1)), .squeeze 1] (domTag s.cfg .other))
          ((List.range n.toNat).map fun k => s.vr[vs.toNat + k]?.getD 0)] ∧
        t.pcnt = s.pcnt + BitVec.ofNat 32 (n.toNat / 4 + 1) ∧ SpongeCleared t ∧ ParamsKept s t ∧ t.pat = s.pat)

/-- R182: `MHASH2` of two elements permutes once from the state that holds the tag and the two elements; any other count is
`IOPatternViolation` before any permutation. -/
def Obligations.Mhash2HashesPair : Prop :=
  ∀ (vs m vd : Byte) (s : State),
    encode (.mhash2 vs m vd) = [0x29, vs, m, vd] ∧
    (s.mode = .active → ∃ t, exec (.mhash2 vs m vd) s = .next t ∧ OnlyEnded .badState (.mhash2 vs m vd) s t) ∧
    (s.mode = .idle → (32 ≤ vs.toNat ∨ 32 ≤ vd.toNat ∨ 32 < vs.toNat + m.toNat) →
      ∃ t, exec (.mhash2 vs m vd) s = .next t ∧ OnlyEnded .badOperand (.mhash2 vs m vd) s t) ∧
    (s.mode = .idle → vs.toNat < 32 → vd.toNat < 32 → vs.toNat + m.toNat ≤ 32 → m.toNat ≠ 2 →
      ∃ t, exec (.mhash2 vs m vd) s = .next t ∧ OnlyEnded .ioPatternViolation (.mhash2 vs m vd) s t) ∧
    (∀ h : vs.toNat + 2 ≤ 32, s.mode = .idle → vd.toNat < 32 → m.toNat = 2 →
      ∃ t, exec (.mhash2 vs m vd) s = .next t ∧ Ended .ok (.mhash2 vs m vd) 0 [] s t ∧
        VrBecomes s t vd.toNat [(permutation s.cfg #v[
          tagOf s.cfg [.absorb 2, .squeeze 1] (domTag s.cfg .merkle2),
          s.vr[vs.toNat] % s.cfg.p, s.vr[vs.toNat + 1] % s.cfg.p, 0, 0])[1]] ∧
        t.pcnt = s.pcnt + 1 ∧ SpongeCleared t ∧ ParamsKept s t ∧ t.pat = s.pat)

/-- R183: `MHASH4` of four elements permutes once from the state that holds the tag and the four elements; any other count
is `IOPatternViolation` before any permutation. -/
def Obligations.Mhash4HashesQuadruple : Prop :=
  ∀ (vs m vd : Byte) (s : State),
    encode (.mhash4 vs m vd) = [0x2A, vs, m, vd] ∧
    (s.mode = .active → ∃ t, exec (.mhash4 vs m vd) s = .next t ∧ OnlyEnded .badState (.mhash4 vs m vd) s t) ∧
    (s.mode = .idle → (32 ≤ vs.toNat ∨ 32 ≤ vd.toNat ∨ 32 < vs.toNat + m.toNat) →
      ∃ t, exec (.mhash4 vs m vd) s = .next t ∧ OnlyEnded .badOperand (.mhash4 vs m vd) s t) ∧
    (s.mode = .idle → vs.toNat < 32 → vd.toNat < 32 → vs.toNat + m.toNat ≤ 32 → m.toNat ≠ 4 →
      ∃ t, exec (.mhash4 vs m vd) s = .next t ∧ OnlyEnded .ioPatternViolation (.mhash4 vs m vd) s t) ∧
    (∀ h : vs.toNat + 4 ≤ 32, s.mode = .idle → vd.toNat < 32 → m.toNat = 4 →
      ∃ t, exec (.mhash4 vs m vd) s = .next t ∧ Ended .ok (.mhash4 vs m vd) 0 [] s t ∧
        VrBecomes s t vd.toNat [(permutation s.cfg #v[
          tagOf s.cfg [.absorb 4, .squeeze 1] (domTag s.cfg .merkle4),
          s.vr[vs.toNat] % s.cfg.p, s.vr[vs.toNat + 1] % s.cfg.p,
          s.vr[vs.toNat + 2] % s.cfg.p, s.vr[vs.toNat + 3] % s.cfg.p])[1]] ∧
        t.pcnt = s.pcnt + 1 ∧ SpongeCleared t ∧ ParamsKept s t ∧ t.pat = s.pat)

/-- R184: a Merkle hash command computes what the sequence of protocol commands computes, and so does `HASH` when the
padded message stands in the register file; they differ in the staged pattern. -/
def Obligations.HashCommandsEqualProtocol : Prop :=
  (∀ (vs vd : Byte) (s : State), s.mode = .idle → vs.toNat + 2 ≤ 32 → vd.toNat < 32 →
    ∃ t u, execAll [.pclr, .pabs 2, .psqz 1, .start 0, .absorb vs 2 2, .squeeze 1, .finish vd] s = some t ∧
      exec (.mhash2 vs 2 vd) s = .next u ∧ u.vr = t.vr ∧ u.pcnt = t.pcnt ∧ SpongeKept t u ∧
      u.pat = s.pat ∧ t.pat = [.absorb 2, .squeeze 1]) ∧
  (∀ (vs vd : Byte) (s : State), s.mode = .idle → vs.toNat + 4 ≤ 32 → vd.toNat < 32 →
    ∃ t u, execAll [.pclr, .pabs 4, .psqz 1, .start 1, .absorb vs 4 4, .squeeze 1, .finish vd] s = some t ∧
      exec (.mhash4 vs 4 vd) s = .next u ∧ u.vr = t.vr ∧ u.pcnt = t.pcnt ∧ SpongeKept t u ∧
      u.pat = s.pat ∧ t.pat = [.absorb 4, .squeeze 1]) ∧
  (∀ (vs vb n lp vd : Byte) (s : State), s.mode = .idle → vs.toNat < 32 → vs.toNat + n.toNat ≤ 32 →
    lp.toNat = 4 * (n.toNat / 4 + 1) → vb.toNat + lp.toNat ≤ 32 → vd.toNat < 32 →
    s.vrRange vb.toNat lp.toNat = pad (s.vrRange vs.toNat n.toNat) →
    ∃ t u, execAll [.pclr, .pabs lp, .psqz 1, .start 3, .absorb vb lp lp, .squeeze 1, .finish vd] s = some t ∧
      exec (.hash vs n vd) s = .next u ∧ u.vr = t.vr ∧ u.pcnt = t.pcnt ∧ SpongeKept t u ∧ u.pat = s.pat)

/-- R185: `TRUNC` keeps the low `TRUNC_BITS` bits of the canonical integer and reduces modulo `Q`, in either mode; no
permutation runs. -/
def Obligations.TruncMasksAndReduces : Prop :=
  ∀ (vs vd : Byte) (s : State),
    encode (.trunc vs vd) = [0x08, vs, 0, vd] ∧
    (∀ h : vs.toNat < 32, vd.toNat < 32 → ∃ t, exec (.trunc vs vd) s = .next t ∧
      Ended .ok (.trunc vs vd) 0 [] s t ∧
      VrBecomes s t vd.toNat [s.vr[vs.toNat] % 2 ^ s.cfg.truncBits % s.cfg.q] ∧
      (∀ k : Fin 32, k.val = vd.toNat → t.vr[k] < s.cfg.q ∧ t.vr[k] < s.cfg.p) ∧
      SpongeKept s t ∧ ParamsKept s t ∧ t.pat = s.pat ∧ t.pcnt = s.pcnt) ∧
    ((32 ≤ vs.toNat ∨ 32 ≤ vd.toNat) →
      ∃ t, exec (.trunc vs vd) s = .next t ∧ OnlyEnded .badOperand (.trunc vs vd) s t)

/-! ## The cipher -/

/-- R201, R202, R204: `ENC` seeds the state with the two constants, the secret and the nonce, permutes, adds the message
(at most `MCAP` elements, zero-extended) into `ST[1 ..]` and records the sums, permutes again and records `ST[1]`; the state
is zeroised and `PCNT` grows by 2; with its checks. -/
def Obligations.EncProducesCipherValue : Prop :=
  ∀ (vs mlen vd : Byte) (s : State),
    encode (.enc vs mlen vd) = [0x30, vs, mlen, vd] ∧
    (s.mode = .active → ∃ t, exec (.enc vs mlen vd) s = .next t ∧ OnlyEnded .badState (.enc vs mlen vd) s t) ∧
    (s.mode = .idle → (32 ≤ vs.toNat ∨ 32 < vs.toNat + 3 + min mlen.toNat s.cfg.mcap ∨ 32 ≤ vd.toNat ∨
        32 < vd.toNat + s.cfg.mcap + 1) →
      ∃ t, exec (.enc vs mlen vd) s = .next t ∧ OnlyEnded .badOperand (.enc vs mlen vd) s t) ∧
    (s.mode = .idle → vs.toNat + 3 + min mlen.toNat s.cfg.mcap ≤ 32 → vd.toNat + s.cfg.mcap + 1 ≤ 32 →
      ∃ t a b, exec (.enc vs mlen vd) s = .next t ∧ Ended .ok (.enc vs mlen vd) 0 [] s t ∧
        a = permutation s.cfg #v[s.cfg.cipherDomain, s.cfg.cipherCapacity, s.vr[vs.toNat]?.getD 0,
          s.vr[vs.toNat + 1]?.getD 0, s.vr[vs.toNat + 2]?.getD 0] ∧
        (∀ k : Fin 5, b[k] = if 1 ≤ k.val ∧ k.val ≤ s.cfg.mcap then
          (a[k] + if k.val ≤ mlen.toNat then s.vr[vs.toNat + 2 + k.val]?.getD 0 else 0) % s.cfg.p else a[k]) ∧
        VrBecomes s t vd.toNat ((b.toList.drop 1).take s.cfg.mcap ++ [(permutation s.cfg b)[1]]) ∧
        t.pcnt = s.pcnt + 2 ∧ SpongeCleared t ∧ ParamsKept s t ∧ t.pat = s.pat)

/-- R203, R205: `DEC` runs the same first permutation, subtracts the state from the cipher value and puts the cipher value
into the state, permutes again and compares `ST[1]` with the authentication element: equal delivers the message, unequal is
`DecryptionFailed` with no register written; both permutations run and the state is zeroised either way; with its checks. -/
def Obligations.DecRecoversOrFails : Prop :=
  ∀ (vs vd : Byte) (s : State),
    encode (.dec vs vd) = [0x31, vs, 0, vd] ∧
    (s.mode = .active → ∃ t, exec (.dec vs vd) s = .next t ∧ OnlyEnded .badState (.dec vs vd) s t) ∧
    (s.mode = .idle → (32 ≤ vs.toNat ∨ 32 < vs.toNat + 3 + s.cfg.mcap + 1 ∨ 32 ≤ vd.toNat ∨
        32 < vd.toNat + s.cfg.mcap) →
      ∃ t, exec (.dec vs vd) s = .next t ∧ OnlyEnded .badOperand (.dec vs vd) s t) ∧
    (s.mode = .idle → vs.toNat + 3 + s.cfg.mcap + 1 ≤ 32 → vd.toNat < 32 → vd.toNat + s.cfg.mcap ≤ 32 →
      ∃ t a b, exec (.dec vs vd) s = .next t ∧
        a = permutation s.cfg #v[s.cfg.cipherDomain, s.cfg.cipherCapacity, s.vr[vs.toNat]?.getD 0,
          s.vr[vs.toNat + 1]?.getD 0, s.vr[vs.toNat + 2]?.getD 0] ∧
        (∀ k : Fin 5, b[k] = if 1 ≤ k.val ∧ k.val ≤ s.cfg.mcap then s.vr[vs.toNat + 2 + k.val]?.getD 0 else a[k]) ∧
        ((permutation s.cfg b)[1] = s.vr[vs.toNat + 3 + s.cfg.mcap]?.getD 0 →
          Ended .ok (.dec vs vd) 0 [] s t ∧
          VrBecomes s t vd.toNat ((List.range s.cfg.mcap).map fun i =>
            fsub s.cfg.p (s.vr[vs.toNat + 3 + i]?.getD 0) (a[i + 1]?.getD 0))) ∧
        ((permutation s.cfg b)[1] ≠ s.vr[vs.toNat + 3 + s.cfg.mcap]?.getD 0 →
          Ended .decryptionFailed (.dec vs vd) 0 [] s t ∧ t.vr = s.vr) ∧
        t.pcnt = s.pcnt + 2 ∧ SpongeCleared t ∧ ParamsKept s t ∧ t.pat = s.pat)

/-- R205: decrypting what `ENC` produced, under the same secret and nonce and in any later state, delivers the message,
zero-extended to `MCAP` elements; and with only the authentication element changed it always fails. -/
def Obligations.CipherRoundTrip : Prop :=
  ∀ (vs mlen vd vs' vd' : Byte) (s t s' : State), Inv s → s.mode = .idle →
    vs.toNat + 3 + min mlen.toNat s.cfg.mcap ≤ 32 → vd.toNat + s.cfg.mcap + 1 ≤ 32 →
    exec (.enc vs mlen vd) s = .next t →
    s'.mode = .idle → s'.cfg = s.cfg → vs'.toNat + 3 + s.cfg.mcap + 1 ≤ 32 → vd'.toNat < 32 →
    vd'.toNat + s.cfg.mcap ≤ 32 →
    s'.vrRange vs'.toNat 3 = s.vrRange vs.toNat 3 →
    s'.vrRange (vs'.toNat + 3) s.cfg.mcap = t.vrRange vd.toNat s.cfg.mcap →
    (s'.vrAt (vs'.toNat + 3 + s.cfg.mcap) = t.vrAt (vd.toNat + s.cfg.mcap) →
      ∃ u, exec (.dec vs' vd') s' = .next u ∧ Ended .ok (.dec vs' vd') 0 [] s' u ∧
        VrBecomes s' u vd'.toNat ((List.range s.cfg.mcap).map fun i =>
          if i < mlen.toNat then s.vrAt (vs.toNat + 3 + i) else 0)) ∧
    (s'.vrAt (vs'.toNat + 3 + s.cfg.mcap) ≠ t.vrAt (vd.toNat + s.cfg.mcap) →
      ∃ u, exec (.dec vs' vd') s' = .next u ∧ Ended .decryptionFailed (.dec vs' vd') 0 [] s' u ∧ u.vr = s'.vr)

/-- R206: `LDC` loads the `MCAP + 1` elements of its payload when every chunk is canonical; one chunk that is not makes it
`NonCanonicalElement`, and nothing is written, whichever chunk it is. -/
def Obligations.LdcLoadsAllOrNothing : Prop :=
  ∀ (vd : Byte) (payload : List Byte) (s : State),
    encode (.ldc vd payload) = [0x04, vd, 0, 0] ++ payload ∧
    (32 < vd.toNat + s.cfg.mcap + 1 →
      ∃ t, exec (.ldc vd payload) s = .next t ∧ OnlyEnded .badOperand (.ldc vd payload) s t) ∧
    (vd.toNat + s.cfg.mcap + 1 ≤ 32 →
      (∀ i, i ≤ s.cfg.mcap → leNat ((payload.drop (32 * i)).take 32) < s.cfg.p) →
      ∃ t, exec (.ldc vd payload) s = .next t ∧ Ended .ok (.ldc vd payload) 0 [] s t ∧
        VrBecomes s t vd.toNat ((List.range (s.cfg.mcap + 1)).map fun i =>
          leNat ((payload.drop (32 * i)).take 32)) ∧
        SpongeKept s t ∧ ParamsKept s t ∧ t.pat = s.pat ∧ t.pcnt = s.pcnt) ∧
    (vd.toNat + s.cfg.mcap + 1 ≤ 32 →
      (∃ i, i ≤ s.cfg.mcap ∧ s.cfg.p ≤ leNat ((payload.drop (32 * i)).take 32)) →
      ∃ t, exec (.ldc vd payload) s = .next t ∧ OnlyEnded .nonCanonicalElement (.ldc vd payload) s t)

/-- R207: `STC` answers the encodings of `MCAP + 1` registers in order, and an `LDC` of that payload ends `OK` and loads
the same elements again. -/
def Obligations.StcReturnsCipherValue : Prop :=
  ∀ (vs : Byte) (s : State),
    encode (.stc vs) = [0x05, vs, 0, 0] ∧
    (32 < vs.toNat + s.cfg.mcap + 1 → ∃ t, exec (.stc vs) s = .next t ∧ OnlyEnded .badOperand (.stc vs) s t) ∧
    (vs.toNat + s.cfg.mcap + 1 ≤ 32 →
      ∃ t payload, exec (.stc vs) s = .next t ∧ Ended .ok (.stc vs) 0 payload s t ∧
        payload.length = 32 * (s.cfg.mcap + 1) ∧
        (∀ i, i ≤ s.cfg.mcap → (payload.drop (32 * i)).take 32 = enc32 (s.vr[vs.toNat + i]?.getD 0)) ∧
        SpongeKept s t ∧ ParamsKept s t ∧ t.vr = s.vr ∧ t.pat = s.pat ∧ t.pcnt = s.pcnt ∧
        ((∀ k : Fin 32, s.vr[k] < s.cfg.p) → ∀ vd : Byte, vd.toNat + s.cfg.mcap + 1 ≤ 32 →
          ∃ u, exec (.ldc vd payload) t = .next u ∧ Ended .ok (.ldc vd payload) 0 [] t u ∧
            VrBecomes t u vd.toNat ((List.range (s.cfg.mcap + 1)).map fun i => s.vr[vs.toNat + i]?.getD 0)))

/-! ## Whole-machine rules -/

/-- R251: a command ends with one of the codes listed for it, and with no other. -/
def Obligations.CodesPerCommand : Prop :=
  ∀ (i : Instr) (s t : State), exec i s = .next t → ∃ c ∈ codesOf i, t.lastcode = BitVec.ofNat 8 (codeNum c)

/-- The writers of each piece of state (R20, R158): `VR`, `PAT`, `PCNT` and `MODE` change only under the commands that the
rules name, and `MODE` becomes `ACTIVE` only by `START`. -/
def Obligations.WritersOfState : Prop :=
  ∀ (i : Instr) (s t : State), exec i s = .next t →
    (t.vr ≠ s.vr → i.opcode.toNat ∈ [0x01, 0x02, 0x04, 0x07, 0x08, 0x26, 0x28, 0x29, 0x2A, 0x30, 0x31]) ∧
    (t.pat ≠ s.pat → i.opcode.toNat ∈ [0x20, 0x21, 0x22]) ∧
    (t.pcnt ≠ s.pcnt → i.opcode.toNat ∈ [0x10, 0x24, 0x25, 0x28, 0x29, 0x2A, 0x30, 0x31]) ∧
    (t.mode = .active → s.mode = .idle → i.opcode.toNat = 0x23) ∧
    (t.mode = .idle → s.mode = .active → i.opcode.toNat ∈ [0x24, 0x25, 0x26, 0x27] ∧ SpongeCleared t) ∧
    (t.st ≠ s.st → i.opcode.toNat ∈
      [0x06, 0x10, 0x23, 0x24, 0x25, 0x26, 0x27, 0x28, 0x29, 0x2A, 0x30, 0x31]) ∧
    (t.apat ≠ s.apat → i.opcode.toNat ∈ [0x23, 0x24, 0x25, 0x26, 0x27, 0x28, 0x29, 0x2A, 0x30, 0x31]) ∧
    (t.out ≠ s.out → i.opcode.toNat ∈ [0x23, 0x25, 0x24, 0x26, 0x27, 0x28, 0x29, 0x2A, 0x30, 0x31]) ∧
    ((∃ b, s.esticky.getLsbD b = true ∧ t.esticky.getLsbD b = false) → i.opcode.toNat = 0x41)

/-- R262 and R23: while a sponge is active nothing the host is told depends on the contents of `ST` or `OUT`. Two states
that differ in them only make steps with the same outcome; where both go on, the same responses, status and permutation
count; and as long as the sponge lives the two new states differ in `ST` and `OUT` only, again with the same length of
`OUT`. -/
def Obligations.ActiveStateIsHidden : Prop :=
  ∀ (s : State) (st : PermState) (out : List Nat), s.mode = .active → out.length = s.out.length →
    (∀ t, step s = .next t → ∃ u, step { s with st := st, out := out } = .next u ∧
      u.rsp = t.rsp ∧ u.cp = t.cp ∧ u.halt = t.halt ∧ u.mode = t.mode ∧ u.esticky = t.esticky ∧ u.pcnt = t.pcnt ∧
      (t.mode = .active → u.out.length = t.out.length ∧ u = { t with st := u.st, out := u.out })) ∧
    (∀ f, step s = .fault f → step { s with st := st, out := out } = .fault f)
end

