-- ==== Sys2Proof/Laws/Memory.lean ====
section
/-! SUPPORT. The command stream (spec/20_memory.md R60): reading after a write, and the canonical form, which every
operation keeps. -/

namespace Sys2Proof.Machine

/-! ### Cells -/

theorem cellAt_setCell {lo hi : Nat} {cells : List Host.Cell} (h : cellsWf lo hi cells = true) (a a' : Nat) (b : Byte) :
    cellAt (setCell cells a b) a' = if a' = a then b else cellAt cells a' := by
  induction cells generalizing lo with
  | nil =>
    by_cases hb : b = 0
    · simp [setCell, hb, cellAt]
    · by_cases ha : a' = a
      · simp [setCell, show ¬ b = 0#8 from hb, cellAt, ha]
      · simp [setCell, show ¬ b = 0#8 from hb, cellAt, ha, Ne.symm ha]
  | cons kv rest ih =>
    obtain ⟨k, v⟩ := kv
    simp only [cellsWf, Bool.and_eq_true, decide_eq_true_eq] at h
    obtain ⟨⟨⟨h1, h2⟩, h3⟩, h4⟩ := h
    have hlow : ∀ {lo : Nat} {cs : List Host.Cell} {x : Nat}, cellsWf lo hi cs = true → x < lo → cellAt cs x = 0 := by
      intro lo cs x hw hx
      induction cs generalizing lo with
      | nil => rfl
      | cons kv rest ih =>
        obtain ⟨k', v'⟩ := kv
        simp only [cellsWf, Bool.and_eq_true, decide_eq_true_eq] at hw
        simp only [cellAt, show ¬ k' = x by omega, if_false]
        exact ih hw.2 (by omega)
    by_cases hak : a < k
    · by_cases hb : b = 0
      · simp only [setCell, hak, if_true, hb]
        by_cases ha : a' = a
        · subst ha
          simp only [cellAt, if_true, show ¬ k = a' by omega, if_false]
          exact hlow h4 (by omega)
        · simp [ha]
      · simp only [setCell, hak, if_true, hb, if_false]
        by_cases ha : a' = a
        · subst ha; simp [cellAt]
        · simp [cellAt, ha, Ne.symm ha]
    · by_cases hek : a = k
      · subst hek
        by_cases hb : b = 0
        · simp only [setCell, Nat.lt_irrefl, if_false, if_true, hb]
          by_cases ha : a' = a
          · subst ha
            simp only [if_true]
            exact hlow h4 (by omega)
          · simp [cellAt, ha, Ne.symm ha]
        · simp only [setCell, Nat.lt_irrefl, if_false, if_true, hb]
          by_cases ha : a' = a
          · subst ha; simp [cellAt]
          · simp [cellAt, ha, Ne.symm ha]
      · simp only [setCell, hak, hek, if_false, cellAt]
        by_cases hka : k = a'
        · subst hka; simp [Ne.symm hek]
        · simp only [hka, if_false]
          exact ih h4

theorem setCell_wf {lo hi : Nat} {cells : List Host.Cell} (h : cellsWf lo hi cells = true) (a : Nat) (b : Byte)
    (hlo : lo ≤ a) : cellsWf lo (max hi (a + 1)) (setCell cells a b) = true := by
  have mono : ∀ {lo : Nat} {cs : List Host.Cell}, cellsWf lo hi cs = true → cellsWf lo (max hi (a + 1)) cs = true := by
    intro lo cs hw
    induction cs generalizing lo with
    | nil => rfl
    | cons kv rest ih =>
      obtain ⟨k, v⟩ := kv
      simp only [cellsWf, Bool.and_eq_true, decide_eq_true_eq] at hw ⊢
      exact ⟨⟨⟨hw.1.1.1, by omega⟩, hw.1.2⟩, ih hw.2⟩
  have lower : ∀ {lo lo' hi : Nat} {cs : List Host.Cell}, lo' ≤ lo → cellsWf lo hi cs = true → cellsWf lo' hi cs = true := by
    intro lo lo' hi cs hle hw
    cases cs with
    | nil => rfl
    | cons kv rest =>
      obtain ⟨k, v⟩ := kv
      simp only [cellsWf, Bool.and_eq_true, decide_eq_true_eq] at hw ⊢
      exact ⟨⟨⟨by omega, hw.1.1.2⟩, hw.1.2⟩, hw.2⟩
  induction cells generalizing lo with
  | nil =>
    by_cases hb : b = 0
    · simp [setCell, hb, cellsWf]
    · have h0 : decide (b ≠ 0) = true := by simpa using hb
      simp only [setCell, hb, if_false, cellsWf, Bool.and_eq_true, decide_eq_true_eq, and_true]
      exact ⟨⟨hlo, by omega⟩, hb⟩
  | cons kv rest ih =>
    have h' := mono h
    obtain ⟨k, v⟩ := kv
    simp only [cellsWf, Bool.and_eq_true, decide_eq_true_eq] at h h'
    simp only [setCell]
    split
    · rename_i hak
      split
      · simp only [cellsWf, Bool.and_eq_true, decide_eq_true_eq]; exact h'
      · rename_i hb
        simp only [cellsWf, Bool.and_eq_true, decide_eq_true_eq]
        exact ⟨⟨⟨hlo, by omega⟩, hb⟩, ⟨⟨by omega, h'.1.1.2⟩, h'.1.2⟩, h'.2⟩
    · rename_i hak
      split
      · rename_i hek
        split
        · exact lower (by omega) h'.2
        · rename_i hb
          simp only [cellsWf, Bool.and_eq_true, decide_eq_true_eq]
          exact ⟨⟨⟨hlo, by omega⟩, hb⟩, by subst hek; exact h'.2⟩
      · rename_i hek
        simp only [cellsWf, Bool.and_eq_true, decide_eq_true_eq]
        exact ⟨⟨⟨h.1.1.1, by omega⟩, h.1.2⟩, ih h.2 (by omega)⟩

/-! ### The stream -/

@[simp] theorem Memory.write_size (m : Memory) (a : Nat) (b : Byte) : (m.write a b).size = max m.size (a + 1) := rfl

/-- A write keeps the canonical form. -/
theorem Memory.write_wf {m : Memory} (h : m.wf = true) (a : Nat) (b : Byte) : (m.write a b).wf = true :=
  setCell_wf h a b (Nat.zero_le a)

/-- What is read after a write: the byte written at its address, and at every other address below the old length the byte
that stood there. -/
theorem Memory.read_write {m : Memory} (h : m.wf = true) (a a' : Nat) (b : Byte) :
    (m.write a b).read a' = if a' = a then some b else if a' < max m.size (a + 1) then some (cellAt m.cells a') else none := by
  simp only [Memory.read, Memory.write_size]
  simp only [Memory.write, cellAt_setCell h]
  by_cases ha : a' = a
  · subst ha; simp
  · simp [ha]

theorem Memory.writeBytes_wf {m : Memory} (h : m.wf = true) (a : Nat) (bs : List Byte) :
    (m.writeBytes a bs).wf = true := by
  induction bs generalizing m a with
  | nil => exact h
  | cons b bs ih => exact ih (Memory.write_wf h a b) (a + 1)

theorem Memory.writeBytes_size (m : Memory) (a : Nat) (bs : List Byte) (ha : a ≤ m.size) :
    (m.writeBytes a bs).size = max m.size (a + bs.length) := by
  induction bs generalizing m a with
  | nil => simp [Memory.writeBytes]; omega
  | cons b bs ih =>
    simp only [Memory.writeBytes, List.length_cons]
    rw [ih (m.write a b) (a + 1) (by simp), Memory.write_size]
    omega

/-- The byte at `a'` after `bs` is written from `a` on. -/
theorem Memory.cellAt_writeBytes {m : Memory} (h : m.wf = true) (a a' : Nat) (bs : List Byte) :
    cellAt (m.writeBytes a bs).cells a' =
      if a ≤ a' then (bs[a' - a]?).getD (cellAt m.cells a') else cellAt m.cells a' := by
  induction bs generalizing m a with
  | nil => simp [Memory.writeBytes]
  | cons b bs ih =>
    simp only [Memory.writeBytes]
    rw [ih (Memory.write_wf h a b) (a + 1)]
    have hw : cellAt (m.write a b).cells a' = if a' = a then b else cellAt m.cells a' := cellAt_setCell h a a' b
    rw [hw]
    by_cases h1 : a + 1 ≤ a'
    · have h2 : a' - a = (a' - (a + 1)) + 1 := by omega
      simp [h1, show a ≤ a' by omega, h2, show ¬ a' = a by omega]
    · by_cases h3 : a' = a
      · subst h3; simp
      · simp [h1, h3, show ¬ a ≤ a' by omega]

theorem Memory.empty_wf : Memory.wf ⟨0, []⟩ = true := rfl

theorem Memory.ofBytes_wf (bs : List Byte) : (Memory.ofBytes bs).wf = true := Memory.writeBytes_wf Memory.empty_wf 0 bs

theorem Memory.append_wf {m : Memory} (h : m.wf = true) (bs : List Byte) : (m.append bs).wf = true :=
  Memory.writeBytes_wf h m.size bs

@[simp] theorem Memory.append_size (m : Memory) (bs : List Byte) : (m.append bs).size = m.size + bs.length := by
  rw [Memory.append, Memory.writeBytes_size m m.size bs (Nat.le_refl _)]
  omega

/-- Below the old length, supplying bytes changes nothing. -/
theorem Memory.read_append_old {m : Memory} (h : m.wf = true) (bs : List Byte) {a : Nat} (ha : a < m.size) :
    (m.append bs).read a = m.read a := by
  have hc := Memory.cellAt_writeBytes h m.size a bs
  simp only [show ¬ m.size ≤ a by omega, if_false] at hc
  simp only [Memory.read, Memory.append_size, show a < m.size + bs.length by omega, ha, if_true]
  exact congrArg some hc

/-- From the old length on, the bytes supplied stand in order. -/
theorem Memory.read_append_new {m : Memory} (h : m.wf = true) (bs : List Byte) {k : Nat} (hk : k < bs.length) :
    (m.append bs).read (m.size + k) = bs[k]? := by
  have hc := Memory.cellAt_writeBytes h m.size (m.size + k) bs
  simp only [show m.size ≤ m.size + k by omega, if_true, show m.size + k - m.size = k by omega,
    List.getElem?_eq_getElem hk, Option.getD_some] at hc
  simp only [Memory.read, Memory.append_size, show m.size + k < m.size + bs.length by omega, if_true,
    List.getElem?_eq_getElem hk]
  exact congrArg some hc

@[simp] theorem Memory.window_length (m : Memory) (a n : Nat) : (m.window a n).length = min n (m.size - a) := by
  simp [Memory.window]

/-- A window of a stream is the beginning of any longer one. -/
theorem Memory.window_take (m : Memory) (a : Nat) {n n' : Nat} (h : n ≤ n') :
    (m.window a n').take n = m.window a n := by
  apply List.ext_getElem?
  intro k
  simp only [Memory.window, List.getElem?_take, List.getElem?_map]
  by_cases h1 : k < n
  · by_cases h2 : k < m.size - a
    · simp [h1, show k < n' by omega, h2]
    · simp [h1, h2]
  · simp [h1]

theorem Memory.window_getElem? (m : Memory) (a n k : Nat) :
    (m.window a n)[k]? = if k < n then m.read (a + k) else none := by
  simp only [Memory.window, List.getElem?_map, Memory.read]
  by_cases h1 : k < n
  · by_cases h2 : k < m.size - a
    · simp [h1, h2, show a + k < m.size by omega]
    · simp [h1, h2, show ¬ a + k < m.size by omega]
  · simp [h1]

end Sys2Proof.Machine
end

