-- ==== Sys2Proof/Laws/Decode.lean ====
section
/-! SUPPORT. The forms of a successful decoding (spec/30_encoding.md R94, R98), and what a fetch hands to the decoder. -/

namespace Sys2Proof

theorem onlyIf_ok {u : Bool} {j i : Instr} (h : onlyIf u j = .ok i) : u = true ∧ i = j := by
  unfold onlyIf at h
  cases u with
  | false => simp at h
  | true => simp at h; exact ⟨rfl, h.symm⟩

theorem withPayload_ok {u : Bool} {n : Nat} {rest : List Byte} {mk : List Byte → Instr} {i : Instr} (hn : n ≤ 160)
    (h : withPayload u n rest mk = .ok i) : u = true ∧ n ≤ rest.length ∧ i = mk (rest.take n) := by
  unfold withPayload at h
  cases u with
  | false => simp at h
  | true =>
    simp only [if_true] at h
    split at h
    · simp at h
    · rename_i h2
      simp only [longestPacket, Bool.and_eq_true, decide_eq_true_eq, not_and_or, not_lt] at h2
      norm_num at h2
      refine ⟨rfl, by omega, ?_⟩
      injection h with h
      exact h.symm

/-- Where the payload is present the shortcut for long streams answers what the rule says. -/
theorem withPayload_of_le {n : Nat} {rest : List Byte} {mk : List Byte → Instr} (h : n ≤ rest.length) :
    withPayload true n rest mk = .ok (mk (rest.take n)) := by
  simp [withPayload, show ¬ rest.length < n by omega]

theorem decode_ok {mcap : Nat} {bytes : List Byte} {i : Instr} (h : decode mcap bytes = .ok i) :
    ∃ op a b c rest, bytes = op :: a :: b :: c :: rest ∧ decodeFields mcap op a b c rest = .ok i := by
  unfold decode at h
  split at h
  · exact ⟨_, _, _, _, _, rfl, h⟩
  · simp at h

/-- The packet of a command begins with its opcode. -/
theorem encode_head (i : Instr) : (encode i).head? = some i.opcode := by cases i <;> rfl

theorem packetLen_le (i : Instr) {mcap : Nat} (h : mcap ≤ 4) : i.packetLen mcap ≤ longestPacket := by
  cases i <;> simp [Instr.packetLen, longestPacket]
  omega

theorem packetLen_ge (i : Instr) (mcap : Nat) : 4 ≤ i.packetLen mcap := by
  cases i <;> simp [Instr.packetLen]

/-- R64: every packet length is a multiple of 4. -/
theorem packetLen_mod (i : Instr) (mcap : Nat) : i.packetLen mcap % 4 = 0 := by
  cases i <;> simp [Instr.packetLen]
  omega

end Sys2Proof

namespace Sys2Proof.Machine

/-- A fetch sees at least any packet that stands at `CP`. -/
theorem fetchBytes_prefix {s : State} {n : Nat} (h : n ≤ longestPacket) :
    fetchBytes s = s.cs.window s.cp n ++ (fetchBytes s).drop n := by
  have := Memory.window_take s.cs s.cp h
  rw [← this]
  exact (List.take_append_drop n (fetchBytes s)).symm

theorem fetchBytes_length (s : State) : (fetchBytes s).length = min longestPacket (s.cs.size - s.cp) :=
  Memory.window_length _ _ _

end Sys2Proof.Machine
end

