-- ==== Sys2Proof/Laws/Field.lean ====
section
/-! SUPPORT. The field operations keep elements canonical (spec/40_permutation.md R120), and the 32-byte encoding is exact
on canonical elements (spec/20_memory.md R62). -/

namespace Sys2Proof

theorem Config.p_pos (c : Config) : 0 < c.p := by have := c.p_bounds; omega

end Sys2Proof

namespace Sys2Proof.Machine

theorem fe_lt (c : Config) (n : Nat) : fe c.p n < c.p := Nat.mod_lt _ (Config.p_pos c)

theorem fadd_lt (c : Config) (a b : Nat) : fadd c.p a b < c.p := Nat.mod_lt _ (Config.p_pos c)

theorem fmul_lt (c : Config) (a b : Nat) : fmul c.p a b < c.p := Nat.mod_lt _ (Config.p_pos c)

/-- The integer that `fsub` answers (R120). -/
theorem fsub_cast (c : Config) (a b : Nat) :
    ((fsub c.p a b : Nat) : Int) = ((a : Int) - (b : Int)) % (c.p : Int) := by
  have hp := Config.p_pos c
  exact Int.toNat_of_nonneg (Int.emod_nonneg _ (by omega))

theorem fsub_lt (c : Config) (a b : Nat) : fsub c.p a b < c.p := by
  have hp := Config.p_pos c
  have h := fsub_cast c a b
  have h2 := Int.emod_lt_of_pos ((a : Int) - (b : Int)) (b := (c.p : Int)) (by omega)
  omega

/-- Subtracting what was added gives the element back (the cipher's round trip, spec/43_cipher.md R205). -/
theorem fsub_fadd_cancel (c : Config) (a m : Nat) (hm : m < c.p) : fsub c.p (fadd c.p a m) a = m := by
  have h := fsub_cast c (fadd c.p a m) a
  have h2 : ((fadd c.p a m : Nat) : Int) = ((a : Int) + (m : Int)) % (c.p : Int) := by
    simp [fadd]
  rw [h2, Int.emod_sub_emod] at h
  have h3 : (a : Int) + (m : Int) - (a : Int) = (m : Int) := by omega
  rw [h3, Int.emod_eq_of_lt (by omega) (by omega)] at h
  omega

@[simp] theorem enc32_length (v : Nat) : (enc32 v).length = 32 := leBytes_length 32 v

theorem leNat_enc32 (c : Config) {v : Nat} (h : v < c.p) : leNat (enc32 v) = v := by
  have := c.p_bounds.2
  exact leNat_leBytes_of_lt (by rw [show (256 : Nat) ^ 32 = 2 ^ 256 by norm_num]; omega)

theorem dec32_enc32 (c : Config) {v : Nat} (h : v < c.p) : dec32 c.p (enc32 v) = some v := by
  simp [dec32, leNat_enc32 c h, h]

theorem dec32_eq_some {p : Nat} {b : List Byte} {v : Nat} :
    dec32 p b = some v ↔ leNat b = v ∧ leNat b < p := by
  unfold dec32
  split
  · simp_all
  · rename_i h
    simp [h]

end Sys2Proof.Machine
end

