-- ==== Sys2Proof/Laws/Permutation.lean ====
section
/-! SUPPORT. The layers position by position (spec/40_permutation.md R123), and every element a permutation leaves is
canonical (spec/10_state.md R33 (a)). -/

namespace Sys2Proof.Machine

theorem arc_getElem (c : Config) (s : PermState) (r : Fin 68) (k : Fin 5) : (arc c s r)[k] = fadd c.p s[k] c.rc[r][k] := by
  simp [arc]

theorem sboxFull_getElem (c : Config) (s : PermState) (k : Fin 5) : (sboxFull c s)[k] = sbox c.p s[k] := by
  simp [sboxFull]

theorem sboxPartial_getElem (c : Config) (s : PermState) (k : Fin 5) :
    (sboxPartial c s)[k] = if k = 4 then sbox c.p s[k] else s[k] := by
  simp [sboxPartial]

theorem mix_getElem (c : Config) (s : PermState) (k : Fin 5) : (mix c s)[k] = mixAt c s k := by simp [mix]

/-- R122: the S-box is the fifth power. -/
theorem sbox_eq_pow (p x : Nat) : sbox p x = x ^ 5 % p := by
  simp only [sbox, fsq, fmul]
  rw [show x ^ 5 = x * x * (x * x) * x by ring]
  simp [Nat.mul_mod]

theorem mix_lt (c : Config) (s : PermState) (k : Fin 5) : (mix c s)[k] < c.p := by
  rw [mix_getElem]; exact fadd_lt c _ _

theorem roundAt_lt (c : Config) (s : PermState) (r : Fin 68) (k : Fin 5) : (roundAt c s r)[k] < c.p := by
  unfold roundAt
  split <;> exact mix_lt c _ k

/-- Whatever the state was, a permutation leaves canonical elements: its last layer is a linear one. -/
theorem permutation_lt (c : Config) (s : PermState) (k : Fin 5) : (permutation c s)[k] < c.p := by
  have h : ∀ (l : List (Fin 68)) (s : PermState), l ≠ [] → (l.foldl (roundAt c) s)[k] < c.p := by
    intro l
    induction l with
    | nil => intro s h; exact absurd rfl h
    | cons r l ih =>
      intro s _
      by_cases hl : l = []
      · subst hl; exact roundAt_lt c s r k
      · exact ih _ hl
  exact h _ _ (by decide)

end Sys2Proof.Machine
end

