-- ==== Sys2Proof/Laws/State.lean ====
section
/-! SUPPORT. One lemma per field per shared update of the state, so that no proof unfolds a record
update. -/

namespace Sys2Proof.Machine


/-! ### The epilogue (R97) -/

section
variable (c : ResultCode) (echo cnt : Byte) (len : Nat) (payload : List Byte) (s : State)

@[simp] theorem epilogue_cfg : (epilogue c echo len cnt payload s).cfg = s.cfg := rfl
@[simp] theorem epilogue_cs : (epilogue c echo len cnt payload s).cs = s.cs := rfl
@[simp] theorem epilogue_st : (epilogue c echo len cnt payload s).st = s.st := rfl
@[simp] theorem epilogue_vr : (epilogue c echo len cnt payload s).vr = s.vr := rfl
@[simp] theorem epilogue_pat : (epilogue c echo len cnt payload s).pat = s.pat := rfl
@[simp] theorem epilogue_apat : (epilogue c echo len cnt payload s).apat = s.apat := rfl
@[simp] theorem epilogue_mode : (epilogue c echo len cnt payload s).mode = s.mode := rfl
@[simp] theorem epilogue_dom : (epilogue c echo len cnt payload s).dom = s.dom := rfl
@[simp] theorem epilogue_ioc : (epilogue c echo len cnt payload s).ioc = s.ioc := rfl
@[simp] theorem epilogue_apos : (epilogue c echo len cnt payload s).apos = s.apos := rfl
@[simp] theorem epilogue_spos : (epilogue c echo len cnt payload s).spos = s.spos := rfl
@[simp] theorem epilogue_out : (epilogue c echo len cnt payload s).out = s.out := rfl
@[simp] theorem epilogue_pcnt : (epilogue c echo len cnt payload s).pcnt = s.pcnt := rfl
@[simp] theorem epilogue_rsp : (epilogue c echo len cnt payload s).rsp = s.rsp ++ [responsePacket c echo cnt payload] := rfl
@[simp] theorem epilogue_lastcode : (epilogue c echo len cnt payload s).lastcode = codeByte c := rfl
@[simp] theorem epilogue_esticky : (epilogue c echo len cnt payload s).esticky = stickyAfter c s.esticky := rfl
@[simp] theorem epilogue_halt : (epilogue c echo len cnt payload s).halt = (s.halt || decide (c = .illegalCommand)) := rfl
@[simp] theorem epilogue_cp : (epilogue c echo len cnt payload s).cp = if c = .illegalCommand then s.cp else s.cp + len := rfl

end

/-! ### Writing the register file -/

section
variable (b : Nat) (xs : List Nat) (s : State)

@[simp] theorem vrWrite_cfg : (s.vrWrite b xs).cfg = s.cfg := by simp only [State.vrWrite]
@[simp] theorem vrWrite_cs : (s.vrWrite b xs).cs = s.cs := by simp only [State.vrWrite]
@[simp] theorem vrWrite_st : (s.vrWrite b xs).st = s.st := by simp only [State.vrWrite]
@[simp] theorem vrWrite_pat : (s.vrWrite b xs).pat = s.pat := by simp only [State.vrWrite]
@[simp] theorem vrWrite_apat : (s.vrWrite b xs).apat = s.apat := by simp only [State.vrWrite]
@[simp] theorem vrWrite_mode : (s.vrWrite b xs).mode = s.mode := by simp only [State.vrWrite]
@[simp] theorem vrWrite_dom : (s.vrWrite b xs).dom = s.dom := by simp only [State.vrWrite]
@[simp] theorem vrWrite_ioc : (s.vrWrite b xs).ioc = s.ioc := by simp only [State.vrWrite]
@[simp] theorem vrWrite_apos : (s.vrWrite b xs).apos = s.apos := by simp only [State.vrWrite]
@[simp] theorem vrWrite_spos : (s.vrWrite b xs).spos = s.spos := by simp only [State.vrWrite]
@[simp] theorem vrWrite_out : (s.vrWrite b xs).out = s.out := by simp only [State.vrWrite]
@[simp] theorem vrWrite_esticky : (s.vrWrite b xs).esticky = s.esticky := by simp only [State.vrWrite]
@[simp] theorem vrWrite_lastcode : (s.vrWrite b xs).lastcode = s.lastcode := by simp only [State.vrWrite]
@[simp] theorem vrWrite_pcnt : (s.vrWrite b xs).pcnt = s.pcnt := by simp only [State.vrWrite]
@[simp] theorem vrWrite_halt : (s.vrWrite b xs).halt = s.halt := by simp only [State.vrWrite]
@[simp] theorem vrWrite_cp : (s.vrWrite b xs).cp = s.cp := by simp only [State.vrWrite]
@[simp] theorem vrWrite_rsp : (s.vrWrite b xs).rsp = s.rsp := by simp only [State.vrWrite]

end

/-! ### Writing one register -/

section
variable (i : Nat) (v : Nat) (s : State)

@[simp] theorem vrSet_cfg : (s.vrSet i v).cfg = s.cfg := by simp only [State.vrSet, vrWrite_cfg]
@[simp] theorem vrSet_cs : (s.vrSet i v).cs = s.cs := by simp only [State.vrSet, vrWrite_cs]
@[simp] theorem vrSet_st : (s.vrSet i v).st = s.st := by simp only [State.vrSet, vrWrite_st]
@[simp] theorem vrSet_pat : (s.vrSet i v).pat = s.pat := by simp only [State.vrSet, vrWrite_pat]
@[simp] theorem vrSet_apat : (s.vrSet i v).apat = s.apat := by simp only [State.vrSet, vrWrite_apat]
@[simp] theorem vrSet_mode : (s.vrSet i v).mode = s.mode := by simp only [State.vrSet, vrWrite_mode]
@[simp] theorem vrSet_dom : (s.vrSet i v).dom = s.dom := by simp only [State.vrSet, vrWrite_dom]
@[simp] theorem vrSet_ioc : (s.vrSet i v).ioc = s.ioc := by simp only [State.vrSet, vrWrite_ioc]
@[simp] theorem vrSet_apos : (s.vrSet i v).apos = s.apos := by simp only [State.vrSet, vrWrite_apos]
@[simp] theorem vrSet_spos : (s.vrSet i v).spos = s.spos := by simp only [State.vrSet, vrWrite_spos]
@[simp] theorem vrSet_out : (s.vrSet i v).out = s.out := by simp only [State.vrSet, vrWrite_out]
@[simp] theorem vrSet_esticky : (s.vrSet i v).esticky = s.esticky := by simp only [State.vrSet, vrWrite_esticky]
@[simp] theorem vrSet_lastcode : (s.vrSet i v).lastcode = s.lastcode := by simp only [State.vrSet, vrWrite_lastcode]
@[simp] theorem vrSet_pcnt : (s.vrSet i v).pcnt = s.pcnt := by simp only [State.vrSet, vrWrite_pcnt]
@[simp] theorem vrSet_halt : (s.vrSet i v).halt = s.halt := by simp only [State.vrSet, vrWrite_halt]
@[simp] theorem vrSet_cp : (s.vrSet i v).cp = s.cp := by simp only [State.vrSet, vrWrite_cp]
@[simp] theorem vrSet_rsp : (s.vrSet i v).rsp = s.rsp := by simp only [State.vrSet, vrWrite_rsp]

end

/-! ### `SpongeKill` (R158) -/

section
variable (s : State)

@[simp] theorem spongeKill_cfg : (spongeKill s).cfg = s.cfg := rfl
@[simp] theorem spongeKill_cs : (spongeKill s).cs = s.cs := rfl
@[simp] theorem spongeKill_vr : (spongeKill s).vr = s.vr := rfl
@[simp] theorem spongeKill_pat : (spongeKill s).pat = s.pat := rfl
@[simp] theorem spongeKill_esticky : (spongeKill s).esticky = s.esticky := rfl
@[simp] theorem spongeKill_lastcode : (spongeKill s).lastcode = s.lastcode := rfl
@[simp] theorem spongeKill_pcnt : (spongeKill s).pcnt = s.pcnt := rfl
@[simp] theorem spongeKill_halt : (spongeKill s).halt = s.halt := rfl
@[simp] theorem spongeKill_cp : (spongeKill s).cp = s.cp := rfl
@[simp] theorem spongeKill_rsp : (spongeKill s).rsp = s.rsp := rfl
@[simp] theorem spongeKill_st : (spongeKill s).st = Vector.replicate 5 0 := rfl
@[simp] theorem spongeKill_apat : (spongeKill s).apat = [] := rfl
@[simp] theorem spongeKill_dom : (spongeKill s).dom = .merkle2 := rfl
@[simp] theorem spongeKill_ioc : (spongeKill s).ioc = 0 := rfl
@[simp] theorem spongeKill_apos : (spongeKill s).apos = 0 := rfl
@[simp] theorem spongeKill_spos : (spongeKill s).spos = 0 := rfl
@[simp] theorem spongeKill_out : (spongeKill s).out = [] := rfl
@[simp] theorem spongeKill_mode : (spongeKill s).mode = .idle := rfl

end

/-! ### `Permute` (R126) -/

section
variable (s : State)

@[simp] theorem permute_cfg : (permute s).cfg = s.cfg := rfl
@[simp] theorem permute_cs : (permute s).cs = s.cs := rfl
@[simp] theorem permute_vr : (permute s).vr = s.vr := rfl
@[simp] theorem permute_pat : (permute s).pat = s.pat := rfl
@[simp] theorem permute_apat : (permute s).apat = s.apat := rfl
@[simp] theorem permute_mode : (permute s).mode = s.mode := rfl
@[simp] theorem permute_dom : (permute s).dom = s.dom := rfl
@[simp] theorem permute_ioc : (permute s).ioc = s.ioc := rfl
@[simp] theorem permute_apos : (permute s).apos = s.apos := rfl
@[simp] theorem permute_spos : (permute s).spos = s.spos := rfl
@[simp] theorem permute_out : (permute s).out = s.out := rfl
@[simp] theorem permute_esticky : (permute s).esticky = s.esticky := rfl
@[simp] theorem permute_lastcode : (permute s).lastcode = s.lastcode := rfl
@[simp] theorem permute_halt : (permute s).halt = s.halt := rfl
@[simp] theorem permute_cp : (permute s).cp = s.cp := rfl
@[simp] theorem permute_rsp : (permute s).rsp = s.rsp := rfl
@[simp] theorem permute_st : (permute s).st = permutation s.cfg s.st := rfl
@[simp] theorem permute_pcnt : (permute s).pcnt = s.pcnt + 1 := rfl

end

/-! ### `SpongeInit` (R154) -/

section
variable (pat : List PatStep) (d : Domain) (s : State)

@[simp] theorem spongeInit_cfg : (spongeInit pat d s).cfg = s.cfg := rfl
@[simp] theorem spongeInit_cs : (spongeInit pat d s).cs = s.cs := rfl
@[simp] theorem spongeInit_vr : (spongeInit pat d s).vr = s.vr := rfl
@[simp] theorem spongeInit_pat : (spongeInit pat d s).pat = s.pat := rfl
@[simp] theorem spongeInit_esticky : (spongeInit pat d s).esticky = s.esticky := rfl
@[simp] theorem spongeInit_lastcode : (spongeInit pat d s).lastcode = s.lastcode := rfl
@[simp] theorem spongeInit_pcnt : (spongeInit pat d s).pcnt = s.pcnt := rfl
@[simp] theorem spongeInit_halt : (spongeInit pat d s).halt = s.halt := rfl
@[simp] theorem spongeInit_cp : (spongeInit pat d s).cp = s.cp := rfl
@[simp] theorem spongeInit_rsp : (spongeInit pat d s).rsp = s.rsp := rfl
@[simp] theorem spongeInit_apat : (spongeInit pat d s).apat = pat := rfl
@[simp] theorem spongeInit_dom : (spongeInit pat d s).dom = d := rfl
@[simp] theorem spongeInit_st : (spongeInit pat d s).st = #v[tagOf s.cfg pat (domTag s.cfg d), 0, 0, 0, 0] := rfl
@[simp] theorem spongeInit_ioc : (spongeInit pat d s).ioc = 0 := rfl
@[simp] theorem spongeInit_apos : (spongeInit pat d s).apos = 0 := rfl
@[simp] theorem spongeInit_spos : (spongeInit pat d s).spos = 4 := rfl
@[simp] theorem spongeInit_out : (spongeInit pat d s).out = [] := rfl
@[simp] theorem spongeInit_mode : (spongeInit pat d s).mode = .active := rfl

end

/-! ### Reading a rate slot (R157) -/

section
variable (k : Fin 4) (s : State)

@[simp] theorem takeRate_cfg : (takeRate s k).cfg = s.cfg := rfl
@[simp] theorem takeRate_cs : (takeRate s k).cs = s.cs := rfl
@[simp] theorem takeRate_st : (takeRate s k).st = s.st := rfl
@[simp] theorem takeRate_vr : (takeRate s k).vr = s.vr := rfl
@[simp] theorem takeRate_pat : (takeRate s k).pat = s.pat := rfl
@[simp] theorem takeRate_apat : (takeRate s k).apat = s.apat := rfl
@[simp] theorem takeRate_mode : (takeRate s k).mode = s.mode := rfl
@[simp] theorem takeRate_dom : (takeRate s k).dom = s.dom := rfl
@[simp] theorem takeRate_ioc : (takeRate s k).ioc = s.ioc := rfl
@[simp] theorem takeRate_apos : (takeRate s k).apos = s.apos := rfl
@[simp] theorem takeRate_esticky : (takeRate s k).esticky = s.esticky := rfl
@[simp] theorem takeRate_lastcode : (takeRate s k).lastcode = s.lastcode := rfl
@[simp] theorem takeRate_pcnt : (takeRate s k).pcnt = s.pcnt := rfl
@[simp] theorem takeRate_halt : (takeRate s k).halt = s.halt := rfl
@[simp] theorem takeRate_cp : (takeRate s k).cp = s.cp := rfl
@[simp] theorem takeRate_rsp : (takeRate s k).rsp = s.rsp := rfl
@[simp] theorem takeRate_out : (takeRate s k).out = s.out ++ [s.st[1 + k.val]] := rfl
@[simp] theorem takeRate_spos : (takeRate s k).spos = k.succ := rfl

end

/-! ### The host supplies bytes (R66) -/

section
variable (bs : List Byte) (s : State)

@[simp] theorem supply_cfg : (s.supply bs).cfg = s.cfg := rfl
@[simp] theorem supply_st : (s.supply bs).st = s.st := rfl
@[simp] theorem supply_vr : (s.supply bs).vr = s.vr := rfl
@[simp] theorem supply_pat : (s.supply bs).pat = s.pat := rfl
@[simp] theorem supply_apat : (s.supply bs).apat = s.apat := rfl
@[simp] theorem supply_mode : (s.supply bs).mode = s.mode := rfl
@[simp] theorem supply_dom : (s.supply bs).dom = s.dom := rfl
@[simp] theorem supply_ioc : (s.supply bs).ioc = s.ioc := rfl
@[simp] theorem supply_apos : (s.supply bs).apos = s.apos := rfl
@[simp] theorem supply_spos : (s.supply bs).spos = s.spos := rfl
@[simp] theorem supply_out : (s.supply bs).out = s.out := rfl
@[simp] theorem supply_esticky : (s.supply bs).esticky = s.esticky := rfl
@[simp] theorem supply_lastcode : (s.supply bs).lastcode = s.lastcode := rfl
@[simp] theorem supply_pcnt : (s.supply bs).pcnt = s.pcnt := rfl
@[simp] theorem supply_halt : (s.supply bs).halt = s.halt := rfl
@[simp] theorem supply_cp : (s.supply bs).cp = s.cp := rfl
@[simp] theorem supply_rsp : (s.supply bs).rsp = s.rsp := rfl
@[simp] theorem supply_cs : (s.supply bs).cs = s.cs.append bs := rfl

end

end Sys2Proof.Machine
end

