-- ==== Sys2Proof/Laws/Sponge.lean ====
section
/-! SUPPORT. Everything the core procedures of the sponge do (spec/41_sponge.md R156, R157): what they leave alone, the
positions and the counters they leave, and that elements stay canonical. -/

namespace Sys2Proof.Machine

/-- What neither absorbing nor squeezing touches. -/
structure CoreFrame (s t : State) : Prop where
  cfg : t.cfg = s.cfg
  cs : t.cs = s.cs
  vr : t.vr = s.vr
  pat : t.pat = s.pat
  apat : t.apat = s.apat
  mode : t.mode = s.mode
  dom : t.dom = s.dom
  esticky : t.esticky = s.esticky
  lastcode : t.lastcode = s.lastcode
  halt : t.halt = s.halt
  cp : t.cp = s.cp
  rsp : t.rsp = s.rsp

theorem CoreFrame.rfl' (s : State) : CoreFrame s s := ⟨rfl, rfl, rfl, rfl, rfl, rfl, rfl, rfl, rfl, rfl, rfl, rfl⟩

theorem CoreFrame.trans {s t u : State} (h : CoreFrame s t) (g : CoreFrame t u) : CoreFrame s u :=
  ⟨g.cfg.trans h.cfg, g.cs.trans h.cs, g.vr.trans h.vr, g.pat.trans h.pat, g.apat.trans h.apat, g.mode.trans h.mode,
    g.dom.trans h.dom, g.esticky.trans h.esticky, g.lastcode.trans h.lastcode, g.halt.trans h.halt, g.cp.trans h.cp,
    g.rsp.trans h.rsp⟩

/-! ### Absorbing -/

theorem absorbOne_frame (s : State) (e : Nat) : CoreFrame s (absorbOne s e) := by
  unfold absorbOne
  by_cases h : s.apos = 3 <;> (simp only [h, if_true, if_false]; constructor <;> rfl)

theorem absorbOne_ioc (s : State) (e : Nat) : (absorbOne s e).ioc = s.ioc := by
  unfold absorbOne
  by_cases h : s.apos = 3
  · simp only [h, if_true]; rfl
  · simp only [h, if_false]

theorem absorbOne_out (s : State) (e : Nat) : (absorbOne s e).out = s.out := by
  unfold absorbOne
  by_cases h : s.apos = 3
  · simp only [h, if_true]; rfl
  · simp only [h, if_false]

theorem absorbOne_apos (s : State) (e : Nat) : (absorbOne s e).apos.val = (s.apos.val + 1) % 4 := by
  unfold absorbOne
  by_cases h : s.apos = 3
  · simp [h]
  · simp only [h, if_false]
    simp [Fin.val_add]

theorem absorbOne_pcnt (s : State) (e : Nat) :
    (absorbOne s e).pcnt = s.pcnt + BitVec.ofNat 32 ((s.apos.val + 1) / 4) := by
  unfold absorbOne
  by_cases h : s.apos = 3
  · simp [h]
  · have h2 : (s.apos.val + 1) / 4 = 0 := by
      have := s.apos.isLt
      have : s.apos.val ≠ 3 := fun h' => h (Fin.ext h')
      omega
    simp [h, h2]

theorem absorbOne_st_lt {s : State} (e : Nat) (h : ∀ k : Fin 5, s.st[k] < s.cfg.p) (k : Fin 5) :
    (absorbOne s e).st[k] < (absorbOne s e).cfg.p := by
  rw [(absorbOne_frame s e).cfg]
  unfold absorbOne
  by_cases ha : s.apos = 3
  · simp only [ha, if_true, permute_st]
    exact permutation_lt s.cfg _ k
  · simp only [ha, if_false]
    show ((s.st.set (1 + s.apos.val) _ _) : PermState)[k.val] < _
    rw [Vector.getElem_set]
    split
    · exact fadd_lt s.cfg _ _
    · exact h k

theorem absorbMany_frame (e : List Nat) (s : State) : CoreFrame s (e.foldl absorbOne s) := by
  induction e generalizing s with
  | nil => exact CoreFrame.rfl' s
  | cons x e ih => exact (absorbOne_frame s x).trans (ih _)

theorem absorbMany_ioc (e : List Nat) (s : State) : (e.foldl absorbOne s).ioc = s.ioc := by
  induction e generalizing s with
  | nil => rfl
  | cons x e ih => simp [ih, absorbOne_ioc]

theorem absorbMany_out (e : List Nat) (s : State) : (e.foldl absorbOne s).out = s.out := by
  induction e generalizing s with
  | nil => rfl
  | cons x e ih => simp [ih, absorbOne_out]

theorem absorbMany_apos (e : List Nat) (s : State) :
    (e.foldl absorbOne s).apos.val = (s.apos.val + e.length) % 4 := by
  induction e generalizing s with
  | nil => simp [Nat.mod_eq_of_lt s.apos.isLt]
  | cons x e ih =>
    have := absorbOne_apos s x
    simp only [List.foldl_cons, ih, this, List.length_cons]
    omega

theorem absorbMany_pcnt (e : List Nat) (s : State) :
    (e.foldl absorbOne s).pcnt = s.pcnt + BitVec.ofNat 32 ((s.apos.val + e.length) / 4) := by
  induction e generalizing s with
  | nil =>
    have := s.apos.isLt
    have h : s.apos.val / 4 = 0 := by omega
    simp [h]
  | cons x e ih =>
    have h1 := absorbOne_apos s x
    have h2 := absorbOne_pcnt s x
    have h3 := s.apos.isLt
    simp only [List.foldl_cons, ih, h1, h2, List.length_cons]
    rw [BitVec.add_assoc, ← BitVec.ofNat_add]
    congr 2
    omega

theorem absorbMany_st_lt (e : List Nat) {s : State} (h : ∀ k : Fin 5, s.st[k] < s.cfg.p) (k : Fin 5) :
    (e.foldl absorbOne s).st[k] < s.cfg.p := by
  induction e generalizing s with
  | nil => exact h k
  | cons x e ih =>
    have := ih (s := absorbOne s x) (absorbOne_st_lt x h)
    rwa [(absorbOne_frame s x).cfg] at this

theorem absorbCore_frame (e : List Nat) (s : State) : CoreFrame s (absorbCore e s) := by
  obtain ⟨h1, h2, h3, h4, h5, h6, h7, h8, h9, h10, h11, h12⟩ := absorbMany_frame e s
  exact ⟨h1, h2, h3, h4, h5, h6, h7, h8, h9, h10, h11, h12⟩

@[simp] theorem absorbCore_ioc (e : List Nat) (s : State) : (absorbCore e s).ioc = s.ioc + 1 := by
  simp [absorbCore, absorbMany_ioc]

@[simp] theorem absorbCore_out (e : List Nat) (s : State) : (absorbCore e s).out = s.out := by
  simp [absorbCore, absorbMany_out]

theorem absorbCore_st (e : List Nat) (s : State) : (absorbCore e s).st = (e.foldl absorbOne s).st := rfl

theorem absorbCore_apos (e : List Nat) (s : State) :
    (absorbCore e s).apos.val = (s.apos.val + e.length) % 4 := absorbMany_apos e s

theorem absorbCore_spos (e : List Nat) (s : State) :
    (absorbCore e s).spos.val = if (s.apos.val + e.length) % 4 = 0 then 0 else 4 := by
  have h := absorbMany_apos e s
  have e1 : (absorbCore e s).spos = if (e.foldl absorbOne s).apos = 0 then 0 else 4 := rfl
  rw [e1, ← h]
  by_cases h0 : (e.foldl absorbOne s).apos = 0
  · simp [h0]
  · have : (e.foldl absorbOne s).apos.val ≠ 0 := fun h' => h0 (Fin.ext h')
    simp [h0]

theorem absorbCore_pcnt (e : List Nat) (s : State) :
    (absorbCore e s).pcnt = s.pcnt + BitVec.ofNat 32 ((s.apos.val + e.length) / 4) := absorbMany_pcnt e s

theorem absorbCore_st_lt (e : List Nat) {s : State} (h : ∀ k : Fin 5, s.st[k] < s.cfg.p) (k : Fin 5) :
    (absorbCore e s).st[k] < s.cfg.p := absorbMany_st_lt e h k

/-! ### Squeezing -/

theorem squeezeOne_frame (s : State) : CoreFrame s (squeezeOne s) := by
  unfold squeezeOne
  split <;> constructor <;> rfl

theorem squeezeOne_ioc (s : State) : (squeezeOne s).ioc = s.ioc := by
  unfold squeezeOne
  split <;> rfl

theorem squeezeOne_spos (s : State) : (squeezeOne s).spos.val = (s.spos.val + 1 - 1) % 4 + 1 := by
  have := s.spos.isLt
  unfold squeezeOne
  split
  · simp; omega
  · simp; omega

theorem squeezeOne_apos (s : State) : (squeezeOne s).apos = if s.spos.val + 1 ≤ 4 then s.apos else 0 := by
  unfold squeezeOne
  split
  · rename_i h; simp [show s.spos.val + 1 ≤ 4 by omega]
  · rename_i h; simp [show ¬ s.spos.val + 1 ≤ 4 by omega]

theorem squeezeOne_pcnt (s : State) : (squeezeOne s).pcnt = s.pcnt + BitVec.ofNat 32 (s.spos.val / 4) := by
  have := s.spos.isLt
  unfold squeezeOne
  split
  · rename_i h; simp [show s.spos.val / 4 = 0 by omega]
  · rename_i h; simp [show s.spos.val / 4 = 1 by omega]

theorem squeezeOne_out (s : State) : ∃ v, (squeezeOne s).out = s.out ++ [v] ∧ ∃ k : Fin 5, v = (squeezeOne s).st[k] := by
  unfold squeezeOne
  split
  · exact ⟨_, rfl, ⟨1 + s.spos.val, by omega⟩, rfl⟩
  · exact ⟨_, rfl, 1, rfl⟩

theorem squeezeOne_st_lt {s : State} (h : ∀ k : Fin 5, s.st[k] < s.cfg.p) (k : Fin 5) :
    (squeezeOne s).st[k] < s.cfg.p := by
  unfold squeezeOne
  split
  · exact h k
  · exact permutation_lt s.cfg s.st k

theorem squeezeMany_frame (n : Nat) (s : State) : CoreFrame s (squeezeMany n s) := by
  induction n generalizing s with
  | zero => exact CoreFrame.rfl' s
  | succ n ih => exact (squeezeOne_frame s).trans (ih _)

theorem squeezeMany_ioc (n : Nat) (s : State) : (squeezeMany n s).ioc = s.ioc := by
  induction n generalizing s with
  | zero => rfl
  | succ n ih => simp [squeezeMany, ih, squeezeOne_ioc]

theorem squeezeMany_spos (n : Nat) (s : State) (hn : 1 ≤ n) :
    (squeezeMany n s).spos.val = (s.spos.val + n - 1) % 4 + 1 := by
  induction n generalizing s with
  | zero => omega
  | succ n ih =>
    have h1 := squeezeOne_spos s
    by_cases h : n = 0
    · subst h; exact h1
    · simp only [squeezeMany]
      rw [ih _ (by omega), h1]
      omega

theorem squeezeMany_apos (n : Nat) (s : State) :
    (squeezeMany n s).apos = if n = 0 ∨ s.spos.val + n ≤ 4 then s.apos else 0 := by
  induction n generalizing s with
  | zero => simp [squeezeMany]
  | succ n ih =>
    have h1 := squeezeOne_spos s
    have h2 := squeezeOne_apos s
    have h3 := s.spos.isLt
    simp only [squeezeMany, ih, h1, h2]
    by_cases ha : s.spos.val + (n + 1) ≤ 4
    · have c1 : n = 0 ∨ (s.spos.val + 1 - 1) % 4 + 1 + n ≤ 4 := by omega
      have c2 : s.spos.val + 1 ≤ 4 := by omega
      rw [if_pos c1, if_pos c2, if_pos (Or.inr ha)]
    · by_cases hb : s.spos.val + 1 ≤ 4
      · have c1 : ¬ (n = 0 ∨ (s.spos.val + 1 - 1) % 4 + 1 + n ≤ 4) := by omega
        rw [if_neg c1, if_neg (by omega)]
      · simp [hb, ha]

theorem squeezeMany_pcnt (n : Nat) (s : State) :
    (squeezeMany n s).pcnt = s.pcnt + BitVec.ofNat 32 (if n = 0 then 0 else (s.spos.val + n - 1) / 4) := by
  induction n generalizing s with
  | zero => simp [squeezeMany]
  | succ n ih =>
    have h1 := squeezeOne_spos s
    have h2 := squeezeOne_pcnt s
    have h3 := s.spos.isLt
    simp only [squeezeMany, ih, h1, h2]
    rw [BitVec.add_assoc, ← BitVec.ofNat_add]
    congr 2
    split <;> split <;> omega

theorem squeezeMany_out_prefix (n : Nat) (s : State) :
    ∃ l, (squeezeMany n s).out = s.out ++ l ∧ l.length = n := by
  induction n generalizing s with
  | zero => exact ⟨[], by simp [squeezeMany], rfl⟩
  | succ n ih =>
    obtain ⟨v, h1, -⟩ := squeezeOne_out s
    obtain ⟨l, h2, h3⟩ := ih (squeezeOne s)
    exact ⟨v :: l, by simp [squeezeMany, h2, h1], by simp [h3]⟩

theorem squeezeMany_st_lt (n : Nat) {s : State} (h : ∀ k : Fin 5, s.st[k] < s.cfg.p) (k : Fin 5) :
    (squeezeMany n s).st[k] < s.cfg.p := by
  induction n generalizing s with
  | zero => exact h k
  | succ n ih =>
    have := ih (s := squeezeOne s) (by rw [(squeezeOne_frame s).cfg]; exact squeezeOne_st_lt h)
    rwa [(squeezeOne_frame s).cfg] at this

theorem squeezeMany_out_lt (n : Nat) {s : State} (h : ∀ k : Fin 5, s.st[k] < s.cfg.p)
    (ho : ∀ v ∈ s.out, v < s.cfg.p) : ∀ v ∈ (squeezeMany n s).out, v < s.cfg.p := by
  induction n generalizing s with
  | zero => exact ho
  | succ n ih =>
    have hc := (squeezeOne_frame s).cfg
    have hs : ∀ k : Fin 5, (squeezeOne s).st[k] < (squeezeOne s).cfg.p := by rw [hc]; exact squeezeOne_st_lt h
    have := ih (s := squeezeOne s) hs (by
      obtain ⟨w, hw, k, hk⟩ := squeezeOne_out s
      intro v hv
      rw [hw] at hv
      rcases List.mem_append.mp hv with h1 | h1
      · rw [hc]; exact ho v h1
      · rw [List.mem_singleton.mp h1, hk]; exact hs k)
    rwa [hc] at this

theorem squeezeCore_frame (n : Nat) (s : State) : CoreFrame s (squeezeCore n s) := by
  obtain ⟨h1, h2, h3, h4, h5, h6, h7, h8, h9, h10, h11, h12⟩ := squeezeMany_frame n s
  exact ⟨h1, h2, h3, h4, h5, h6, h7, h8, h9, h10, h11, h12⟩

@[simp] theorem squeezeCore_ioc (n : Nat) (s : State) : (squeezeCore n s).ioc = s.ioc + 1 := by
  simp [squeezeCore, squeezeMany_ioc]

theorem squeezeCore_out (n : Nat) (s : State) : (squeezeCore n s).out = (squeezeMany n s).out := rfl

theorem squeezeCore_st (n : Nat) (s : State) : (squeezeCore n s).st = (squeezeMany n s).st := rfl

theorem squeezeCore_pcnt (n : Nat) (s : State) :
    (squeezeCore n s).pcnt = s.pcnt + BitVec.ofNat 32 (if n = 0 then 0 else (s.spos.val + n - 1) / 4) :=
  squeezeMany_pcnt n s

/-! ### Zeroising -/

/-- What `SpongeKill` after a core procedure makes of the state: the frame of both. -/
theorem spongeKill_frame {s t : State} (h : CoreFrame s t) :
    spongeKill t = spongeKill { s with pcnt := t.pcnt } := by
  obtain ⟨h1, h2, h3, h4, -, -, -, h8, h9, h10, h11, h12⟩ := h
  simp [spongeKill, h1, h2, h3, h4, h8, h9, h10, h11, h12]

end Sys2Proof.Machine
end

