-- ==== Sys2Proof/Laws/Hash.lean ====
section
/-! SUPPORT. The state that a whole sponge run and a whole cipher run leave (spec/42_hash.md R181 to R183,
spec/43_cipher.md R202, R203): the sponge context zeroised, the permutations counted, nothing else changed. -/

namespace Sys2Proof.Machine

@[simp] theorem pad_length (m : List Nat) : (pad m).length = paddedLen m.length := by
  simp only [pad, paddedLen, List.length_append, List.length_cons, List.length_replicate]
  omega

/-- The permutations of a sponge run that absorbs `n` elements and squeezes one: `ceil(n / 4)`, and one for `n = 0` (R167). -/
def runPermutations (n : Nat) : Nat := n / 4 + (if n % 4 = 0 then 0 else 4) / 4

/-- The state inside a sponge run, all of it absorbed. -/
theorem absorbed_spos (e : List Nat) (pat : List PatStep) (d : Domain) (s : State) :
    (absorbCore e (spongeInit pat d s)).spos.val = if e.length % 4 = 0 then 0 else 4 := by
  simp [absorbCore_spos]

theorem spongeHash_state (d : Domain) (n : Nat) (e : List Nat) (s : State) :
    (spongeHash d n e s).1 =
      spongeKill { s with pcnt := s.pcnt + BitVec.ofNat 32 (runPermutations e.length) } := by
  have f1 : CoreFrame (spongeInit [.absorb n, .squeeze 1] d s) _ :=
    (absorbCore_frame e (spongeInit [.absorb n, .squeeze 1] d s)).trans (squeezeCore_frame 1 _)
  have h1 : (spongeHash d n e s).1 =
      spongeKill (squeezeCore 1 (absorbCore e (spongeInit [.absorb n, .squeeze 1] d s))) := rfl
  rw [h1, spongeKill_frame f1, squeezeCore_pcnt, absorbCore_pcnt, absorbed_spos]
  simp [spongeKill, spongeInit, runPermutations, BitVec.add_assoc, BitVec.ofNat_add]

/-- The value of a sponge run: the first rate slot after the last absorption, permuted once more when that left a partly
filled chunk. -/
theorem spongeHash_value (d : Domain) (n : Nat) (e : List Nat) (s : State) :
    (spongeHash d n e s).2 =
      let a := absorbCore e (spongeInit [.absorb n, .squeeze 1] d s)
      if e.length % 4 = 0 then a.st[1] else (permutation s.cfg a.st)[1] := by
  have f := absorbCore_frame e (spongeInit [.absorb n, .squeeze 1] d s)
  have hs := absorbed_spos e [.absorb n, .squeeze 1] d s
  have ho : (absorbCore e (spongeInit [.absorb n, .squeeze 1] d s)).out = [] := by simp
  have h1 : (spongeHash d n e s).2 =
      (squeezeOne (absorbCore e (spongeInit [.absorb n, .squeeze 1] d s))).out.headD 0 := rfl
  rw [h1]
  simp only
  unfold squeezeOne
  by_cases h4 : e.length % 4 = 0
  · rw [if_pos h4] at hs
    simp [hs, h4]
  · rw [if_neg h4] at hs
    simp [hs, h4, f.cfg]

theorem encryptCore_state (sx sy nc : Nat) (msg : List Nat) (s : State) :
    spongeKill (encryptCore sx sy nc msg s).1 = spongeKill { s with pcnt := s.pcnt + 2 } := by
  simp [encryptCore, permute, spongeKill, BitVec.add_assoc]

theorem decryptCore_state (sx sy nc : Nat) (c : List Nat) (s : State) :
    spongeKill (decryptCore sx sy nc c s).1 = spongeKill { s with pcnt := s.pcnt + 2 } := by
  simp [decryptCore, permute, spongeKill, BitVec.add_assoc]

/-- The cipher value of an encryption (R202), `a` the state after the first permutation. -/
theorem encryptCore_value (sx sy nc : Nat) (msg : List Nat) (s : State) :
    (encryptCore sx sy nc msg s).2 =
      let a := permutation s.cfg (cipherSeed s.cfg sx sy nc)
      let c := (List.range s.cfg.mcap).map fun i => fadd s.cfg.p (slotAfter a i) (msg.getD i 0)
      c ++ [(permutation s.cfg (overwriteFrom1 a c))[1]] := by
  simp only [encryptCore, permute_st, permute_cfg]

/-- The outcome of a decryption (R203), `a` the state after the first permutation. -/
theorem decryptCore_value (sx sy nc : Nat) (c : List Nat) (s : State) :
    (decryptCore sx sy nc c s).2 =
      let a := permutation s.cfg (cipherSeed s.cfg sx sy nc)
      if feq (permutation s.cfg (overwriteFrom1 a (c.take s.cfg.mcap)))[1] (c.getD s.cfg.mcap 0) then
        some ((List.range s.cfg.mcap).map fun i => fsub s.cfg.p (c.getD i 0) (slotAfter a i))
      else none := by
  simp only [decryptCore, permute_st, permute_cfg]
  split
  · rename_i h; exact if_pos h
  · rename_i h; exact if_neg h

end Sys2Proof.Machine
end

