-- ==== Sys2Proof/Laws/Ops.lean ====
section
/-! SUPPORT. What the end of a command says (spec/30_encoding.md R97, spec/60_exceptions.md R254), once for each of the
shared operations `completeWith`, `complete` and `raise`, and what `SpongeKill` leaves (spec/41_sponge.md R158). -/

namespace Sys2Proof.Machine

/-! ### The epilogue -/

theorem stickyAfter_getLsbD (c : ResultCode) (e : Half) (b : Nat) :
    (stickyAfter c e).getLsbD b = (e.getLsbD b || (decide (b = codeNum c) && decide (codeNum c ≠ 0))) := by
  have one : ∀ n : Nat, n < 16 → (1#16 <<< n).getLsbD b = decide (b = n) := by
    intro n hn
    by_cases h : b = n
    · subst h; simp [hn]
    · by_cases h2 : b < n
      · simp [h2, h]
      · have h3 : b - n ≠ 0 := by omega
        simp [h2, h, h3]
  unfold stickyAfter
  split
  · rename_i h; simp [h]
  · rename_i h
    rw [BitVec.getLsbD_or, one _ (by cases c <;> simp [codeNum])]
    simp [h]

theorem codeNum_eq_illegal {c : ResultCode} (h : c ≠ .illegalCommand) : decide (c = .illegalCommand) = false := by
  simp [h]

/-- The epilogue of a command that ends with a code below 8, over a body `u` that left `RSP`, `ESTICKY`, `CP` and `HALT`
as `s` had them. -/
theorem epilogue_ended {c : ResultCode} (hc : c ≠ .illegalCommand) (i : Instr) (cnt : Byte) (payload : List Byte)
    {s u : State} (hcfg : u.cfg = s.cfg) (hrsp : u.rsp = s.rsp) (hcp : u.cp = s.cp) (hh : u.halt = s.halt)
    (he : u.esticky = s.esticky) :
    Ended c i cnt payload s (epilogue c i.opcode (i.packetLen u.cfg.mcap) cnt payload u) :=
  ⟨⟨by simp [hrsp, responsePacket, codeByte], rfl, by simp [hc, hcp, hcfg], by simp [hc, hh]⟩,
    fun b => by simp [stickyAfter_getLsbD, he]⟩

theorem completeWith_ended (i : Instr) (cnt : Byte) (payload : List Byte) {s u : State} (hcfg : u.cfg = s.cfg)
    (hrsp : u.rsp = s.rsp) (hcp : u.cp = s.cp) (hh : u.halt = s.halt) (he : u.esticky = s.esticky) :
    Ended .ok i cnt payload s (completeWith i cnt payload u) :=
  epilogue_ended (by decide) i cnt payload hcfg hrsp hcp hh he

theorem complete_ended (i : Instr) {s u : State} (hcfg : u.cfg = s.cfg) (hrsp : u.rsp = s.rsp) (hcp : u.cp = s.cp)
    (hh : u.halt = s.halt) (he : u.esticky = s.esticky) : Ended .ok i 0 [] s (complete i u) :=
  completeWith_ended i 0 [] hcfg hrsp hcp hh he

theorem raise_ended (i : Instr) {c : ResultCode} (hc : c ≠ .illegalCommand) {s u : State} (hcfg : u.cfg = s.cfg)
    (hrsp : u.rsp = s.rsp) (hcp : u.cp = s.cp) (hh : u.halt = s.halt) (he : u.esticky = s.esticky) :
    Ended c i 0 [] s (raise i c u) :=
  epilogue_ended hc i 0 [] hcfg hrsp hcp hh he

/-! ### Frames -/

theorem paramsKept_of {s t : State} (h1 : t.cfg = s.cfg) (h2 : t.cs = s.cs) : ParamsKept s t :=
  ⟨h1, h2, fun _ => by rw [h2]⟩

/-- The epilogue touches none of the sponge context. -/
theorem epilogue_spongeKept (c : ResultCode) (echo cnt : Byte) (len : Nat) (payload : List Byte) {s u : State}
    (h : SpongeKept s u) : SpongeKept s (epilogue c echo len cnt payload u) := by
  obtain ⟨h1, h2, h3, h4, h5, h6, h7, h8⟩ := h
  exact ⟨h1, h2, h3, h4, h5, h6, h7, h8⟩

theorem SpongeKept.rfl' (s : State) : SpongeKept s s := ⟨rfl, rfl, rfl, rfl, rfl, rfl, rfl, rfl⟩

/-- R254: a command that ends with an error and whose body changed nothing. -/
theorem raise_onlyEnded (i : Instr) {c : ResultCode} (hc : c ≠ .illegalCommand) (s : State) :
    OnlyEnded c i s (raise i c s) :=
  ⟨raise_ended i hc rfl rfl rfl rfl rfl, epilogue_spongeKept _ _ _ _ _ (SpongeKept.rfl' s), paramsKept_of rfl rfl,
    rfl, rfl, rfl⟩

/-- R158: what `SpongeKill` leaves. -/
theorem spongeKill_cleared (s : State) : SpongeCleared (spongeKill s) :=
  ⟨fun k => by simp, rfl, rfl, rfl, rfl, rfl, rfl, rfl⟩

theorem epilogue_cleared (c : ResultCode) (echo cnt : Byte) (len : Nat) (payload : List Byte) {u : State}
    (h : SpongeCleared u) : SpongeCleared (epilogue c echo len cnt payload u) := by
  obtain ⟨h1, h2, h3, h4, h5, h6, h7, h8⟩ := h
  exact ⟨h1, h2, h3, h4, h5, h6, h7, h8⟩

/-- R254: a command that ends with an error that kills the sponge, its body changing nothing else. -/
theorem raise_killedWith (i : Instr) {c : ResultCode} (hc : c ≠ .illegalCommand) (s : State) :
    KilledWith c i s (raise i c (spongeKill s)) :=
  ⟨raise_ended i hc rfl rfl rfl rfl rfl, epilogue_cleared _ _ _ _ _ (spongeKill_cleared s), paramsKept_of rfl rfl,
    rfl, rfl, rfl⟩

end Sys2Proof.Machine
end

