-- ==== Sys2Proof/Laws/Registers.lean ====
section
/-! SUPPORT. Reading the register file (spec/10_state.md R22) before and after a write. -/

namespace Sys2Proof.Machine

theorem regOk_iff (i : Nat) : regOk i = true ↔ i < 32 := by simp [regOk, NVR]

theorem rangeOk_iff (b n : Nat) : rangeOk b n = true ↔ b < 32 ∧ b + n ≤ 32 := by simp [rangeOk, NVR]

theorem regOk_eq_false (i : Nat) : regOk i = false ↔ 32 ≤ i := by simp [regOk, NVR]

theorem rangeOk_eq_false (b n : Nat) : rangeOk b n = false ↔ 32 ≤ b ∨ 32 < b + n := by
  simp only [rangeOk, NVR, Bool.and_eq_false_iff, decide_eq_false_iff_not]
  omega

theorem vrAt_eq (s : State) {i : Nat} (h : i < 32) : s.vrAt i = s.vr[i] := by simp [State.vrAt, h]

@[simp] theorem vrRange_length (s : State) (b n : Nat) : (s.vrRange b n).length = n := by simp [State.vrRange]

theorem vrRange_getD (s : State) (b n k : Nat) : (s.vrRange b n).getD k 0 = if k < n then s.vrAt (b + k) else 0 := by
  by_cases h : k < n <;> simp [State.vrRange, List.getD, h]

/-- The register file after a write, register by register. -/
theorem writeRegs_getElem (vr : Vector Nat 32) (b : Nat) (xs : List Nat) (k : Fin 32) :
    (writeRegs vr b xs)[k] = if b ≤ k.val ∧ k.val < b + xs.length then xs.getD (k.val - b) 0 else vr[k] := by
  have e : (writeRegs vr b xs)[k] = if b ≤ k.val then (xs[k.val - b]?).getD vr[k] else vr[k] := by
    simp [writeRegs]
  rw [e]
  by_cases h1 : b ≤ k.val
  · by_cases h2 : k.val < b + xs.length
    · have h3 : k.val - b < xs.length := by omega
      simp [h1, h2, h3, List.getD]
    · have h3 : xs.length ≤ k.val - b := by omega
      simp [h1, h2, h3]
  · simp [h1]

@[simp] theorem vrWrite_vr (s : State) (b : Nat) (xs : List Nat) : (s.vrWrite b xs).vr = writeRegs s.vr b xs := by
  simp only [State.vrWrite]

@[simp] theorem vrSet_vr (s : State) (i v : Nat) : (s.vrSet i v).vr = writeRegs s.vr i [v] := by
  simp only [State.vrSet, vrWrite_vr]

theorem vrBecomes_of {s t : State} {b : Nat} {xs : List Nat} (h : t.vr = writeRegs s.vr b xs) : VrBecomes s t b xs :=
  fun k => by rw [h, writeRegs_getElem]

/-- A register keeps its canonical value under a write of canonical values. -/
theorem writeRegs_lt {p : Nat} {vr : Vector Nat 32} (h : ∀ k : Fin 32, vr[k] < p) (b : Nat) {xs : List Nat}
    (hx : ∀ x ∈ xs, x < p) (k : Fin 32) : (writeRegs vr b xs)[k] < p := by
  rw [writeRegs_getElem]
  split
  · rename_i h2
    have h3 : k.val - b < xs.length := by omega
    rw [List.getD_eq_getElem _ _ h3]
    exact hx _ (List.getElem_mem h3)
  · exact h k

theorem vrAt_lt {s : State} (hp : 0 < s.cfg.p) (h : ∀ k : Fin 32, s.vr[k] < s.cfg.p) (i : Nat) :
    s.vrAt i < s.cfg.p := by
  by_cases hi : i < 32
  · rw [vrAt_eq s hi]; exact h ⟨i, hi⟩
  · simp [State.vrAt, hi, hp]

theorem vrRange_lt {s : State} (hp : 0 < s.cfg.p) (h : ∀ k : Fin 32, s.vr[k] < s.cfg.p) (b n : Nat) :
    ∀ x ∈ s.vrRange b n, x < s.cfg.p := by
  intro x hx
  simp only [State.vrRange, List.mem_map] at hx
  obtain ⟨i, -, rfl⟩ := hx
  exact vrAt_lt hp h i

end Sys2Proof.Machine
end

