-- ==== Sys2Proof/Laws/Exec.lean ====
section
/-! SUPPORT. Everything that all commands have in common (spec/30_encoding.md R94 (3), (4), R97): a command is a body and
then the epilogue, exactly once, with one of its codes. -/

namespace Sys2Proof.Machine

/-- What the body of the command `i`, run in `s`, leaves for the epilogue to write, and what no body touches. -/
structure BodyFrame (i : Instr) (s u : State) : Prop where
  cfg : u.cfg = s.cfg
  cs : u.cs = s.cs
  rsp : u.rsp = s.rsp
  lastcode : u.lastcode = s.lastcode
  halt : u.halt = s.halt
  cp : u.cp = s.cp
  esticky : u.esticky = if i = .clrerr then 0 else s.esticky

/-- A command's outcome: a body `u`, and the epilogue with one of the command's codes. -/
structure ExecForm (i : Instr) (s t : State) (c : ResultCode) (cnt : Byte) (payload : List Byte) (u : State) : Prop where
  result : t = epilogue c i.opcode (i.packetLen s.cfg.mcap) cnt payload u
  body : BodyFrame i s u
  code : c ∈ codesOf i
  error : c ≠ .ok → payload = [] ∧ cnt = 0
  payload_mod : payload.length % 4 = 0
  payload_le : payload.length ≤ 160

theorem form_raise {i : Instr} {s u : State} {c : ResultCode} (h : BodyFrame i s u) (hc : c ∈ codesOf i) :
    ExecForm i s (raise i c u) c 0 [] u :=
  ⟨by simp [raise, h.cfg], h, hc, fun _ => ⟨rfl, rfl⟩, by simp, by simp⟩

theorem form_completeWith {i : Instr} {s u : State} {cnt : Byte} {payload : List Byte} (h : BodyFrame i s u)
    (hc : .ok ∈ codesOf i) (h4 : payload.length % 4 = 0) (hl : payload.length ≤ 160) :
    ExecForm i s (completeWith i cnt payload u) .ok cnt payload u :=
  ⟨by simp [completeWith, h.cfg], h, hc, fun h => absurd rfl h, h4, hl⟩

theorem form_complete {i : Instr} {s u : State} (h : BodyFrame i s u) (hc : .ok ∈ codesOf i) :
    ExecForm i s (complete i u) .ok 0 [] u := form_completeWith h hc (by simp) (by simp)

theorem BodyFrame.of_eq {i : Instr} {s u : State} (hi : i ≠ .clrerr) (h1 : u.cfg = s.cfg) (h2 : u.cs = s.cs)
    (h3 : u.rsp = s.rsp) (h4 : u.lastcode = s.lastcode) (h5 : u.halt = s.halt) (h6 : u.cp = s.cp)
    (h7 : u.esticky = s.esticky) : BodyFrame i s u := ⟨h1, h2, h3, h4, h5, h6, by simp [hi, h7]⟩

theorem CoreFrame.body {i : Instr} {s u : State} (hi : i ≠ .clrerr) (h : CoreFrame s u) : BodyFrame i s u :=
  .of_eq hi h.cfg h.cs h.rsp h.lastcode h.halt h.cp h.esticky

theorem flatMap_enc32_length (l : List Nat) : (l.flatMap enc32).length = 32 * l.length := by
  induction l with
  | nil => rfl
  | cons x l ih => simp [ih]; ring

/-- Every command answers a next state, of this form (R94, R97, R251). -/
theorem exec_form (i : Instr) (s : State) :
    ∃ t c cnt payload u, exec i s = .next t ∧ ExecForm i s t c cnt payload u := by
  have same : ∀ {i : Instr}, i ≠ .clrerr → BodyFrame i s s := fun h => .of_eq h rfl rfl rfl rfl rfl rfl rfl
  have kill : ∀ {i : Instr} {u : State}, i ≠ .clrerr → BodyFrame i s u → BodyFrame i s (spongeKill u) := by
    intro i u hi h
    exact .of_eq hi h.cfg h.cs h.rsp h.lastcode h.halt h.cp (by simpa [hi] using h.esticky)
  have regs : ∀ {i : Instr} {u : State} (b : Nat) (xs : List Nat), i ≠ .clrerr → BodyFrame i s u →
      BodyFrame i s (u.vrWrite b xs) := by
    intro i u b xs hi h
    exact .of_eq hi (by simpa using h.cfg) (by simpa using h.cs) (by simpa using h.rsp) (by simpa using h.lastcode)
      (by simpa using h.halt) (by simpa using h.cp) (by simpa [hi] using h.esticky)
  have mcap := s.cfg.mcap_bounds.2
  have hash : ∀ {i : Instr} (d : Domain) (n : Nat) (e : List Nat) (vd : Nat), i ≠ .clrerr →
      BodyFrame i s ((spongeHash d n e s).1.vrSet vd (spongeHash d n e s).2) := by
    intro i d n e vd hi
    rw [spongeHash_state]
    exact regs _ _ hi (kill hi (.of_eq hi rfl rfl rfl rfl rfl rfl rfl))
  have err : ∀ {i : Instr} {c : ResultCode}, i ≠ .clrerr → c ∈ codesOf i →
      ∃ t c' cnt payload u, Host.Outcome.next (φ := Fault) (ρ := Refusal) (raise i c s) = .next t ∧
        ExecForm i s t c' cnt payload u :=
    fun hi hc => ⟨_, _, _, _, _, rfl, form_raise (same hi) hc⟩
  have errKill : ∀ {i : Instr} {c : ResultCode}, i ≠ .clrerr → c ∈ codesOf i →
      ∃ t c' cnt payload u, Host.Outcome.next (φ := Fault) (ρ := Refusal) (raise i c (spongeKill s)) = .next t ∧
        ExecForm i s t c' cnt payload u :=
    fun hi hc => ⟨_, _, _, _, _, rfl, form_raise (kill hi (same hi)) hc⟩
  have done : ∀ {i : Instr} {u : State}, .ok ∈ codesOf i → BodyFrame i s u →
      ∃ t c cnt payload v, Host.Outcome.next (φ := Fault) (ρ := Refusal) (complete i u) = .next t ∧
        ExecForm i s t c cnt payload v :=
    fun hc h => ⟨_, _, _, _, _, rfl, form_complete h hc⟩
  cases i with
  | nop => exact done (by simp [codesOf]) (same (by simp))
  | ldi vd imm =>
    simp only [exec, execLdi]
    split
    · exact err (by simp) (by simp [codesOf])
    · exact done (by simp [codesOf]) (regs _ _ (by simp) (same (by simp)))
  | lde vd payload =>
    simp only [exec, execLde]
    split
    · exact err (by simp) (by simp [codesOf])
    · split
      · exact err (by simp) (by simp [codesOf])
      · exact done (by simp [codesOf]) (regs _ _ (by simp) (same (by simp)))
  | ste vs =>
    simp only [exec, execSte]
    split
    · exact err (by simp) (by simp [codesOf])
    · exact ⟨_, _, _, _, _, rfl, form_completeWith (same (by simp)) (by simp [codesOf]) (by simp) (by simp)⟩
  | ldc vd payload =>
    simp only [exec, execLdc]
    split
    · exact err (by simp) (by simp [codesOf])
    · split
      · exact err (by simp) (by simp [codesOf])
      · exact done (by simp [codesOf]) (regs _ _ (by simp) (same (by simp)))
  | stc vs =>
    simp only [exec, execStc]
    split
    · exact err (by simp) (by simp [codesOf])
    · exact ⟨_, _, _, _, _, rfl, form_completeWith (same (by simp)) (by simp [codesOf])
        (by simp; omega) (by simp; omega)⟩
  | ldst vs =>
    simp only [exec, execLdst]
    split
    · exact err (by simp) (by simp [codesOf])
    · split
      · exact err (by simp) (by simp [codesOf])
      · exact done (by simp [codesOf]) (.of_eq (by simp) rfl rfl rfl rfl rfl rfl rfl)
  | stst vd =>
    simp only [exec, execStst]
    split
    · exact err (by simp) (by simp [codesOf])
    · split
      · exact err (by simp) (by simp [codesOf])
      · exact done (by simp [codesOf]) (regs _ _ (by simp) (same (by simp)))
  | trunc vs vd =>
    simp only [exec, execTrunc]
    split
    · exact err (by simp) (by simp [codesOf])
    · exact done (by simp [codesOf]) (regs _ _ (by simp) (same (by simp)))
  | perm =>
    simp only [exec, execPerm]
    split
    · exact err (by simp) (by simp [codesOf])
    · exact done (by simp [codesOf]) (.of_eq (by simp) rfl rfl rfl rfl rfl rfl rfl)
  | pclr => exact done (by simp [codesOf]) (.of_eq (by simp) rfl rfl rfl rfl rfl rfl rfl)
  | pabs n =>
    simp only [exec, execPabs, stageStep]
    split
    · exact err (by simp) (by simp [codesOf])
    · exact done (by simp [codesOf]) (.of_eq (by simp) rfl rfl rfl rfl rfl rfl rfl)
  | psqz n =>
    simp only [exec, execPsqz, stageStep]
    split
    · exact err (by simp) (by simp [codesOf])
    · exact done (by simp [codesOf]) (.of_eq (by simp) rfl rfl rfl rfl rfl rfl rfl)
  | start d =>
    simp only [exec, execStart]
    split
    · exact err (by simp) (by simp [codesOf])
    · split
      · exact err (by simp) (by simp [codesOf])
      · split
        · exact err (by simp) (by simp [codesOf])
        · split
          · exact err (by simp) (by simp [codesOf])
          · exact done (by simp [codesOf]) (.of_eq (by simp) rfl rfl rfl rfl rfl rfl rfl)
  | absorb vs n m =>
    simp only [exec, execAbsorb]
    split
    · exact err (by simp) (by simp [codesOf])
    · split
      · exact err (by simp) (by simp [codesOf])
      · split
        · exact errKill (by simp) (by simp [codesOf])
        · split
          · exact errKill (by simp) (by simp [codesOf])
          · exact done (by simp [codesOf]) ((absorbCore_frame _ s).body (by simp))
  | squeeze n =>
    simp only [exec, execSqueeze]
    split
    · exact err (by simp) (by simp [codesOf])
    · split
      · exact errKill (by simp) (by simp [codesOf])
      · exact done (by simp [codesOf]) ((squeezeCore_frame _ s).body (by simp))
  | finish vd =>
    simp only [exec, execFinish]
    split
    · exact err (by simp) (by simp [codesOf])
    · split
      · exact err (by simp) (by simp [codesOf])
      · split
        · exact errKill (by simp) (by simp [codesOf])
        · split
          · exact err (by simp) (by simp [codesOf])
          · exact ⟨_, _, _, _, _, rfl, form_completeWith (kill (by simp) (regs _ _ (by simp) (same (by simp))))
              (by simp [codesOf]) (by simp) (by simp)⟩
  | abort => exact done (by simp [codesOf]) (kill (by simp) (same (by simp)))
  | hash vs n vd =>
    simp only [exec, execHash, hashInto]
    split
    · exact err (by simp) (by simp [codesOf])
    · split
      · exact err (by simp) (by simp [codesOf])
      · exact done (by simp [codesOf]) (hash _ _ _ _ (by simp))
  | mhash2 vs m vd =>
    simp only [exec, execMhash2, merkleHash, hashInto]
    split
    · exact err (by simp) (by simp [codesOf])
    · split
      · exact err (by simp) (by simp [codesOf])
      · split
        · exact err (by simp) (by simp [codesOf])
        · exact done (by simp [codesOf]) (hash _ _ _ _ (by simp))
  | mhash4 vs m vd =>
    simp only [exec, execMhash4, merkleHash, hashInto]
    split
    · exact err (by simp) (by simp [codesOf])
    · split
      · exact err (by simp) (by simp [codesOf])
      · split
        · exact err (by simp) (by simp [codesOf])
        · exact done (by simp [codesOf]) (hash _ _ _ _ (by simp))
  | enc vs mlen vd =>
    simp only [exec, execEnc]
    split
    · exact err (by simp) (by simp [codesOf])
    · split
      · exact err (by simp) (by simp [codesOf])
      · rw [encryptCore_state]
        exact done (by simp [codesOf]) (regs _ _ (by simp) (kill (by simp) (.of_eq (by simp) rfl rfl rfl rfl rfl rfl rfl)))
  | dec vs vd =>
    simp only [exec, execDec]
    split
    · exact err (by simp) (by simp [codesOf])
    · split
      · exact err (by simp) (by simp [codesOf])
      · rw [decryptCore_state]
        split
        · exact ⟨_, _, _, _, _, rfl, form_raise (kill (by simp) (.of_eq (by simp) rfl rfl rfl rfl rfl rfl rfl))
            (by simp [codesOf])⟩
        · exact done (by simp [codesOf]) (regs _ _ (by simp) (kill (by simp) (.of_eq (by simp) rfl rfl rfl rfl rfl rfl rfl)))
  | rdsr csr =>
    simp only [exec, execRdsr]
    split
    · exact err (by simp) (by simp [codesOf])
    · exact ⟨_, _, _, _, _, rfl, form_completeWith (same (by simp)) (by simp [codesOf]) (by simp) (by simp)⟩
  | clrerr => exact done (by simp [codesOf]) ⟨rfl, rfl, rfl, rfl, rfl, rfl, rfl⟩

end Sys2Proof.Machine
end

