-- ==== Sys2Proof/Laws/PerInstr.lean ====
section
/-! SUPPORT. What holds of every instruction as syntax, one lemma per constructor: the shape of its packet
(spec/30_encoding.md R90, R91, R98). -/

namespace Sys2Proof.Laws.PacketShape

/-- A packet begins with the opcode byte of R98; its length is a multiple of four, at least a word, and at most the
longest packet of any configuration. -/
def Statement (i : Instr) : Prop :=
  (encode i).head? = some i.opcode ∧
    ∀ mcap, mcap ≤ 4 → i.packetLen mcap % 4 = 0 ∧ 4 ≤ i.packetLen mcap ∧ i.packetLen mcap ≤ longestPacket

/-- The second half of the statement, from the laws of `packetLen`. -/
theorem of_head {i : Instr} (h : (encode i).head? = some i.opcode) : Statement i :=
  ⟨h, fun mcap hm => ⟨packetLen_mod i mcap, packetLen_ge i mcap, packetLen_le i hm⟩⟩

theorem nop : Statement (.nop) := of_head rfl
theorem ldi (vd : Byte) (imm : Half) : Statement (.ldi vd imm) := of_head rfl
theorem lde (vd : Byte) (payload : List Byte) : Statement (.lde vd payload) := of_head rfl
theorem ste (vs : Byte) : Statement (.ste vs) := of_head rfl
theorem ldc (vd : Byte) (payload : List Byte) : Statement (.ldc vd payload) := of_head rfl
theorem stc (vs : Byte) : Statement (.stc vs) := of_head rfl
theorem ldst (vs : Byte) : Statement (.ldst vs) := of_head rfl
theorem stst (vd : Byte) : Statement (.stst vd) := of_head rfl
theorem trunc (vs : Byte) (vd : Byte) : Statement (.trunc vs vd) := of_head rfl
theorem perm : Statement (.perm) := of_head rfl
theorem pclr : Statement (.pclr) := of_head rfl
theorem pabs (n : Byte) : Statement (.pabs n) := of_head rfl
theorem psqz (n : Byte) : Statement (.psqz n) := of_head rfl
theorem start (d : Byte) : Statement (.start d) := of_head rfl
theorem absorb (vs : Byte) (n : Byte) (m : Byte) : Statement (.absorb vs n m) := of_head rfl
theorem squeeze (n : Byte) : Statement (.squeeze n) := of_head rfl
theorem finish (vd : Byte) : Statement (.finish vd) := of_head rfl
theorem abort : Statement (.abort) := of_head rfl
theorem hash (vs : Byte) (n : Byte) (vd : Byte) : Statement (.hash vs n vd) := of_head rfl
theorem mhash2 (vs : Byte) (m : Byte) (vd : Byte) : Statement (.mhash2 vs m vd) := of_head rfl
theorem mhash4 (vs : Byte) (m : Byte) (vd : Byte) : Statement (.mhash4 vs m vd) := of_head rfl
theorem enc (vs : Byte) (mlen : Byte) (vd : Byte) : Statement (.enc vs mlen vd) := of_head rfl
theorem dec (vs : Byte) (vd : Byte) : Statement (.dec vs vd) := of_head rfl
theorem rdsr (csr : Byte) : Statement (.rdsr csr) := of_head rfl
theorem clrerr : Statement (.clrerr) := of_head rfl

end Sys2Proof.Laws.PacketShape
end

