-- ==== Sys2Proof/Laws/Tables.lean ====
section
/-! SUPPORT. Reading the table ROM (spec/20_memory.md R61): its four limbs make one little-endian element of 32 bytes. -/

namespace Sys2Proof.Machine

/-- The limb order of R61 is the byte order of R62. -/
theorem tableElem_eq_leNat {tr : List Byte} {a : Nat} (h : a + 32 ≤ tr.length) :
    tableElem tr a = leNat (tableRead tr a 32) := by
  have parts : tableRead tr a 32 = tableRead tr (a + 8 * 0) 8 ++ (tableRead tr (a + 8 * 1) 8 ++
      (tableRead tr (a + 8 * 2) 8 ++ tableRead tr (a + 8 * 3) 8)) := by
    simp only [tableRead, ← List.drop_drop]
    rw [show 32 = 8 + (8 + (8 + 8)) by rfl]
    simp only [List.take_add]
    simp
  have len : ∀ i, i < 4 → (tableRead tr (a + 8 * i) 8).length = 8 := by
    intro i hi
    simp only [tableRead, List.length_take, List.length_drop]
    omega
  rw [parts, leNat_append, leNat_append, leNat_append, len 0 (by omega), len 1 (by omega), len 2 (by omega)]
  simp only [tableElem, tableLimb]
  norm_num
  ring

end Sys2Proof.Machine
end

