-- ==== Sys2Proof/Machine/Assembler.lean ====
section
/-! DEFINITION. The assembly language of spec/30_encoding.md R102 and its pseudo-instructions R103: from a source line to
the commands it stands for. It is no part of the machine: no definition of the machine uses it. -/

namespace Sys2Proof.Machine

/-- The pieces of a source line. -/
inductive Token where
  | word (w : String)
  | comma
  | leftBracket
  | rightBracket
deriving DecidableEq, Repr

/-- A finished word, if any, before the tokens that follow it. `acc` is the word's characters, last first. -/
def flushWord (acc : List Char) (rest : List Token) : List Token :=
  if acc.isEmpty then rest else .word (String.ofList acc.reverse) :: rest

/-- The tokens of a line; a comment runs from `;` to the end of the line (R102). -/
def tokensFrom : List Char → List Char → List Token
  | [], acc => flushWord acc []
  | ch :: rest, acc =>
    if ch = ';' then flushWord acc []
    else if ch = ',' then flushWord acc (.comma :: tokensFrom rest [])
    else if ch = '[' then flushWord acc (.leftBracket :: tokensFrom rest [])
    else if ch = ']' then flushWord acc (.rightBracket :: tokensFrom rest [])
    else if ch.isWhitespace then flushWord acc (tokensFrom rest [])
    else tokensFrom rest (ch :: acc)

/-- The tokens of a source line. -/
def tokens (line : String) : List Token := tokensFrom line.toList []

/-- The value of a decimal or hexadecimal digit; a hexadecimal one in either case (DESIGN CHOICE, log entry 15). -/
def digitValue (ch : Char) : Option Nat :=
  if '0' ≤ ch ∧ ch ≤ '9' then some (ch.toNat - '0'.toNat)
  else if 'a' ≤ ch ∧ ch ≤ 'f' then some (ch.toNat - 'a'.toNat + 10)
  else if 'A' ≤ ch ∧ ch ≤ 'F' then some (ch.toNat - 'A'.toNat + 10)
  else none

/-- The digits of a number in the base `base`, after the value `acc` of those before them. -/
def digitsValue (base : Nat) : List Char → Nat → Option Nat
  | [], acc => some acc
  | ch :: rest, acc =>
    match digitValue ch with
    | some d => if d < base then digitsValue base rest (acc * base + d) else none
    | none => none

/-- A number: at least one digit, decimal, or hexadecimal after `0x` (R102). -/
def numberChars : List Char → Option Nat
  | [] => none
  | '0' :: 'x' :: d :: rest => digitsValue 16 (d :: rest) 0
  | d :: rest => digitsValue 10 (d :: rest) 0

/-- A number below `bound`. -/
def numberBelow (bound : Nat) (w : String) : Option Nat :=
  match numberChars w.toList with
  | some n => if n < bound then some n else none
  | none => none

/-- A count (R102): a number of 8 bits. -/
def countOf (w : String) : Option Byte := (numberBelow 256 w).map (BitVec.ofNat 8)

/-- A vector register, `v0` to `v31` (R102). -/
def regOf (w : String) : Option Byte :=
  match w.toList with
  | 'v' :: d :: rest =>
    match digitsValue 10 (d :: rest) 0 with
    | some n => if n < NVR then some (BitVec.ofNat 8 n) else none
    | none => none
  | _ => none

/-- A domain, by name (R102). -/
def domainWord (w : String) : Option Byte :=
  match w with
  | "MERKLE2" => some 0
  | "MERKLE4" => some 1
  | "ENCRYPTION" => some 2
  | "OTHER" => some 3
  | _ => none

/-- A control and status register, by name (R32, R102). -/
def csrWord (w : String) : Option Byte :=
  match w with
  | "ID" => some 0
  | "CAPS" => some 1
  | "MODE" => some 2
  | "DOM" => some 3
  | "PLEN" => some 4
  | "APLEN" => some 5
  | "IOC" => some 6
  | "APOS" => some 7
  | "SPOS" => some 8
  | "OLEN" => some 9
  | "ESTICKY" => some 10
  | "LASTCODE" => some 11
  | "PCNT" => some 12
  | "CP" => some 13
  | _ => none

/-- An element payload: a number below `P`, encoded with `enc32` (R102); `0x` numbers are accepted here too (DESIGN CHOICE,
log entry 15). -/
def elementBytes (c : Config) (w : String) : Option (List Byte) := (numberBelow c.p w).map enc32

/-- The elements of a bracketed list from its first element on: their encodings in order, and how many there are. -/
def elementList (c : Config) : List Token → Option (List Byte × Nat)
  | [.word w, .rightBracket] => (elementBytes c w).map fun b => (b, 1)
  | .word w :: .comma :: rest =>
    match elementBytes c w, elementList c rest with
    | some b, some (bs, n) => some (b ++ bs, n + 1)
    | _, _ => none
  | _ => none

/-- An item of `PATTERN`: `A<n>` or `S<n>` (R103); `<n>` may be a `0x` number (DESIGN CHOICE, log entry 15). -/
def patternItem (w : String) : Option Instr :=
  match w.toList with
  | 'A' :: ds => (countOf (String.ofList ds)).map .pabs
  | 'S' :: ds => (countOf (String.ofList ds)).map .psqz
  | _ => none

/-- The items of `PATTERN`, in order (R103). -/
def patternItems : List Token → Option (List Instr)
  | [.word w] => (patternItem w).map fun i => [i]
  | .word w :: .comma :: rest =>
    match patternItem w, patternItems rest with
    | some i, some is => some (i :: is)
    | _, _ => none
  | _ => none

/-- The commands of a line with the mnemonic `mn` and the operand tokens `ops`: R102's operand orders and R103's
pseudo-instructions. -/
def assembleOperands (c : Config) (mn : String) (ops : List Token) : Option (List Instr) :=
  match mn, ops with
  | "NOP", [] => some [.nop]
  | "LDI", [.word d, .comma, .word n] => do
    some [.ldi (← regOf d) (BitVec.ofNat 16 (← numberBelow 65536 n))]
  | "LDE", [.word d, .comma, .word e] => do some [.lde (← regOf d) (← elementBytes c e)]
  | "STE", [.word v] => do some [.ste (← regOf v)]
  | "LDC", .word d :: .comma :: .leftBracket :: es => do
    let r ← elementList c es
    if r.2 = c.mcap + 1 then some [.ldc (← regOf d) r.1] else none
  | "STC", [.word v] => do some [.stc (← regOf v)]
  | "LDST", [.word v] => do some [.ldst (← regOf v)]
  | "STST", [.word d] => do some [.stst (← regOf d)]
  | "TRUNC", [.word d, .comma, .word v] => do some [.trunc (← regOf v) (← regOf d)]
  | "PERM", [] => some [.perm]
  | "PCLR", [] => some [.pclr]
  | "PABS", [.word n] => do some [.pabs (← countOf n)]
  | "PSQZ", [.word n] => do some [.psqz (← countOf n)]
  | "START", [.word d] => do some [.start (← domainWord d)]
  | "ABSORB", [.word v, .comma, .word n, .comma, .word m] => do
    some [.absorb (← regOf v) (← countOf n) (← countOf m)]
  | "SQUEEZE", [.word n] => do some [.squeeze (← countOf n)]
  | "FINISH", [.word d] => do some [.finish (← regOf d)]
  | "ABORT", [] => some [.abort]
  | "HASH", [.word d, .comma, .word v, .comma, .word n] => do
    some [.hash (← regOf v) (← countOf n) (← regOf d)]
  | "MHASH2", [.word d, .comma, .word v, .comma, .word m] => do
    some [.mhash2 (← regOf v) (← countOf m) (← regOf d)]
  | "MHASH4", [.word d, .comma, .word v, .comma, .word m] => do
    some [.mhash4 (← regOf v) (← countOf m) (← regOf d)]
  | "ENC", [.word d, .comma, .word v, .comma, .word n] => do
    some [.enc (← regOf v) (← countOf n) (← regOf d)]
  | "DEC", [.word d, .comma, .word v] => do some [.dec (← regOf v) (← regOf d)]
  | "RDSR", [.word r] => do some [.rdsr (← csrWord r)]
  | "CLRERR", [] => some [.clrerr]
  | "LDZ", [.word d] => do some [.ldi (← regOf d) 0]
  | "LD1", [.word d] => do some [.ldi (← regOf d) 1]
  | "HASH2", [.word d, .comma, .word v] => do some [.mhash2 (← regOf v) 2 (← regOf d)]
  | "HASH4", [.word d, .comma, .word v] => do some [.mhash4 (← regOf v) 4 (← regOf d)]
  | "ABSORB", [.word v, .comma, .word n] => do some [.absorb (← regOf v) (← countOf n) (← countOf n)]
  | "PATTERN", ops => (patternItems ops).map fun is => .pclr :: is
  | _, _ => none

/-- The commands of one source line; a line with no mnemonic has none (R102). -/
def assembleLine (c : Config) (line : String) : Option (List Instr) :=
  match tokens line with
  | [] => some []
  | .word mn :: ops => assembleOperands c mn ops
  | _ => none

/-- The command stream bytes of a program, one command a line (R102). -/
def assemble (c : Config) : List String → Option (List Byte)
  | [] => some []
  | line :: rest =>
    match assembleLine c line, assemble c rest with
    | some is, some bs => some (is.flatMap encode ++ bs)
    | _, _ => none

end Sys2Proof.Machine
end

