-- ==== Sys2Proof/Tests/Slice0.lean ====
section
/-! SUPPORT. Tests. Part 1: ill-formed terms that the check refuses, words written out from spec/30_encoding.md R98, lines of
assembly. Part 2: single steps and operations on the vectors of spec/95_test_vectors.md, whose ids and programs the
docstrings name, under its configuration `TOY31`; no expected value comes from the model. Part 3: for every statement with
hypotheses, concrete states and operands that meet them, clause by clause, at boundary values. -/

namespace Sys2Proof.Tests

open Sys2Proof.Machine

-- One theorem after the other: each kernel evaluation waits for those before it, and every wait would hold a thread.
set_option Elab.async false

/-- A machine with `TOY31`, right after reset, with the command stream `bs`. -/
def machine (bs : List Byte) : State := State.resetWith Config.toy31 (Memory.ofBytes bs)

/-- A machine with no sponge and `VR[b ..]` set to `xs`. -/
def idle (b : Nat) (xs : List Nat) : State := (machine []).vrWrite b xs

/-- A machine with a sponge of the pattern `pat` in the domain `d`, and `VR[0 ..]` set to `xs`. -/
def active (pat : List PatStep) (d : Domain) (xs : List Nat) : State := spongeInit pat d (idle 0 xs)

/-- A sponge with all its steps consumed and `xs` in the accumulator. -/
def finished (xs : List Nat) : State :=
  { active [.absorb 1, .squeeze xs.length] .other [] with ioc := 2, out := xs }

/-- The result is a next state with the property `f`. -/
def nextWith (r : Result) (f : State → Bool) : Bool :=
  match r with
  | .next t => f t
  | .fault _ => false
  | .refused _ => false

/-- The bytes of the last response packet. -/
def lastResponse (t : State) : List Byte := (t.rsp.getLast?.map Packet.bytes).getD []

/-- `n` zero bytes. -/
def zeros (n : Nat) : List Byte := List.replicate n 0

/-! ## Part 1: form, words, assembly -/

/-- R90: a payload one byte short, or one too long, is no command. -/
theorem test_wellFormed_lde : Instr.wellFormed 2 (.lde 0 (zeros 31)) = false ∧
    Instr.wellFormed 2 (.lde 0 (zeros 33)) = false ∧ Instr.wellFormed 2 (.lde 0 (zeros 32)) = true := by decide +kernel

/-- R90: the payload of `LDC` has `32 * (MCAP + 1)` bytes. -/
theorem test_wellFormed_ldc : Instr.wellFormed 2 (.ldc 0 (zeros 95)) = false ∧
    Instr.wellFormed 2 (.ldc 0 (zeros 97)) = false ∧ Instr.wellFormed 2 (.ldc 0 (zeros 96)) = true := by decide +kernel

/-- R98, the words without a payload; the packets are those of programs P1 to P6 where they occur there. -/
theorem test_decode_transfer :
    decode 2 [0x00, 0x00, 0x00, 0x00] = .ok .nop ∧ decode 2 [0x01, 0x03, 0xFF, 0xFE] = .ok (.ldi 3 0xFEFF) ∧
    decode 2 [0x03, 0x09, 0x00, 0x00] = .ok (.ste 9) ∧ decode 2 [0x05, 0x0A, 0x00, 0x00] = .ok (.stc 10) ∧
    decode 2 [0x06, 0x1B, 0x00, 0x00] = .ok (.ldst 27) ∧ decode 2 [0x07, 0x08, 0x00, 0x00] = .ok (.stst 8) ∧
    decode 2 [0x08, 0x01, 0x00, 0x02] = .ok (.trunc 1 2) := by decide

theorem test_decode_sponge :
    decode 2 [0x10, 0x00, 0x00, 0x00] = .ok .perm ∧ decode 2 [0x20, 0x00, 0x00, 0x00] = .ok .pclr ∧
    decode 2 [0x21, 0x00, 0x03, 0x00] = .ok (.pabs 3) ∧ decode 2 [0x22, 0x00, 0x05, 0x00] = .ok (.psqz 5) ∧
    decode 2 [0x23, 0x03, 0x00, 0x00] = .ok (.start 3) ∧ decode 2 [0x24, 0x03, 0x01, 0x02] = .ok (.absorb 3 1 2) ∧
    decode 2 [0x25, 0x00, 0x05, 0x00] = .ok (.squeeze 5) ∧ decode 2 [0x26, 0x10, 0x00, 0x00] = .ok (.finish 16) ∧
    decode 2 [0x27, 0x00, 0x00, 0x00] = .ok .abort := by decide

theorem test_decode_hash_cipher_status :
    decode 2 [0x28, 0x01, 0x02, 0x03] = .ok (.hash 1 2 3) ∧ decode 2 [0x29, 0x04, 0x02, 0x06] = .ok (.mhash2 4 2 6) ∧
    decode 2 [0x2A, 0x00, 0x04, 0x08] = .ok (.mhash4 0 4 8) ∧ decode 2 [0x30, 0x00, 0x02, 0x0A] = .ok (.enc 0 2 10) ∧
    decode 2 [0x31, 0x14, 0x00, 0x1C] = .ok (.dec 20 28) ∧ decode 2 [0x40, 0x0C, 0x00, 0x00] = .ok (.rdsr 12) ∧
    decode 2 [0x41, 0x00, 0x00, 0x00] = .ok .clrerr := by decide

/-- R90, R98: `LDE` takes 32 payload bytes, `LDC` `32 * (MCAP + 1)`; what follows is the next packet. -/
theorem test_decode_payload :
    decode 1 ([0x02, 0x05, 0x00, 0x00] ++ zeros 31 ++ [0x7F, 0x41]) = .ok (.lde 5 (zeros 31 ++ [0x7F])) ∧
    decode 1 ([0x04, 0x17, 0x00, 0x00] ++ zeros 63 ++ [0x01, 0x41]) = .ok (.ldc 23 (zeros 63 ++ [0x01])) := by decide +kernel

/-- R94 (2), R95: the four ways of being no command. -/
theorem test_decode_rejects :
    decode 2 [0x00, 0x00, 0x00] = .error .shortWord ∧ decode 2 [0x09, 0x00, 0x00, 0x00] = .error .unassignedOpcode ∧
    decode 2 [0x08, 0x01, 0x01, 0x02] = .error .reservedField ∧ decode 2 [0x25, 0x01, 0x05, 0x00] = .error .reservedField ∧
    decode 2 ([0x04, 0x00, 0x00, 0x00] ++ zeros 95) = .error .truncatedPayload := by decide +kernel

/-- R102, R103: the lines of programs P2 and P3, and the bytes given for them there. -/
theorem test_assemble_program :
    assemble Config.toy31 ["PATTERN A3, S2 ; two steps", "LDI v1, 20", "START OTHER", "ABSORB v0, 3, 3", "FINISH v16",
      "MHASH4 v8, v0, 4", "RDSR PCNT"] =
    some [0x20, 0, 0, 0, 0x21, 0, 3, 0, 0x22, 0, 2, 0, 0x01, 1, 0x14, 0, 0x23, 3, 0, 0, 0x24, 0, 3, 3, 0x26, 0x10, 0, 0,
      0x2A, 0, 4, 8, 0x40, 0x0C, 0, 0] := by decide +kernel

/-- R102: an `LDC` line has `MCAP + 1` elements; a register beyond `v31` and an element not below `P` are errors. -/
theorem test_assemble_rejects :
    (assembleLine Config.toy31 "LDC v23, [322576331, 97316473, 390114497]").isSome = true ∧
    assembleLine Config.toy31 "LDC v23, [322576331, 97316473]" = none ∧
    assembleLine Config.toy31 "LDI v32, 1" = none ∧ assembleLine Config.toy31 "LDE v1, 2147483647" = none := by
  decide +kernel

/-! ## Part 2: vectors -/

/-- V-F1, V-F2, V-F2b, V-F2c. -/
theorem test_field :
    fadd 2147483647 2147483646 1 = 0 ∧ fsub 2147483647 2 5 = 2147483644 ∧
    fmul 2147483647 2147483646 2147483646 = 1 ∧ fmul 2147483647 46341 46341 = 4634 := by decide +kernel

/-- V-F3, V-F4, V-F6, V-F7. -/
theorem test_sbox :
    sbox 2147483647 2 = 32 ∧ sbox 2147483647 17 = 1419857 ∧ sbox 2147483647 2147483645 = 2147483615 ∧
    sbox 2147483647 46341 = 839666435 := by decide +kernel

/-- V-L1, V-L2, V-L7, V-L8. -/
theorem test_layers :
    arc Config.toy31 #v[1, 2, 3, 4, 5] 0 = #v[2, 4, 6, 8, 10] ∧
    sboxFull Config.toy31 #v[2, 4, 6, 8, 10] = #v[32, 1024, 7776, 32768, 100000] ∧
    arc Config.toy31 #v[1, 2, 3, 4, 5] 4 = #v[22, 24, 26, 28, 30] ∧
    sboxPartial Config.toy31 #v[22, 24, 26, 28, 30] = #v[22, 24, 26, 28, 24300000] := by decide +kernel

/-- V-L6, V-L9. -/
theorem test_rounds :
    fullRound Config.toy31 #v[1, 2, 3, 4, 5] 0 = #v[354521732, 1056713067, 256595826, 386125429, 940432202] ∧
    partialRound Config.toy31 #v[1, 2, 3, 4, 5] 4 = #v[1260511866, 96169379, 1417750993, 1586607641, 1250980552] := by
  decide +kernel

/-- `TOY31` with a matrix whose only entry is 1 in row 0, column 1: which `TOY31`'s symmetric matrix cannot show. -/
def skewConfig : Config :=
  { Config.toy31 with
    mds := #v[#v[0, 1, 0, 0, 0], #v[0, 0, 0, 0, 0], #v[0, 0, 0, 0, 0], #v[0, 0, 0, 0, 0], #v[0, 0, 0, 0, 0]]
    mds_canonical := by decide +kernel }

/-- R123: `s'[k]` is the sum over `j` of `MDS[k][j] * s[j]`: row 0, column 1 sends `s[1]` to position 0. -/
theorem test_mix_order : mix skewConfig #v[10, 20, 30, 40, 50] = #v[20, 0, 0, 0, 0] := by decide +kernel

/-- V-B2: `le_bytes` of `P - 1`. -/
theorem test_enc32 : enc32 2147483646 = [0xFE, 0xFF, 0xFF, 0x7F] ++ zeros 28 := by decide +kernel

/-- R61: the element at byte address 160 of `TOY31`'s table ROM is `RC[1][0]`, which is 6. -/
theorem test_tableRom : tableElem (tableRom Config.toy31) 160 = 6 := by decide +kernel

/-- R220: the response `00 00 00 00`, and `CP` one packet on. -/
theorem test_nop : nextWith (step (machine (zeros 4))) (fun t => lastResponse t == zeros 4 && t.cp == 4) = true := by
  decide +kernel

/-- V-B5. -/
theorem test_ldi : nextWith (step (machine [0x01, 0x03, 0xFF, 0xFF])) (fun t => t.vr[3] == 65535 && t.vr[2] == 0) = true := by
  decide +kernel

/-- R101: register 32 does not exist. -/
theorem test_ldi_badOperand : nextWith (step (machine [0x01, 0x20, 0xFF, 0xFF]))
    (fun t => lastResponse t == [6, 1, 0, 0] && t.esticky == 0x0040) = true := by decide +kernel

/-- V-B2. -/
theorem test_lde : nextWith (step (machine ([0x02, 0x05, 0, 0, 0xFE, 0xFF, 0xFF, 0x7F] ++ zeros 28)))
    (fun t => t.vr[5] == 2147483646 && t.cp == 36) = true := by decide +kernel

/-- V-B3. -/
theorem test_lde_nonCanonical : nextWith (step (machine ([0x02, 0x05, 0, 0, 0xFF, 0xFF, 0xFF, 0x7F] ++ zeros 28)))
    (fun t => lastResponse t == [5, 2, 0, 0] && t.vr[5] == 0 && t.cp == 36) = true := by decide +kernel

/-- V-B6. -/
theorem test_ste : nextWith (exec (.ste 9) (idle 9 [71899214]))
    (fun t => lastResponse t == [0, 3, 0, 8, 0x4E, 0x18, 0x49, 0x04] ++ zeros 28) = true := by decide +kernel

/-- V-B4. -/
theorem test_ldc : nextWith (exec (.ldc 23 ([0xCB, 0x1F, 0x3A, 0x13] ++ zeros 28 ++ [0x79, 0xEE, 0xCC, 0x05] ++ zeros 28 ++
      [0xC1, 0xAC, 0x40, 0x17] ++ zeros 28)) (idle 0 []))
    (fun t => t.vrRange 23 3 == [322576331, 97316473, 390114497] && t.cp == 100) = true := by decide +kernel

/-- V-B4. -/
theorem test_stc : nextWith (exec (.stc 10) (idle 10 [322576331, 97316473, 390114497]))
    (fun t => lastResponse t == [0, 5, 0, 0x18, 0xCB, 0x1F, 0x3A, 0x13] ++ zeros 28 ++ [0x79, 0xEE, 0xCC, 0x05] ++ zeros 28 ++
      [0xC1, 0xAC, 0x40, 0x17] ++ zeros 28) = true := by decide +kernel

/-- R224: `ST[k] <- VR[vs + k]`. -/
theorem test_ldst : nextWith (exec (.ldst 27) (idle 27 [1, 2, 3, 4, 5]))
    (fun t => t.st == #v[1, 2, 3, 4, 5]) = true := by decide +kernel

/-- R225: `VR[vd + k] <- ST[k]`. -/
theorem test_stst : nextWith (exec (.stst 8) { idle 0 [] with st := #v[1, 2, 3, 4, 5] })
    (fun t => t.vrRange 7 7 == [0, 1, 2, 3, 4, 5, 0]) = true := by decide +kernel

/-- V-H10. -/
theorem test_trunc : nextWith (exec (.trunc 1 2) (idle 1 [1234567890, 7])) (fun t => t.vr[2] == 393938) = true ∧
    nextWith (exec (.trunc 1 1) (idle 1 [2147483646])) (fun t => t.vr[1] == 0) = true := by decide +kernel

/-- V-P1. -/
theorem test_perm : nextWith (exec .perm { idle 0 [] with st := #v[17, 17, 17, 17, 17] })
    (fun t => t.st == #v[1648933165, 71899214, 1173459127, 161159703, 420627206] && t.pcnt == 1) = true := by decide +kernel

/-- V-P4. -/
theorem test_perm_distinct : nextWith (exec .perm { idle 0 [] with st := #v[0, 1, 2, 3, 4] })
    (fun t => t.st == #v[337721172, 298293601, 1749563410, 770767804, 514594174]) = true := by decide +kernel

/-- R159. -/
theorem test_pclr : nextWith (exec .pclr { idle 0 [] with pat := [.absorb 4] }) (fun t => t.pat == []) = true := by
  decide +kernel

/-- R160. -/
theorem test_pabs : nextWith (exec (.pabs 3) { idle 0 [] with pat := [.squeeze 2] })
    (fun t => t.pat == [.squeeze 2, .absorb 3]) = true := by decide +kernel

/-- R161: the seventeenth step is refused. -/
theorem test_psqz : nextWith (exec (.psqz 3) { idle 0 [] with pat := [.absorb 2] })
      (fun t => t.pat == [.absorb 2, .squeeze 3]) = true ∧
    nextWith (exec (.psqz 3) { idle 0 [] with pat := List.replicate 16 (.absorb 1) })
      (fun t => lastResponse t == [7, 0x22, 0, 0] && t.pat.length == 16) = true := by decide +kernel

/-- V-T8, V-S1. -/
theorem test_start : nextWith (exec (.start 3) { idle 0 [] with pat := [.absorb 3, .squeeze 2, .absorb 1, .squeeze 5] })
    (fun t => t.st == #v[3539030, 0, 0, 0, 0] && t.spos == 4 && t.mode == .active && t.pcnt == 0) = true := by decide +kernel

/-- R153: `MERKLE4` absorbs four elements in all. -/
theorem test_start_invalid : nextWith (exec (.start 1) { idle 0 [] with pat := [.absorb 3, .squeeze 1] })
    (fun t => lastResponse t == [2, 0x23, 0, 0] && t.mode == .idle) = true := by decide +kernel

/-- V-S1, the first absorption. -/
theorem test_absorb : nextWith
    (exec (.absorb 0 3 3) (active [.absorb 3, .squeeze 2, .absorb 1, .squeeze 5] .other [10, 20, 30]))
    (fun t => t.st == #v[3539030, 10, 20, 30, 0] && t.apos == 3 && t.spos == 4 && t.ioc == 1 && t.pcnt == 0) = true := by
  decide +kernel

/-- V-S2: a full chunk permutes at once. -/
theorem test_absorb_fullChunk : nextWith (exec (.absorb 0 4 4) (active [.absorb 4, .squeeze 1] .merkle4 [1, 2, 3, 4]))
    (fun t => t.st[1] == 704999672 && t.apos == 0 && t.spos == 0 && t.pcnt == 1) = true := by decide +kernel

/-- The state of V-S1 before its last squeeze. -/
def beforeSqueeze : State :=
  { active [.absorb 3, .squeeze 2, .absorb 1, .squeeze 5] .other [] with
    st := #v[2028864554, 1237784104, 1220828098, 1660556214, 426192681], ioc := 3, apos := 1
    out := [1237784064, 1220828098] }

/-- V-S1, the last squeeze. -/
theorem test_squeeze : nextWith (exec (.squeeze 5) beforeSqueeze)
    (fun t => t.out == [1237784064, 1220828098, 1908943, 1146095636, 1749859392, 1004588690, 1813890193] &&
      t.apos == 0 && t.spos == 1 && t.ioc == 4 && t.pcnt == 2) = true := by decide +kernel

/-- Program P5: a squeeze where the next step is `Absorb(4)`. -/
theorem test_squeeze_violation : nextWith (exec (.squeeze 1) (active [.absorb 4, .squeeze 1] .merkle4 []))
    (fun t => lastResponse t == [1, 0x25, 0, 0] && t.mode == .idle && t.st == #v[0, 0, 0, 0, 0]) = true := by decide +kernel

/-- R165: `cnt` is the number of delivered elements. -/
theorem test_finish : nextWith (exec (.finish 16) (finished [5, 6, 7]))
    (fun t => t.vrRange 15 5 == [0, 5, 6, 7, 0] && lastResponse t == [0, 0x26, 3, 0] && t.mode == .idle) = true := by
  decide +kernel

/-- R158, R166. -/
theorem test_abort : nextWith (exec .abort (finished [5, 6, 7]))
    (fun t => t.out == [] && t.apat == [] && t.spos == 0 && t.mode == .idle && lastResponse t == [0, 0x27, 0, 0]) = true := by
  decide +kernel

/-- V-H1, the empty message. -/
theorem test_hash_empty : nextWith (exec (.hash 0 0 9) (idle 0 [])) (fun t => t.vr[9] == 1946998038 && t.pcnt == 1) = true := by
  decide +kernel

/-- V-H7. -/
theorem test_hash_twoChunks : nextWith (exec (.hash 0 8 9) (idle 0 [1, 2, 3, 4, 5, 6, 7, 8]))
    (fun t => t.vr[9] == 2105595214 && t.pcnt == 3) = true := by decide +kernel

/-- V-H9. -/
theorem test_mhash2 : nextWith (exec (.mhash2 0 2 9) (idle 0 [1, 2])) (fun t => t.vr[9] == 1402400065 && t.pcnt == 1) = true ∧
    nextWith (exec (.mhash2 0 3 9) (idle 0 [1, 2])) (fun t => lastResponse t == [1, 0x29, 0, 0] && t.pcnt == 0) = true := by
  decide +kernel

/-- V-H8, V-H8b. -/
theorem test_mhash4 : nextWith (exec (.mhash4 0 4 8) (idle 0 [4, 3, 2, 1])) (fun t => t.vr[8] == 696306987) = true ∧
    nextWith (exec (.mhash4 0 3 8) (idle 0 [1, 2, 3])) (fun t => lastResponse t == [1, 0x2A, 0, 0] && t.vr[8] == 0) = true := by
  decide +kernel

/-- V-C2. -/
theorem test_enc : nextWith (exec (.enc 0 2 10) (idle 0 [11, 12, 13, 7, 8]))
    (fun t => t.vrRange 10 3 == [322576331, 97316473, 390114497] && t.pcnt == 2 && t.st == #v[0, 0, 0, 0, 0]) = true := by
  decide +kernel

/-- V-C4: a longer message is cut at `MCAP` elements. -/
theorem test_enc_truncates : nextWith (exec (.enc 0 255 10) (idle 0 [11, 12, 13, 7, 8, 9]))
    (fun t => t.vrRange 10 3 == [322576331, 97316473, 390114497]) = true := by decide +kernel

/-- V-C2. -/
theorem test_dec : nextWith (exec (.dec 20 28) (idle 20 [11, 12, 13, 322576331, 97316473, 390114497]))
    (fun t => t.vrRange 28 3 == [7, 8, 0] && t.pcnt == 2) = true := by decide +kernel

/-- V-C5 (d). -/
theorem test_dec_fails : nextWith (exec (.dec 20 28) (idle 20 [11, 12, 14, 322576331, 97316473, 390114497]))
    (fun t => lastResponse t == [4, 0x31, 0, 0] && t.vrRange 28 3 == [0, 0, 0] && t.pcnt == 2) = true := by decide +kernel

/-- V-R1, V-R2. -/
theorem test_rdsr : nextWith (exec (.rdsr 0) (idle 0 [])) (fun t => lastResponse t == [0, 0x40, 0, 1, 0x05, 0x08, 0x3C, 0x01]) = true ∧
    nextWith (exec (.rdsr 1) (idle 0 [])) (fun t => lastResponse t == [0, 0x40, 0, 1, 0x20, 0x10, 0x20, 0x02]) = true := by
  decide +kernel

/-- V-R4: `CP` reads as the address of the `RDSR` packet itself. -/
theorem test_rdsr_cp : nextWith (step { machine (zeros 8 ++ [0x40, 0x0D, 0, 0]) with cp := 8 })
    (fun t => lastResponse t == [0, 0x40, 0, 1, 8, 0, 0, 0]) = true := by decide +kernel

/-- R227. -/
theorem test_clrerr : nextWith (exec .clrerr { idle 0 [] with esticky := 0x01FE }) (fun t => t.esticky == 0) = true := by
  decide +kernel

/-- R255: an unassigned opcode halts; its echo is the byte at `CP`, and `CP` stays. -/
theorem test_illegal : nextWith (step (machine [0x99, 1, 2, 3]))
    (fun t => lastResponse t == [8, 0x99, 0, 0] && t.halt && t.cp == 0 && t.esticky == 0x0100) = true := by decide +kernel

/-- Log entry 7: the placed word is fetched from the reset state, whatever configuration is installed. -/
theorem test_withFetchWord : nextWith (step (State.reset.withFetchWord 32 0x00110001)) (fun t => lastResponse t == [0, 1, 0, 0]) =
    true := by decide +kernel

/-! ## Part 3: the hypotheses of the statements can be met -/

/-- Of `DecodeOfEncode`: the largest capacity, a payload of the longest length and a nonempty rest. -/
theorem witness_decodeOfEncode : 4 ≤ 4 ∧ Instr.wellFormed 4 (.ldc 255 (zeros 160)) = true := by decide +kernel

/-- Of `DecodeAcceptsOnlyPackets`. -/
theorem witness_decodeAccepts :
    1 ≤ 4 ∧ decode 1 ([0x04, 0xFF, 0, 0] ++ zeros 64) = .ok (.ldc 255 (zeros 64)) := by decide +kernel

/-- Of `AssignedOpcodes`: a byte on each side of each equivalence. -/
theorem witness_assignedOpcodes :
    decode 2 [0x09, 0, 0, 0] = .error .unassignedOpcode ∧ decode 2 [0x41, 0, 0, 0] ≠ .error .unassignedOpcode ∧
    Instr.opcode .clrerr = 0x41 := by decide

/-- Of `FieldArithmetic`: the largest canonical elements. -/
theorem witness_fieldArithmetic : 2147483646 < Config.toy31.p ∧ 0 < Config.toy31.p := by decide

/-- Of `ElementEncoding`: the largest canonical element, and its encoding. -/
theorem witness_elementEncoding : 2147483646 < Config.toy31.p ∧ (enc32 2147483646).length = 32 := by decide +kernel

/-- Of `StepRunsDecodedCommand`: the longest packet of `TOY31`, at the end of its stream. -/
theorem witness_stepRuns :
    (machine ([0x04, 0x17, 0, 0] ++ zeros 95 ++ [1])).halt = false ∧
    Instr.wellFormed 2 (.ldc 0x17 (zeros 95 ++ [1])) = true ∧
    (machine ([0x04, 0x17, 0, 0] ++ zeros 95 ++ [1])).cs.window 0 100 = encode (.ldc 0x17 (zeros 95 ++ [1])) := by
  decide +kernel

/-- Of `IllegalPacketHalts`: an unassigned opcode. -/
theorem witness_illegalPacket :
    (machine [0x99, 0, 0, 0]).halt = false ∧ (machine [0x99, 0, 0, 0]).cs.read 0 = some 0x99 ∧
    ∀ i : Instr, i.wellFormed 2 = true → (machine [0x99, 0, 0, 0]).cs.window 0 (i.packetLen 2) ≠ encode i := by
  refine ⟨by decide +kernel, by decide +kernel, fun i _ h => ?_⟩
  have h1 := congrArg List.head? h
  rw [encode_head, ← Memory.window_take _ _ (packetLen_le i (by decide))] at h1
  have h2 : (machine [0x99, 0, 0, 0]).cs.window 0 longestPacket = [0x99, 0, 0, 0] := by decide +kernel
  rw [h2] at h1
  cases i <;> simp [Instr.packetLen, Instr.opcode] at h1

/-- Of `IllegalPacketHalts`: a packet that the stream does not hold whole. -/
theorem witness_truncatedPacket :
    (machine ([0x02, 0, 0, 0] ++ zeros 31)).cs.read 0 = some 0x02 ∧
    ∀ i : Instr, i.wellFormed 2 = true →
      (machine ([0x02, 0, 0, 0] ++ zeros 31)).cs.window 0 (i.packetLen 2) ≠ encode i := by
  refine ⟨by decide +kernel, fun i hi h => ?_⟩
  have h1 := congrArg List.head? h
  rw [encode_head, ← Memory.window_take _ _ (packetLen_le i (by decide))] at h1
  have h2 : (machine ([0x02, 0, 0, 0] ++ zeros 31)).cs.window 0 longestPacket = [0x02, 0, 0, 0] ++ zeros 31 := by
    decide +kernel
  rw [h2] at h1
  have h3 := congrArg List.length h
  rw [Memory.window_length] at h3
  have h4 : (machine ([0x02, 0, 0, 0] ++ zeros 31)).cs.size = 35 := by decide +kernel
  rw [h4] at h3
  cases i with
  | lde vd payload =>
    simp [Instr.wellFormed, payloadLenE] at hi
    simp [Instr.packetLen, encode, hi] at h3
  | _ => simp [Instr.packetLen, Instr.opcode] at h1

/-- Of `NoStepWhenHaltedOrAtEnd`. -/
theorem witness_noStep :
    ({ machine (zeros 4) with halt := true }).halt = true ∧ (machine (zeros 4)).halt = false ∧
    ({ machine (zeros 4) with cp := 4 }).cp = (machine (zeros 4)).cs.size := by decide +kernel

/-- Of `CommandsKeepParameters`, `CodesPerCommand` and `WritersOfState`: a next state, reached by the longest kind of
command and by one that ends with an error. -/
theorem witness_nextState :
    nextWith (exec (.finish 0) (finished (List.replicate 32 1))) (fun t => t.mode == .idle && t.vr[31] == 1) = true ∧
    nextWith (exec (.finish 1) (finished (List.replicate 32 1))) (fun t => t.mode == .active && t.lastcode == 6) = true := by
  decide +kernel

/-- Of the clauses of `WritersOfState` about `MODE` and `ESTICKY`. -/
theorem witness_writers :
    nextWith (exec (.start 3) { idle 0 [] with pat := [.absorb 255, .squeeze 32] }) (fun t => t.mode == .active) = true ∧
    nextWith (exec (.absorb 0 1 0) (active [.absorb 1, .squeeze 1] .other [])) (fun t => t.mode == .idle) = true ∧
    nextWith (exec .clrerr { idle 0 [] with esticky := 0x0100 }) (fun t => !t.esticky.getLsbD 8) = true := by
  decide +kernel

/-- A machine right after reset meets the invariant when its stream is in canonical form and short enough. -/
theorem inv_machine (bs : List Byte) (h : (Memory.ofBytes bs).wf = true) (hl : (Memory.ofBytes bs).size < 2 ^ 32) :
    Inv (machine bs) where
  st_canonical k := by simpa [machine, State.resetWith] using Config.toy31.p_prime.pos
  vr_canonical k := by simpa [machine, State.resetWith] using Config.toy31.p_prime.pos
  out_canonical := by simp [machine, State.resetWith]
  pat_length := by simp [machine, State.resetWith]
  apat_length := by simp [machine, State.resetWith]
  out_length := by simp [machine, State.resetWith]
  pat_steps := by simp [machine, State.resetWith]
  idle _ := ⟨rfl, rfl, rfl, rfl, rfl, rfl⟩
  active h := by simp [machine, State.resetWith] at h
  cp_aligned := rfl
  cp_bound := Nat.zero_le _
  stream_wf := h
  stream_length := hl
  sticky_bits b h := by simp [machine, State.resetWith] at h

/-- The stream of an `ABSORB v0, 2, 2`. -/
def absorbing : State := spongeInit [.absorb 2, .squeeze 1] .merkle2 (machine [0x24, 0, 2, 2])

/-- Of `StepKeepsInvariant` and `StepKeepsResponses`: a state with an active sponge, and its step. -/
theorem witness_stepKeeps : Inv absorbing ∧ ResponsesOk absorbing ∧ nextWith (step absorbing) (fun t => t.ioc == 1) = true := by
  have h := inv_machine [0x24, 0, 2, 2] (by decide +kernel) (by decide +kernel)
  refine ⟨⟨by decide +kernel, h.vr_canonical, h.out_canonical, h.pat_length, by decide +kernel, h.out_length, h.pat_steps,
    fun hm => ?_, fun _ => ?_, h.cp_aligned, h.cp_bound, h.stream_wf, h.stream_length, h.sticky_bits⟩, ?_, by decide +kernel⟩
  · simp [absorbing, spongeInit] at hm
  · exact ⟨by decide +kernel, by decide +kernel, by decide +kernel, ⟨2, rfl⟩, ⟨1, rfl⟩, by decide +kernel, by decide +kernel⟩
  · exact ⟨by intro k hk; simp [absorbing, spongeInit, machine, State.resetWith] at hk,
      by intro k hk; simp [absorbing, spongeInit, machine, State.resetWith] at hk, rfl,
      by intro hk; simp [absorbing, spongeInit, machine, State.resetWith] at hk⟩

/-- Of `EveryRunEnds`: a stream of one packet, and a machine at the end of its stream. -/
theorem witness_everyRunEnds :
    ((machine (zeros 4)).halt = false ∧ (machine (zeros 4)).cp ≤ (machine (zeros 4)).cs.size) ∧
    (machine []).halt = false ∧ (machine []).cp ≤ (machine []).cs.size := by decide +kernel

/-- Of `SupplyAppendsBytes`. -/
theorem witness_supply : (machine (zeros 3)).cs.wf = true ∧ Inv (machine (zeros 3)) ∧
    (machine (zeros 3)).cs.size + [1#8].length < 2 ^ 32 :=
  ⟨by decide +kernel, inv_machine _ (by decide +kernel) (by decide +kernel), by decide +kernel⟩

/-- Of `SupplyCommutesWithStep`. -/
theorem witness_supplyCommutes :
    (machine (zeros 4)).cs.wf = true ∧ (machine (zeros 4)).halt = false ∧ Instr.wellFormed 2 .nop = true ∧
    (machine (zeros 4)).cs.window 0 4 = encode .nop := by decide +kernel

/-- Of `LdiLoadsImmediate`, `LdeLoadsElement` and `SteReturnsElement`: the last register and the first index beyond, the
largest element and the least integer that is none. -/
theorem witness_transfer :
    (31 : Byte).toNat < 32 ∧ 32 ≤ (32 : Byte).toNat ∧ leNat ([0xFE, 0xFF, 0xFF, 0x7F] ++ zeros 28) < Config.toy31.p ∧
    Config.toy31.p ≤ leNat ([0xFF, 0xFF, 0xFF, 0x7F] ++ zeros 28) ∧ (idle 31 [2147483646]).vr[31] < (idle 0 []).cfg.p := by
  decide +kernel

/-- Of `LdstLoadsState`, `StstStoresState` and `PermPermutesState`: both modes, the last legal base and the first illegal
one. -/
theorem witness_state :
    (active [.absorb 1, .squeeze 1] .other []).mode = .active ∧ (idle 0 []).mode = .idle ∧
    27 < (28 : Byte).toNat ∧ (27 : Byte).toNat ≤ 27 := by decide +kernel

/-- Of `RdsrReadsRegister`. -/
theorem witness_rdsr : (13 : Byte).toNat ≤ 13 ∧ 13 < (14 : Byte).toNat := by decide

/-- Of `StagingEditsPattern`: 15 steps staged, and 16. -/
theorem witness_staging :
    ({ idle 0 [] with pat := List.replicate 15 (.absorb 1) }).pat.length ≠ 16 ∧
    ({ idle 0 [] with pat := List.replicate 16 (.absorb 1) }).pat.length = 16 := by decide +kernel

/-- Of `StartCreatesSponge`: a squeeze total of exactly 32. -/
theorem witness_startCreates :
    (idle 0 []).mode = .idle ∧ domainIndex .other = (3 : Byte).toNat ∧
    patternValid [.absorb 255, .squeeze 32] .other = true ∧ squeezeTotal [.absorb 255, .squeeze 32] ≤ 32 := by decide +kernel

/-- Of `StartChecksInOrder`: an active sponge; the first index that is no domain; a Merkle pattern that absorbs one
element too few; a squeeze total of 33. -/
theorem witness_startChecks :
    (active [.absorb 1, .squeeze 1] .other []).mode = .active ∧ (idle 0 []).mode = .idle ∧ 3 < (4 : Byte).toNat ∧
    (domainIndex .merkle2 = (0 : Byte).toNat ∧ patternValid [.absorb 1, .squeeze 1] .merkle2 = false) ∧
    (domainIndex .encryption = (2 : Byte).toNat ∧ patternValid [.absorb 1, .squeeze 33] .encryption = true ∧
      32 < squeezeTotal [.absorb 1, .squeeze 33]) := by decide +kernel

/-- Of `AbsorbConsumesStep`: one of the last registers absorbed, one to spare. -/
theorem witness_absorb :
    (active [.absorb 1, .squeeze 1] .other []).mode = .active ∧ (30 : Byte).toNat < 32 ∧
    (30 : Byte).toNat + (2 : Byte).toNat ≤ 32 ∧ (1 : Byte).toNat ≤ (2 : Byte).toNat ∧
    (active [.absorb 1, .squeeze 1] .other []).apat[(active [.absorb 1, .squeeze 1] .other []).ioc]? =
      some (.absorb (1 : Byte).toNat) := by decide +kernel

/-- Of `AbsorbChecksInOrder`: the mode; a base of 32 and a range that ends at 33; a range shorter than the length; a length
that is not the pattern's. -/
theorem witness_absorbChecks :
    (idle 0 []).mode = .idle ∧ (active [.absorb 1, .squeeze 1] .other []).mode = .active ∧
    32 ≤ (32 : Byte).toNat ∧ 32 < (31 : Byte).toNat + (2 : Byte).toNat ∧
    ((31 : Byte).toNat < 32 ∧ (31 : Byte).toNat + (0 : Byte).toNat ≤ 32 ∧ (0 : Byte).toNat < (1 : Byte).toNat) ∧
    (active [.absorb 1, .squeeze 1] .other []).apat[(active [.absorb 1, .squeeze 1] .other []).ioc]? ≠
      some (.absorb (2 : Byte).toNat) := by decide +kernel

/-- Of `AbsorbCoreByChunks`: nothing to absorb, and a chunk filled from each end of the range of `APOS`. -/
theorem witness_absorbCore :
    (idle 0 []).apos.val + ([] : List Nat).length < 4 ∧ (idle 0 []).apos.val + [1, 2, 3, 4].length = 4 ∧
    ({ idle 0 [] with apos := 3 }).apos.val + [9].length = 4 := by decide +kernel

/-- Of `SqueezeConsumesStep`: a squeeze of one element after an absorption. -/
theorem witness_squeeze :
    beforeSqueeze.mode = .active ∧ 1 ≤ (5 : Byte).toNat ∧
    beforeSqueeze.apat[beforeSqueeze.ioc]? = some (.squeeze (5 : Byte).toNat) := by decide +kernel

/-- Of `SqueezeChecksInOrder`: a squeeze of one element fewer than the step's. -/
theorem witness_squeezeChecks :
    (idle 0 []).mode = .idle ∧ beforeSqueeze.mode = .active ∧
    beforeSqueeze.apat[beforeSqueeze.ioc]? ≠ some (.squeeze (4 : Byte).toNat) := by decide +kernel

/-- Of `SqueezeCoreByChunks`: four elements from a fresh state, and one and four from `SPOS = 4`. -/
theorem witness_squeezeCore :
    (idle 0 []).spos.val + 4 ≤ 4 ∧ beforeSqueeze.spos.val = 4 ∧ 1 ≤ 1 ∧ 4 ≤ 4 := by decide +kernel

/-- Of `FinishDeliversOutput`: 32 elements delivered, and none. -/
theorem witness_finish :
    (finished (List.replicate 32 1)).mode = .active ∧ (0 : Byte).toNat < 32 ∧
    (finished (List.replicate 32 1)).ioc = (finished (List.replicate 32 1)).apat.length ∧
    (0 : Byte).toNat + (finished (List.replicate 32 1)).out.length ≤ 32 ∧
    (31 : Byte).toNat + (finished []).out.length ≤ 32 := by decide +kernel

/-- Of `FinishChecksInOrder`: the mode; register 32; an unconsumed step; an accumulator one longer than what is left. -/
theorem witness_finishChecks :
    (idle 0 []).mode = .idle ∧ (finished [1, 2]).mode = .active ∧ 32 ≤ (32 : Byte).toNat ∧ (31 : Byte).toNat < 32 ∧
    beforeSqueeze.ioc ≠ beforeSqueeze.apat.length ∧ (finished [1, 2]).ioc = (finished [1, 2]).apat.length ∧
    32 < (31 : Byte).toNat + (finished [1, 2]).out.length := by decide +kernel

/-- Of `PaddingIsUnambiguous`: an index behind the one, and two equal paddings. -/
theorem witness_padding : [5].length < 3 ∧ 3 < (pad [5]).length ∧ pad [5] = pad [5] := by decide

/-- Of `HashIsChunkwiseSponge`: the mode; each bound just exceeded; all 32 registers, and none. -/
theorem witness_hash :
    (active [.absorb 1, .squeeze 1] .other []).mode = .active ∧ (idle 0 []).mode = .idle ∧ 32 ≤ (32 : Byte).toNat ∧
    32 < (1 : Byte).toNat + (32 : Byte).toNat ∧ (0 : Byte).toNat + (32 : Byte).toNat ≤ 32 ∧
    ((31 : Byte).toNat < 32 ∧ (31 : Byte).toNat + (0 : Byte).toNat ≤ 32) := by decide +kernel

/-- Of `Mhash2HashesPair`: each bound just exceeded; one element; the last two registers. -/
theorem witness_mhash2 :
    (active [.absorb 1, .squeeze 1] .other []).mode = .active ∧ (idle 0 []).mode = .idle ∧
    (32 ≤ (32 : Byte).toNat ∧ 32 < (31 : Byte).toNat + (2 : Byte).toNat) ∧
    ((31 : Byte).toNat < 32 ∧ (31 : Byte).toNat + (1 : Byte).toNat ≤ 32 ∧ (1 : Byte).toNat ≠ 2) ∧
    ((30 : Byte).toNat + 2 ≤ 32 ∧ (31 : Byte).toNat < 32 ∧ (2 : Byte).toNat = 2) := by decide +kernel

/-- Of `Mhash4HashesQuadruple`: each bound just exceeded; three elements; the last four registers. -/
theorem witness_mhash4 :
    (active [.absorb 1, .squeeze 1] .other []).mode = .active ∧ (idle 0 []).mode = .idle ∧
    (32 ≤ (32 : Byte).toNat ∧ 32 < (29 : Byte).toNat + (4 : Byte).toNat) ∧
    ((29 : Byte).toNat < 32 ∧ (29 : Byte).toNat + (3 : Byte).toNat ≤ 32 ∧ (3 : Byte).toNat ≠ 4) ∧
    ((28 : Byte).toNat + 4 ≤ 32 ∧ (31 : Byte).toNat < 32 ∧ (4 : Byte).toNat = 4) := by decide +kernel

/-- Of `HashCommandsEqualProtocol`: the registers of the first two parts, and a register file that holds the message `[7]`
and, from register 28 on, its padding. -/
theorem witness_hashCommands :
    (idle 0 []).mode = .idle ∧ (30 : Byte).toNat + 2 ≤ 32 ∧ (28 : Byte).toNat + 4 ≤ 32 ∧ (31 : Byte).toNat < 32 ∧
    ((28 : Byte).toNat + (1 : Byte).toNat ≤ 32 ∧ (4 : Byte).toNat = 4 * ((1 : Byte).toNat / 4 + 1) ∧
      (28 : Byte).toNat + (4 : Byte).toNat ≤ 32 ∧
      (idle 28 [7, 1]).vrRange (28 : Byte).toNat (4 : Byte).toNat =
        pad ((idle 28 [7, 1]).vrRange (28 : Byte).toNat (1 : Byte).toNat)) := by decide +kernel

/-- Of `TruncMasksAndReduces`. -/
theorem witness_trunc : (31 : Byte).toNat < 32 ∧ 32 ≤ (32 : Byte).toNat := by decide

/-- Of `EncProducesCipherValue`: the mode; each range one too long; both ranges at the end of the register file. -/
theorem witness_enc :
    (active [.absorb 1, .squeeze 1] .other []).mode = .active ∧ (idle 0 []).mode = .idle ∧
    (32 < (28 : Byte).toNat + 3 + min (2 : Byte).toNat (idle 0 []).cfg.mcap ∧
      32 < (30 : Byte).toNat + (idle 0 []).cfg.mcap + 1) ∧
    ((27 : Byte).toNat + 3 + min (255 : Byte).toNat (idle 0 []).cfg.mcap ≤ 32 ∧
      (29 : Byte).toNat + (idle 0 []).cfg.mcap + 1 ≤ 32) := by decide +kernel

/-- Of `DecRecoversOrFails`: the mode; each range one too long; both ranges at the end of the register file; and both
outcomes, with the cipher value of V-C2. -/
theorem witness_dec :
    (active [.absorb 1, .squeeze 1] .other []).mode = .active ∧ (idle 0 []).mode = .idle ∧
    (32 < (27 : Byte).toNat + 3 + (idle 0 []).cfg.mcap + 1 ∧ 32 < (31 : Byte).toNat + (idle 0 []).cfg.mcap) ∧
    ((26 : Byte).toNat + 3 + (idle 0 []).cfg.mcap + 1 ≤ 32 ∧ (30 : Byte).toNat + (idle 0 []).cfg.mcap ≤ 32) ∧
    nextWith (exec (.dec 26 30) (idle 26 [11, 12, 13, 322576331, 97316473, 390114497])) (fun t => t.lastcode == 0) = true ∧
    nextWith (exec (.dec 26 30) (idle 26 [11, 12, 13, 322576331, 97316473, 390114498])) (fun t => t.lastcode == 4) = true := by
  decide +kernel

/-- Of `CipherRoundTrip`: the values of V-C2, encrypted from register 0 to register 10, and a later state that holds key,
nonce and cipher value from register 20 on; and one that holds another authentication element. -/
theorem witness_cipherRoundTrip :
    (idle 0 [11, 12, 13, 7, 8]).mode = .idle ∧
    (0 : Byte).toNat + 3 + min (2 : Byte).toNat Config.toy31.mcap ≤ 32 ∧ (10 : Byte).toNat + Config.toy31.mcap + 1 ≤ 32 ∧
    nextWith (exec (.enc 0 2 10) (idle 0 [11, 12, 13, 7, 8])) (fun t =>
      let s := idle 20 [11, 12, 13, 322576331, 97316473, 390114497]
      let s' := idle 20 [11, 12, 13, 322576331, 97316473, 390114498]
      s.vrRange 20 3 == (idle 0 [11, 12, 13, 7, 8]).vrRange 0 3 && s.vrRange 23 2 == t.vrRange 10 2 &&
        s.vrAt 25 == t.vrAt 12 && s'.vrRange 23 2 == t.vrRange 10 2 && s'.vrAt 25 != t.vrAt 12) = true ∧
    (20 : Byte).toNat + 3 + Config.toy31.mcap + 1 ≤ 32 ∧ (28 : Byte).toNat < 32 ∧
    (28 : Byte).toNat + Config.toy31.mcap ≤ 32 := by decide +kernel

/-- Of `CipherRoundTrip`: the state it starts from meets the invariant. -/
theorem witness_cipherInv : Inv (idle 0 [11, 12, 13, 7, 8]) := by
  have h := inv_machine [] (by decide +kernel) (by decide +kernel)
  exact ⟨h.st_canonical, by decide +kernel, h.out_canonical, h.pat_length, h.apat_length, h.out_length, h.pat_steps,
    fun _ => ⟨by decide +kernel, by decide +kernel, by decide +kernel, by decide +kernel, by decide +kernel, by decide +kernel⟩,
    fun hm => absurd hm (by decide +kernel), h.cp_aligned, h.cp_bound, h.stream_wf, h.stream_length, h.sticky_bits⟩

/-- Of `LdcLoadsAllOrNothing`: a range one too long; the last legal range with canonical chunks, and with one chunk, the
last, that is not. -/
theorem witness_ldc :
    32 < (30 : Byte).toNat + (idle 0 []).cfg.mcap + 1 ∧ (29 : Byte).toNat + (idle 0 []).cfg.mcap + 1 ≤ 32 ∧
    (∀ i, i ≤ (idle 0 []).cfg.mcap → leNat (((zeros 96).drop (32 * i)).take 32) < (idle 0 []).cfg.p) ∧
    (∃ i, i ≤ (idle 0 []).cfg.mcap ∧ (idle 0 []).cfg.p ≤ leNat (((zeros 95 ++ [1]).drop (32 * i)).take 32)) :=
  ⟨by decide +kernel, by decide +kernel, by decide +kernel, 2, by decide +kernel, by decide +kernel⟩

/-- Of `StcReturnsCipherValue`. -/
theorem witness_stc :
    32 < (30 : Byte).toNat + (idle 0 []).cfg.mcap + 1 ∧
    (29 : Byte).toNat + (idle 29 [2147483646, 0, 1]).cfg.mcap + 1 ≤ 32 ∧
    (∀ k : Fin 32, (idle 29 [2147483646, 0, 1]).vr[k] < (idle 29 [2147483646, 0, 1]).cfg.p) := by decide +kernel

/-- Of `ActiveStateIsHidden`: an active sponge with two elements squeezed, two others in their place; a step that goes on,
and one that does not. -/
theorem witness_activeState :
    (finished [1, 2]).mode = .active ∧ [3, 4].length = (finished [1, 2]).out.length ∧
    nextWith (step { finished [1, 2] with cs := Memory.ofBytes (zeros 4) }) (fun t => t.mode == .active) = true ∧
    nextWith (step (finished [1, 2])) (fun _ => true) = false := by decide +kernel

end Sys2Proof.Tests
end

/-! The state family (spec/10_state.md): the reset state (R34), the invariant of every reachable state (R33), and the
writers of each piece of state (R20). Part 1: the rules of the shared operations. -/

namespace Sys2Proof.Machine

/-! ### The bookkeeping of the sponge -/

/-- R33 (c) speaks of the sponge context without `ST` only. -/
theorem IdleOk.of_kept {s u : State} (k : SpongeKept s { u with st := s.st }) (h : IdleOk s) : IdleOk u where
  apat := k.apat.trans h.apat
  dom := (congrArg domainIndex k.dom).trans h.dom
  ioc := k.ioc.trans h.ioc
  apos := k.apos.trans h.apos
  spos := k.spos.trans h.spos
  out := k.out.trans h.out

/-- R33 (d) speaks of the sponge context without `ST` only. -/
theorem ActiveOk.of_kept {s u : State} (k : SpongeKept s { u with st := s.st }) (h : ActiveOk s) : ActiveOk u := by
  have ha : u.apat = s.apat := k.apat
  have hi : u.ioc = s.ioc := k.ioc
  have ho : u.out = s.out := k.out
  exact ⟨ha ▸ h.nonempty, by rw [ha, hi]; exact h.ioc, ha ▸ h.steps, ha ▸ h.first, ha ▸ h.last,
    by rw [ho, ha, hi]; exact h.out_length, ha ▸ h.total⟩

/-- The invariant of a state whose sponge is that of a state that meets it, but for `ST`: what is left to show is what the
registers outside the sponge must meet. -/
theorem Inv.of_kept {s u : State} (h : Inv s) (k : SpongeKept s { u with st := s.st }) (hcfg : u.cfg = s.cfg)
    (hcs : u.cs = s.cs) (hst : ∀ j : Fin 5, u.st[j] < s.cfg.p) (hvr : ∀ j : Fin 32, u.vr[j] < s.cfg.p)
    (hpat : u.pat.length ≤ 16) (hsteps : ∀ t ∈ u.pat, stepLen t ≤ 255) (hcp : u.cp % 4 = 0) (hle : u.cp ≤ s.cs.size)
    (hsticky : ∀ b, u.esticky.getLsbD b = true → 1 ≤ b ∧ b ≤ 8) : Inv u := by
  have ha : u.apat = s.apat := k.apat
  have hm : u.mode = s.mode := k.mode
  have ho : u.out = s.out := k.out
  exact {
    st_canonical := by rw [hcfg]; exact hst
    vr_canonical := by rw [hcfg]; exact hvr
    out_canonical := by rw [hcfg, ho]; exact h.out_canonical
    pat_length := hpat
    apat_length := ha ▸ h.apat_length
    out_length := ho ▸ h.out_length
    pat_steps := hsteps
    idle := fun hi => (h.idle (hm ▸ hi)).of_kept k
    active := fun hi => (h.active (hm ▸ hi)).of_kept k
    cp_aligned := hcp
    cp_bound := hcs ▸ hle
    stream_wf := hcs ▸ h.stream_wf
    stream_length := hcs ▸ h.stream_length
    sticky_bits := hsticky }

/-! ### Registers outside the sponge -/

theorem Inv.setVr {s : State} (h : Inv s) {vr : Vector Nat 32} (hvr : ∀ k : Fin 32, vr[k] < s.cfg.p) :
    Inv { s with vr := vr } :=
  h.of_kept ⟨rfl, rfl, rfl, rfl, rfl, rfl, rfl, rfl⟩ rfl rfl h.st_canonical hvr
    h.pat_length h.pat_steps h.cp_aligned h.cp_bound h.sticky_bits

theorem Inv.vrWrite {s : State} (h : Inv s) (b : Nat) {xs : List Nat} (hx : ∀ x ∈ xs, x < s.cfg.p) :
    Inv (s.vrWrite b xs) := h.setVr (writeRegs_lt h.vr_canonical b hx)

/-- The invariant says nothing of `PCNT`, and of `ST` only that it is canonical. -/
theorem Inv.setSt {s : State} (h : Inv s) {st : PermState} (hst : ∀ k : Fin 5, st[k] < s.cfg.p) (n : Word) :
    Inv { s with st := st, pcnt := n } :=
  h.of_kept ⟨rfl, rfl, rfl, rfl, rfl, rfl, rfl, rfl⟩ rfl rfl hst h.vr_canonical
    h.pat_length h.pat_steps h.cp_aligned h.cp_bound h.sticky_bits

theorem Inv.setPat {s : State} (h : Inv s) {pat : List PatStep} (hl : pat.length ≤ 16)
    (hs : ∀ t ∈ pat, stepLen t ≤ 255) : Inv { s with pat := pat } :=
  h.of_kept ⟨rfl, rfl, rfl, rfl, rfl, rfl, rfl, rfl⟩ rfl rfl h.st_canonical h.vr_canonical
    hl hs h.cp_aligned h.cp_bound h.sticky_bits

theorem Inv.clearSticky {s : State} (h : Inv s) : Inv { s with esticky := 0 } :=
  h.of_kept ⟨rfl, rfl, rfl, rfl, rfl, rfl, rfl, rfl⟩ rfl rfl h.st_canonical h.vr_canonical
    h.pat_length h.pat_steps h.cp_aligned h.cp_bound (by simp)

/-- R97 (3): the epilogue sets no bit of `ESTICKY` outside 1 to 8. -/
theorem stickyAfter_bits {e : Half} (h : ∀ b, e.getLsbD b = true → 1 ≤ b ∧ b ≤ 8) (c : ResultCode) (b : Nat)
    (hb : (stickyAfter c e).getLsbD b = true) : 1 ≤ b ∧ b ≤ 8 := by
  rw [stickyAfter_getLsbD, Bool.or_eq_true, Bool.and_eq_true, decide_eq_true_eq, decide_eq_true_eq] at hb
  have hc : codeNum c ≤ 8 := by cases c <;> decide
  rcases hb with hb | ⟨rfl, hne⟩
  · exact h b hb
  · exact ⟨Nat.pos_of_ne_zero hne, hc⟩

/-- The epilogue keeps the invariant when the packet it moves `CP` past lies within the stream. -/
theorem Inv.epilogue {s : State} (h : Inv s) (c : ResultCode) (echo cnt : Byte) {len : Nat} (payload : List Byte)
    (hmod : len % 4 = 0) (hle : s.cp + len ≤ s.cs.size) : Inv (epilogue c echo len cnt payload s) := by
  have hcp := h.cp_aligned
  refine h.of_kept ⟨rfl, rfl, rfl, rfl, rfl, rfl, rfl, rfl⟩ rfl rfl h.st_canonical h.vr_canonical h.pat_length h.pat_steps
    ?_ ?_ (stickyAfter_bits h.sticky_bits c)
  all_goals rw [epilogue_cp]; split <;> omega

/-! ### The sponge -/

theorem Inv.spongeKill {s : State} (h : Inv s) : Inv (spongeKill s) where
  st_canonical k := by simpa using s.cfg.p_pos
  vr_canonical := h.vr_canonical
  out_canonical := by simp
  pat_length := h.pat_length
  apat_length := by simp
  out_length := by simp
  pat_steps := h.pat_steps
  idle _ := ⟨rfl, rfl, rfl, rfl, rfl, rfl⟩
  active hm := by simp at hm
  cp_aligned := h.cp_aligned
  cp_bound := h.cp_bound
  stream_wf := h.stream_wf
  stream_length := h.stream_length
  sticky_bits := h.sticky_bits

/-- The tag of a pattern is an element of the field (R152). -/
theorem tagOf_lt (c : Config) (pat : List PatStep) (t : Tag64) : tagOf c pat t < c.p := by
  unfold tagOf
  split
  · next v hv =>
    obtain ⟨l₁, l₂, hl, -⟩ := List.lookup_eq_some_iff.mp hv
    have hall := List.all_eq_true.mp c.tagTable_canonical ((pat, t), v) (by simp [hl])
    exact of_decide_eq_true hall
  · exact fe_lt c _

theorem spongeInit_st_lt (pat : List PatStep) (d : Domain) (s : State) (k : Fin 5) :
    (spongeInit pat d s).st[k] < s.cfg.p := by
  have ht := tagOf_lt s.cfg pat (domTag s.cfg d)
  have hp := s.cfg.p_pos
  rw [spongeInit_st]
  fin_cases k
  · exact ht
  all_goals exact hp

theorem exists_absorb_of_any {o : Option PatStep} (h : o.any isAbsorb = true) : ∃ n, o = some (.absorb n) := by
  match o, h with
  | some (.absorb n), _ => exact ⟨n, rfl⟩

theorem exists_squeeze_of_any {o : Option PatStep} (h : o.any isSqueeze = true) : ∃ n, o = some (.squeeze n) := by
  match o, h with
  | some (.squeeze n), _ => exact ⟨n, rfl⟩

/-- A valid pattern is that of a sponge that has taken no step yet (R33 (d), R153, R154). -/
theorem spongeInit_activeOk {pat : List PatStep} {d : Domain} (s : State) (hv : patternValid pat d = true)
    (ht : squeezeTotal pat ≤ 32) : ActiveOk (spongeInit pat d s) := by
  simp only [patternValid, Bool.and_eq_true] at hv
  obtain ⟨⟨⟨⟨hne, hall⟩, hfirst⟩, hlast⟩, -⟩ := hv
  refine ⟨?_, Nat.zero_le _, ?_, ?_, ?_, by simp [squeezeTotal], ht⟩
  · exact List.length_pos_iff.mpr (by simpa using hne)
  · simpa using hall
  · exact exists_absorb_of_any hfirst
  · exact exists_squeeze_of_any hlast

theorem Inv.spongeInit {s : State} (h : Inv s) {d : Domain} (hv : patternValid s.pat d = true)
    (ht : squeezeTotal s.pat ≤ 32) : Inv (spongeInit s.pat d s) where
  st_canonical := spongeInit_st_lt s.pat d s
  vr_canonical := h.vr_canonical
  out_canonical := by simp
  pat_length := h.pat_length
  apat_length := h.pat_length
  out_length := by simp
  pat_steps := h.pat_steps
  idle hm := by simp at hm
  active _ := spongeInit_activeOk s hv ht
  cp_aligned := h.cp_aligned
  cp_bound := h.cp_bound
  stream_wf := h.stream_wf
  stream_length := h.stream_length
  sticky_bits := h.sticky_bits

theorem squeezeTotal_append (a b : List PatStep) : squeezeTotal (a ++ b) = squeezeTotal a + squeezeTotal b := by
  induction a with
  | nil => simp [squeezeTotal]
  | cons t a ih => cases t <;> simp [squeezeTotal, ih, Nat.add_assoc]

theorem squeezeTotal_take_le (l : List PatStep) (n : Nat) : squeezeTotal (l.take n) ≤ squeezeTotal l := by
  calc squeezeTotal (l.take n) ≤ squeezeTotal (l.take n) + squeezeTotal (l.drop n) := Nat.le_add_right _ _
    _ = squeezeTotal l := by rw [← squeezeTotal_append, List.take_append_drop]

/-- The squeeze total of the steps taken, after one more step. -/
theorem squeezeTotal_take_succ {l : List PatStep} {n : Nat} {t : PatStep} (h : l[n]? = some t) :
    squeezeTotal (l.take (n + 1)) = squeezeTotal (l.take n) + squeezeTotal [t] := by
  rw [List.take_add_one, h, Option.toList_some, squeezeTotal_append]

/-- A core procedure that takes the next step `t` of the pattern and leaves canonical elements keeps the invariant, provided
that the accumulator grows by the elements that `t` squeezes (R33 (d)). -/
theorem Inv.of_coreFrame {s u : State} (h : Inv s) (hm : s.mode = .active) {t : PatStep} (hn : s.apat[s.ioc]? = some t)
    (f : CoreFrame s u) (hst : ∀ k : Fin 5, u.st[k] < s.cfg.p) (hout : ∀ v ∈ u.out, v < s.cfg.p)
    (hioc : u.ioc = s.ioc + 1) (hlen : u.out.length = s.out.length + squeezeTotal [t]) : Inv u := by
  have a := h.active hm
  have hlt : s.ioc < s.apat.length := (List.getElem?_eq_some_iff.mp hn).1
  have hsum : u.out.length = squeezeTotal (s.apat.take u.ioc) := by
    rw [hioc, squeezeTotal_take_succ hn, hlen, a.out_length]
  have hma : u.mode = .active := f.mode.trans hm
  exact {
    st_canonical := f.cfg ▸ hst
    vr_canonical := by rw [f.cfg, f.vr]; exact h.vr_canonical
    out_canonical := f.cfg ▸ hout
    pat_length := f.pat ▸ h.pat_length
    apat_length := f.apat ▸ h.apat_length
    out_length := hsum ▸ (squeezeTotal_take_le _ _).trans a.total
    pat_steps := f.pat ▸ h.pat_steps
    idle := fun hi => by simp [hma] at hi
    active := fun _ => ⟨f.apat ▸ a.nonempty, by rw [f.apat, hioc]; exact hlt, f.apat ▸ a.steps, f.apat ▸ a.first,
      f.apat ▸ a.last, f.apat ▸ hsum, f.apat ▸ a.total⟩
    cp_aligned := f.cp ▸ h.cp_aligned
    cp_bound := by rw [f.cp, f.cs]; exact h.cp_bound
    stream_wf := f.cs ▸ h.stream_wf
    stream_length := f.cs ▸ h.stream_length
    sticky_bits := f.esticky ▸ h.sticky_bits }

theorem Inv.absorbCore {s : State} (h : Inv s) (hm : s.mode = .active) {n : Nat} (hn : s.apat[s.ioc]? = some (.absorb n))
    (e : List Nat) : Inv (absorbCore e s) :=
  h.of_coreFrame hm hn (absorbCore_frame e s) (absorbCore_st_lt e h.st_canonical) (by simpa using h.out_canonical)
    (absorbCore_ioc e s) (by simp [squeezeTotal])

theorem Inv.squeezeCore {s : State} (h : Inv s) (hm : s.mode = .active) {n : Nat}
    (hn : s.apat[s.ioc]? = some (.squeeze n)) : Inv (squeezeCore n s) := by
  obtain ⟨l, hout, hl⟩ := squeezeMany_out_prefix n s
  exact h.of_coreFrame hm hn (squeezeCore_frame n s) (squeezeMany_st_lt n h.st_canonical)
    (squeezeMany_out_lt n h.st_canonical h.out_canonical) (squeezeCore_ioc n s)
    (by simp [squeezeCore_out, hout, hl, squeezeTotal])

/-! ### The state after reset (R34, R280) -/

theorem resetWith_inv (c : Config) {cs : Memory} (hwf : cs.wf = true) (hlen : cs.size < 2 ^ 32) :
    Inv (State.resetWith c cs) where
  st_canonical k := by simpa [State.resetWith] using c.p_pos
  vr_canonical k := by simpa [State.resetWith] using c.p_pos
  out_canonical := by simp [State.resetWith]
  pat_length := Nat.zero_le _
  apat_length := Nat.zero_le _
  out_length := Nat.zero_le _
  pat_steps := by simp [State.resetWith]
  idle _ := ⟨rfl, rfl, rfl, rfl, rfl, rfl⟩
  active hm := by simp [State.resetWith] at hm
  cp_aligned := rfl
  cp_bound := Nat.zero_le _
  stream_wf := hwf
  stream_length := hlen
  sticky_bits b hb := by simp [State.resetWith] at hb

theorem resetWith_responsesOk (c : Config) (cs : Memory) : ResponsesOk (State.resetWith c cs) where
  payload := by simp [State.resetWith]
  codes := by simp [State.resetWith]
  lastcode := rfl
  halted hh := by simp [State.resetWith] at hh

/-- Settles O16: the fields of `State.resetWith`, one by one. -/
theorem resetValues : Obligations.ResetValues := by
  unfold Obligations.ResetValues
  refine ⟨fun k => ?_, fun k => ?_, rfl, rfl, rfl, rfl, rfl, rfl, rfl, rfl, rfl, rfl, rfl, rfl, rfl, rfl⟩
  all_goals simp [State.reset, State.resetWith]

/-- Settles O18: reset is `State.resetWith` of the installed configuration and the empty stream. -/
theorem resetMeetsInvariants : Obligations.ResetMeetsInvariants :=
  ⟨resetWith_inv Config.installed Memory.empty_wf (by decide), resetWith_responsesOk Config.installed ⟨0, []⟩⟩

end Sys2Proof.Machine

/-! The state family, part 2: the values that commands write are canonical, and what the body of each command can do. -/

namespace Sys2Proof.Machine

/-! ### Canonical values -/

theorem decodeAll_lt {p : Nat} {cs : List (List Byte)} {vs : List Nat} (h : decodeAll p cs = some vs) :
    ∀ v ∈ vs, v < p := by
  induction cs generalizing vs with
  | nil =>
    obtain rfl : [] = vs := Option.some.inj h
    simp
  | cons c cs ih =>
    unfold decodeAll at h
    split at h
    · next w ws hw hws =>
      obtain rfl : w :: ws = vs := Option.some.inj h
      obtain ⟨rfl, hlt⟩ := dec32_eq_some.mp hw
      simpa [hlt] using ih hws
    · cases h

theorem mem_toList_lt {n p : Nat} {v : Vector Nat n} (h : ∀ k : Fin n, v[k] < p) : ∀ x ∈ v.toList, x < p := by
  intro x hx
  obtain ⟨k, hk, rfl⟩ := Vector.mem_iff_getElem.mp (Vector.mem_toList_iff.mp hx)
  exact h ⟨k, hk⟩

theorem truncElem_lt (c : Config) (x : Nat) : truncElem c x < c.p :=
  (Nat.mod_lt _ (by have := c.q_bounds; omega)).trans c.q_bounds.2

theorem spongeHash_lt (d : Domain) (n : Nat) (e : List Nat) (s : State) : (spongeHash d n e s).2 < s.cfg.p := by
  have hst := absorbCore_st_lt e (spongeInit_st_lt [.absorb n, .squeeze 1] d s)
  rw [spongeHash_value]
  simp only
  split
  · exact hst 1
  · exact permutation_lt s.cfg _ 1

theorem encryptCore_lt (sx sy nc : Nat) (msg : List Nat) (s : State) :
    ∀ v ∈ (encryptCore sx sy nc msg s).2, v < s.cfg.p := by
  intro v hv
  rw [encryptCore_value] at hv
  rcases List.mem_append.mp hv with hv | hv
  · obtain ⟨i, -, rfl⟩ := List.mem_map.mp hv
    exact fadd_lt s.cfg _ _
  · rw [List.mem_singleton.mp hv]
    exact permutation_lt s.cfg _ 1

theorem decryptCore_lt {sx sy nc : Nat} {c : List Nat} {s : State} {m : List Nat}
    (h : (decryptCore sx sy nc c s).2 = some m) : ∀ v ∈ m, v < s.cfg.p := by
  rw [decryptCore_value] at h
  simp only [Option.ite_none_right_eq_some, Option.some.injEq] at h
  obtain ⟨-, rfl⟩ := h
  intro v hv
  obtain ⟨i, -, rfl⟩ := List.mem_map.mp hv
  exact fsub_lt s.cfg _ _

theorem vrWrite_nil (s : State) (b : Nat) : s.vrWrite b [] = s := by
  have h : writeRegs s.vr b [] = s.vr := by
    ext k hk
    have hout : ¬ (b ≤ k ∧ k < b + ([] : List Nat).length) := by simp
    exact (writeRegs_getElem s.vr b [] ⟨k, hk⟩).trans (if_neg hout)
  rw [State.vrWrite, h]

/-! ### The core procedures, field by field -/

section
variable (e : List Nat) (n : Nat) (s : State)

@[simp] theorem absorbCore_cfg : (absorbCore e s).cfg = s.cfg := (absorbCore_frame e s).cfg
@[simp] theorem absorbCore_cs : (absorbCore e s).cs = s.cs := (absorbCore_frame e s).cs
@[simp] theorem absorbCore_cp : (absorbCore e s).cp = s.cp := (absorbCore_frame e s).cp
@[simp] theorem absorbCore_vr : (absorbCore e s).vr = s.vr := (absorbCore_frame e s).vr
@[simp] theorem absorbCore_pat : (absorbCore e s).pat = s.pat := (absorbCore_frame e s).pat
@[simp] theorem absorbCore_apat : (absorbCore e s).apat = s.apat := (absorbCore_frame e s).apat
@[simp] theorem absorbCore_mode : (absorbCore e s).mode = s.mode := (absorbCore_frame e s).mode
@[simp] theorem squeezeCore_cfg : (squeezeCore n s).cfg = s.cfg := (squeezeCore_frame n s).cfg
@[simp] theorem squeezeCore_cs : (squeezeCore n s).cs = s.cs := (squeezeCore_frame n s).cs
@[simp] theorem squeezeCore_cp : (squeezeCore n s).cp = s.cp := (squeezeCore_frame n s).cp
@[simp] theorem squeezeCore_vr : (squeezeCore n s).vr = s.vr := (squeezeCore_frame n s).vr
@[simp] theorem squeezeCore_pat : (squeezeCore n s).pat = s.pat := (squeezeCore_frame n s).pat
@[simp] theorem squeezeCore_apat : (squeezeCore n s).apat = s.apat := (squeezeCore_frame n s).apat
@[simp] theorem squeezeCore_mode : (squeezeCore n s).mode = s.mode := (squeezeCore_frame n s).mode

end

/-! ### The effect of a command -/

/-- What the body of a command can make of the state `s`, before the epilogue: one case for each kind of change, with the
commands that make it and what was checked before. `exec_hasEffect` ties it to `exec`. -/
inductive Effect (s : State) : Instr → State → Prop where
  /-- A command that changes nothing, and every error that leaves the sponge alive (R254). -/
  | unchanged (i : Instr) : Effect s i s
  /-- `LDI`, `LDE`, `LDC`, `STST`, `TRUNC`. -/
  | registers {i : Instr} (b : Nat) {xs : List Nat} (hi : i.opcode.toNat ∈ [0x01, 0x02, 0x04, 0x07, 0x08])
      (hx : (∀ k : Fin 5, s.st[k] < s.cfg.p) → ∀ x ∈ xs, x < s.cfg.p) : Effect s i (s.vrWrite b xs)
  | loadState (vs : Byte) : Effect s (.ldst vs) { s with st := Vector.ofFn fun k : Fin 5 => s.vrAt (vs.toNat + k.val) }
  | permuted : Effect s .perm (permute s)
  | patternCleared : Effect s .pclr { s with pat := [] }
  /-- `PABS` and `PSQZ`. -/
  | staged {i : Instr} (t : PatStep) (hi : i.opcode.toNat ∈ [0x21, 0x22]) (hlen : s.pat.length ≠ NPAT)
      (ht : stepLen t ≤ 255) : Effect s i { s with pat := s.pat ++ [t] }
  | started (d : Byte) (dom : Domain) (hm : s.mode = .idle) (hv : patternValid s.pat dom = true)
      (ht : squeezeTotal s.pat ≤ 32) : Effect s (.start d) (spongeInit s.pat dom s)
  | absorbed (vs n m : Byte) (hm : s.mode = .active) (hn : s.apat[s.ioc]? = some (.absorb n.toNat)) :
      Effect s (.absorb vs n m) (absorbCore (s.vrRange vs.toNat n.toNat) s)
  | squeezed (n : Byte) (hm : s.mode = .active) (hn : s.apat[s.ioc]? = some (.squeeze n.toNat)) :
      Effect s (.squeeze n) (squeezeCore n.toNat s)
  /-- `ABORT`, and the errors of `ABSORB`, `SQUEEZE` and `FINISH` that kill the sponge (R254). -/
  | killed {i : Instr} (hi : i.opcode.toNat ∈ [0x24, 0x25, 0x26, 0x27]) : Effect s i (spongeKill s)
  | delivered (vd : Byte) (hm : s.mode = .active) : Effect s (.finish vd) (spongeKill (s.vrWrite vd.toNat s.out))
  /-- `HASH`, `MHASH2`, `MHASH4`, `ENC`, `DEC`: a whole run, its result written and the context zeroised. -/
  | computed {i : Instr} (b : Nat) {xs : List Nat} (n : Word) (hi : i.opcode.toNat ∈ [0x28, 0x29, 0x2A, 0x30, 0x31])
      (hm : s.mode = .idle) (hx : ∀ x ∈ xs, x < s.cfg.p) : Effect s i ((spongeKill { s with pcnt := n }).vrWrite b xs)
  | stickyCleared : Effect s .clrerr { s with esticky := 0 }

theorem Effect.cfg {s u : State} {i : Instr} (h : Effect s i u) : u.cfg = s.cfg := by cases h <;> simp

theorem Effect.cs {s u : State} {i : Instr} (h : Effect s i u) : u.cs = s.cs := by cases h <;> simp

theorem Effect.cp {s u : State} {i : Instr} (h : Effect s i u) : u.cp = s.cp := by cases h <;> simp

/-- The outcome `r` of the command `i` in the state `s` is an effect and then the epilogue; with which codes, `exec_form`
says. -/
def HasEffect (i : Instr) (s : State) (r : Result) : Prop :=
  ∃ c cnt payload u, Effect s i u ∧
    r = .next (epilogue c i.opcode (i.packetLen s.cfg.mcap) cnt payload u)

theorem Effect.completeWith {s u : State} {i : Instr} (h : Effect s i u) (cnt : Byte) (payload : List Byte) :
    HasEffect i s (.next (completeWith i cnt payload u)) :=
  ⟨.ok, cnt, payload, u, h, by rw [Machine.completeWith, h.cfg]⟩

theorem Effect.complete {s u : State} {i : Instr} (h : Effect s i u) : HasEffect i s (.next (complete i u)) :=
  h.completeWith 0 []

theorem Effect.raise {s u : State} {i : Instr} (h : Effect s i u) (c : ResultCode) :
    HasEffect i s (.next (raise i c u)) :=
  ⟨c, 0, [], u, h, by rw [Machine.raise, h.cfg]⟩

/-- An error that leaves the sponge alive. -/
theorem hasEffect_error {i : Instr} {s : State} {c : ResultCode} : HasEffect i s (.next (raise i c s)) :=
  (Effect.unchanged i).raise c

theorem stageStep_hasEffect {i : Instr} {t : PatStep} (s : State) (hi : i.opcode.toNat ∈ [0x21, 0x22])
    (ht : stepLen t ≤ 255) : HasEffect i s (.next (stageStep i t s)) := by
  unfold stageStep
  split
  · exact hasEffect_error
  · next hlen => exact (Effect.staged t hi hlen ht).complete

theorem execStart_hasEffect (d : Byte) (s : State) : HasEffect (.start d) s (execStart d s) := by
  unfold execStart
  split
  · exact hasEffect_error
  next hm =>
  split
  · exact hasEffect_error
  next dom _ =>
  split
  · exact hasEffect_error
  next hv =>
  split
  · exact hasEffect_error
  next ht =>
  exact (Effect.started d dom (not_not.mp hm) (by simpa using hv) (not_lt.mp ht)).complete

theorem execAbsorb_hasEffect (vs n m : Byte) (s : State) : HasEffect (.absorb vs n m) s (execAbsorb vs n m s) := by
  have hkill : Effect s (.absorb vs n m) (spongeKill s) := .killed (by simp [Instr.opcode])
  unfold execAbsorb
  split
  · exact hasEffect_error
  next hm =>
  split
  · exact hasEffect_error
  split
  · exact hkill.raise _
  split
  · exact hkill.raise _
  next hn =>
  exact (Effect.absorbed vs n m (not_not.mp hm) (not_not.mp hn)).complete

theorem execSqueeze_hasEffect (n : Byte) (s : State) : HasEffect (.squeeze n) s (execSqueeze n s) := by
  unfold execSqueeze
  split
  · exact hasEffect_error
  next hm =>
  split
  · exact (Effect.killed (by simp [Instr.opcode])).raise _
  next hn =>
  exact (Effect.squeezed n (not_not.mp hm) (not_not.mp hn)).complete

theorem execFinish_hasEffect (vd : Byte) (s : State) : HasEffect (.finish vd) s (execFinish vd s) := by
  unfold execFinish
  split
  · exact hasEffect_error
  next hm =>
  split
  · exact hasEffect_error
  split
  · exact (Effect.killed (by simp [Instr.opcode])).raise _
  split
  · exact hasEffect_error
  · exact (Effect.delivered vd (not_not.mp hm)).completeWith _ _

theorem hashInto_hasEffect {i : Instr} {s : State} (hi : i.opcode.toNat ∈ [0x28, 0x29, 0x2A, 0x30, 0x31])
    (hm : s.mode = .idle) (d : Domain) (n : Nat) (e : List Nat) (vd : Nat) :
    HasEffect i s (.next (hashInto i vd (spongeHash d n e s))) := by
  unfold hashInto
  rw [spongeHash_state]
  exact (Effect.computed vd _ hi hm (by simpa using spongeHash_lt d n e s)).complete

theorem merkleHash_hasEffect {i : Instr} (hi : i.opcode.toNat ∈ [0x28, 0x29, 0x2A, 0x30, 0x31]) (d : Domain)
    (k vs m vd : Nat) (s : State) : HasEffect i s (.next (merkleHash i d k vs m vd s)) := by
  unfold merkleHash
  split
  · exact hasEffect_error
  next hm =>
  split
  · exact hasEffect_error
  split
  · exact hasEffect_error
  · exact hashInto_hasEffect hi (not_not.mp hm) d k _ vd

theorem execHash_hasEffect (vs n vd : Byte) (s : State) : HasEffect (.hash vs n vd) s (execHash vs n vd s) := by
  unfold execHash
  split
  · exact hasEffect_error
  next hm =>
  split
  · exact hasEffect_error
  · exact hashInto_hasEffect (by simp [Instr.opcode]) (not_not.mp hm) _ _ _ _

theorem execEnc_hasEffect (vs mlen vd : Byte) (s : State) : HasEffect (.enc vs mlen vd) s (execEnc vs mlen vd s) := by
  unfold execEnc
  simp only
  split
  · exact hasEffect_error
  next hm =>
  split
  · exact hasEffect_error
  · rw [encryptCore_state]
    exact (Effect.computed _ _ (by simp [Instr.opcode]) (not_not.mp hm) (encryptCore_lt _ _ _ _ s)).complete

theorem execDec_hasEffect (vs vd : Byte) (s : State) : HasEffect (.dec vs vd) s (execDec vs vd s) := by
  unfold execDec
  simp only
  split
  · exact hasEffect_error
  next hm =>
  have run {xs : List Nat} (hx : ∀ x ∈ xs, x < s.cfg.p) :
      Effect s (.dec vs vd) ((spongeKill { s with pcnt := s.pcnt + 2 }).vrWrite vd.toNat xs) :=
    .computed _ _ (by simp [Instr.opcode]) (not_not.mp hm) hx
  split
  · exact hasEffect_error
  rw [decryptCore_state]
  split
  · exact (vrWrite_nil (spongeKill _) vd.toNat ▸ run (xs := []) (by simp)).raise _
  · next m hd => exact (run (decryptCore_lt hd)).complete

/-- Every command has one of the effects of `Effect`, and then the epilogue. -/
theorem exec_hasEffect (i : Instr) (s : State) : HasEffect i s (exec i s) := by
  cases i with
  | nop => exact (Effect.unchanged _).complete
  | ldi vd imm =>
    simp only [exec, execLdi]
    split
    · exact hasEffect_error
    · exact (Effect.registers _ (by simp [Instr.opcode]) (by simp [fe_lt])).complete
  | lde vd payload =>
    simp only [exec, execLde]
    split
    · exact hasEffect_error
    split
    · exact hasEffect_error
    · next v hv =>
      obtain ⟨rfl, hlt⟩ := dec32_eq_some.mp hv
      exact (Effect.registers _ (by simp [Instr.opcode]) (by simp [hlt])).complete
  | ste vs =>
    simp only [exec, execSte]
    split
    · exact hasEffect_error
    · exact (Effect.unchanged _).completeWith _ _
  | ldc vd payload =>
    simp only [exec, execLdc]
    split
    · exact hasEffect_error
    split
    · exact hasEffect_error
    · next es hes => exact (Effect.registers _ (by simp [Instr.opcode]) fun _ => decodeAll_lt hes).complete
  | stc vs =>
    simp only [exec, execStc]
    split
    · exact hasEffect_error
    · exact (Effect.unchanged _).completeWith _ _
  | ldst vs =>
    simp only [exec, execLdst]
    split
    · exact hasEffect_error
    split
    · exact hasEffect_error
    · exact (Effect.loadState vs).complete
  | stst vd =>
    simp only [exec, execStst]
    split
    · exact hasEffect_error
    split
    · exact hasEffect_error
    · exact (Effect.registers _ (by simp [Instr.opcode]) fun hst => mem_toList_lt hst).complete
  | trunc vs vd =>
    simp only [exec, execTrunc]
    split
    · exact hasEffect_error
    · exact (Effect.registers _ (by simp [Instr.opcode]) (by simp [truncElem_lt])).complete
  | perm =>
    simp only [exec, execPerm]
    split
    · exact hasEffect_error
    · exact Effect.permuted.complete
  | pclr => exact Effect.patternCleared.complete
  | pabs n => exact stageStep_hasEffect s (by simp [Instr.opcode]) (Nat.le_of_lt_succ n.isLt)
  | psqz n => exact stageStep_hasEffect s (by simp [Instr.opcode]) (Nat.le_of_lt_succ n.isLt)
  | start d => exact execStart_hasEffect d s
  | absorb vs n m => exact execAbsorb_hasEffect vs n m s
  | squeeze n => exact execSqueeze_hasEffect n s
  | finish vd => exact execFinish_hasEffect vd s
  | abort => exact (Effect.killed (by simp [Instr.opcode])).complete
  | hash vs n vd => exact execHash_hasEffect vs n vd s
  | mhash2 vs m vd => exact merkleHash_hasEffect (by simp [Instr.opcode]) _ _ _ _ _ s
  | mhash4 vs m vd => exact merkleHash_hasEffect (by simp [Instr.opcode]) _ _ _ _ _ s
  | enc vs mlen vd => exact execEnc_hasEffect vs mlen vd s
  | dec vs vd => exact execDec_hasEffect vs vd s
  | rdsr csr =>
    simp only [exec, execRdsr]
    split
    · exact hasEffect_error
    · exact (Effect.unchanged _).completeWith _ _
  | clrerr => exact Effect.stickyCleared.complete

end Sys2Proof.Machine

/-! The state family, part 3: every step keeps the invariant (R33), and which commands write which state (R20). -/

namespace Sys2Proof

/-- What decodes is no longer than the bytes it was decoded from (R94 (2)). -/
theorem decodeFields_packetLen {mcap : Nat} (hm : mcap ≤ 4) {op a b c : Byte} {rest : List Byte} {i : Instr}
    (h : decodeFields mcap op a b c rest = .ok i) : i.packetLen mcap ≤ 4 + rest.length := by
  have plain {u : Bool} {j : Instr} (h : onlyIf u j = .ok i) (hj : j.packetLen mcap = 4) :
      i.packetLen mcap ≤ 4 + rest.length := by
    obtain ⟨-, rfl⟩ := onlyIf_ok h
    omega
  -- The arms of R98 in order: `LDE` and `LDC` have a payload, six commands use all three fields, and no opcode is the last.
  unfold decodeFields at h
  split at h
  case h_3 =>
    obtain ⟨-, hn, rfl⟩ := withPayload_ok (by decide) h
    exact Nat.add_le_add_left hn 4
  case h_5 =>
    obtain ⟨-, hn, rfl⟩ := withPayload_ok (by unfold payloadLenV; omega) h
    exact Nat.add_le_add_left hn 4
  case h_26 => cases h
  case h_2 | h_15 | h_19 | h_20 | h_21 | h_22 =>
    obtain rfl := Except.ok.inj h
    exact Nat.le_add_right 4 _
  all_goals exact plain h rfl

end Sys2Proof

namespace Sys2Proof.Machine

theorem Inv.of_effect {s u : State} {i : Instr} (h : Inv s) (he : Effect s i u) : Inv u := by
  cases he with
  | unchanged => exact h
  | registers b hi hx => exact h.vrWrite b (hx h.st_canonical)
  | loadState vs =>
    exact h.setSt (fun k => by simpa using vrAt_lt s.cfg.p_pos h.vr_canonical (vs.toNat + k.val)) s.pcnt
  | permuted => exact h.setSt (permutation_lt s.cfg s.st) (s.pcnt + 1)
  | patternCleared => exact h.setPat (Nat.zero_le _) (by simp)
  | staged t hi hlen ht =>
    refine h.setPat ?_ ?_
    · have hle := h.pat_length
      rw [List.length_append, List.length_singleton]
      exact Nat.lt_of_le_of_ne hle hlen
    · intro r hr
      rcases List.mem_append.mp hr with hr | hr
      · exact h.pat_steps r hr
      · rwa [List.mem_singleton.mp hr]
  | started d dom hm hv ht => exact h.spongeInit hv ht
  | absorbed vs n m hm hn => exact h.absorbCore hm hn _
  | squeezed n hm hn => exact h.squeezeCore hm hn
  | killed hi => exact h.spongeKill
  | delivered vd hm => exact (h.vrWrite vd.toNat h.out_canonical).spongeKill
  | computed b n hi hm hx => exact (h.setSt h.st_canonical n).spongeKill.vrWrite b hx
  | stickyCleared => exact h.clearSticky

/-- A command keeps the invariant when its whole packet lies within the stream. -/
theorem Inv.exec {s t : State} {i : Instr} (h : Inv s) (hle : s.cp + i.packetLen s.cfg.mcap ≤ s.cs.size)
    (ht : exec i s = .next t) : Inv t := by
  obtain ⟨c, cnt, payload, u, he, hr⟩ := exec_hasEffect i s
  obtain rfl := Host.Outcome.next.inj (ht.symm.trans hr)
  have hu := h.of_effect he
  exact hu.epilogue c _ _ _ (packetLen_mod i _) (by rwa [he.cp, he.cs])

/-- The bytes of the stream reach to the end of the packet that is fetched. -/
theorem fetch_packet_le {s : State} {i : Instr} (h : fetch s = .ok i) :
    s.cp + i.packetLen s.cfg.mcap ≤ s.cs.size := by
  obtain ⟨op, a, b, c, rest, hb, hd⟩ := decode_ok h
  have hlen := fetchBytes_length s
  have hp := decodeFields_packetLen s.cfg.mcap_bounds.2 hd
  rw [hb] at hlen
  simp only [List.length_cons] at hlen
  omega

/-- What a step that answers `t` did: it raised `IllegalCommand`, or it ran a command that stands wholly in the stream. -/
theorem step_cases {s t : State} (h : step s = .next t) :
    (∃ op, s.cp < s.cs.size ∧ t = raiseIllegal op s) ∨
    ∃ i, s.cp + i.packetLen s.cfg.mcap ≤ s.cs.size ∧ exec i s = .next t := by
  unfold step at h
  split at h
  · cases h
  split at h
  · cases h
  next op hop =>
  split at h
  · have hlt : s.cp < s.cs.size := by
      by_contra hge
      simp [Memory.read, hge] at hop
    exact .inl ⟨op, hlt, (Host.Outcome.next.inj h).symm⟩
  · next i hi => exact .inr ⟨i, fetch_packet_le hi, h⟩

/-- Settles O19: a step is `IllegalCommand`, whose epilogue keeps the invariant, or a command, whose effect keeps it and
whose packet lies within the stream. -/
theorem stepKeepsInvariant : Obligations.StepKeepsInvariant := by
  intro s t hs h
  rcases step_cases h with ⟨op, hlt, rfl⟩ | ⟨i, hle, hi⟩
  · exact hs.epilogue .illegalCommand op 0 [] (Nat.zero_mod 4) hs.cp_bound
  · exact hs.exec hle hi

/-! ### The writers of each piece of state (R20) -/

section
variable {s u : State} {i : Instr} (h : Effect s i u)
include h

theorem Effect.vr_writers (hne : u.vr ≠ s.vr) :
    i.opcode.toNat ∈ [0x01, 0x02, 0x04, 0x07, 0x08, 0x26, 0x28, 0x29, 0x2A, 0x30, 0x31] := by
  cases h with
  | registers _ hi => exact List.mem_append_left [0x26, 0x28, 0x29, 0x2A, 0x30, 0x31] hi
  | delivered => simp [Instr.opcode]
  | computed _ _ hi => exact List.mem_append_right [0x01, 0x02, 0x04, 0x07, 0x08, 0x26] hi
  | _ => exact absurd (by simp) hne

theorem Effect.pat_writers (hne : u.pat ≠ s.pat) : i.opcode.toNat ∈ [0x20, 0x21, 0x22] := by
  cases h with
  | patternCleared => simp [Instr.opcode]
  | staged _ hi => exact List.mem_cons_of_mem 0x20 hi
  | _ => exact absurd (by simp) hne

theorem Effect.pcnt_writers (hne : u.pcnt ≠ s.pcnt) :
    i.opcode.toNat ∈ [0x10, 0x24, 0x25, 0x28, 0x29, 0x2A, 0x30, 0x31] := by
  cases h with
  | permuted | absorbed | squeezed => simp [Instr.opcode]
  | computed _ _ hi => exact List.mem_append_right [0x10, 0x24, 0x25] hi
  | _ => exact absurd (by simp) hne

theorem Effect.st_writers (hne : u.st ≠ s.st) :
    i.opcode.toNat ∈ [0x06, 0x10, 0x23, 0x24, 0x25, 0x26, 0x27, 0x28, 0x29, 0x2A, 0x30, 0x31] := by
  cases h with
  | loadState | permuted | started | absorbed | squeezed | delivered => simp [Instr.opcode]
  | killed hi =>
    exact List.mem_append_right [0x06, 0x10, 0x23] (List.mem_append_left [0x28, 0x29, 0x2A, 0x30, 0x31] hi)
  | computed _ _ hi => exact List.mem_append_right [0x06, 0x10, 0x23, 0x24, 0x25, 0x26, 0x27] hi
  | _ => exact absurd (by simp) hne

/-- The commands that start, run, end or zeroise a sponge: those that write `APAT` and `OUT`. -/
theorem Effect.context_writers (hne : u.apat ≠ s.apat ∨ u.out ≠ s.out) :
    i.opcode.toNat ∈ [0x23, 0x24, 0x25, 0x26, 0x27, 0x28, 0x29, 0x2A, 0x30, 0x31] := by
  cases h with
  | started | squeezed | delivered => simp [Instr.opcode]
  | killed hi => exact List.mem_append_right [0x23] (List.mem_append_left [0x28, 0x29, 0x2A, 0x30, 0x31] hi)
  | computed _ _ hi => exact List.mem_append_right [0x23, 0x24, 0x25, 0x26, 0x27] hi
  | _ => simp at hne

theorem Effect.activates (hs : s.mode = .idle) (hu : u.mode = .active) : i.opcode.toNat = 0x23 := by
  cases h with
  | started => rfl
  | _ => simp [hs] at hu

/-- A sponge ends by a kill or by its delivery; a hash or cipher run, which zeroises too, needs that none exists. -/
theorem Effect.deactivates (hs : s.mode = .active) (hu : u.mode = .idle) :
    i.opcode.toNat ∈ [0x24, 0x25, 0x26, 0x27] ∧ SpongeCleared u := by
  cases h with
  | killed hi => exact ⟨hi, spongeKill_cleared s⟩
  | delivered => exact ⟨by simp [Instr.opcode], spongeKill_cleared _⟩
  | computed _ _ _ hm => simp [hs] at hm
  | _ => simp [hs] at hu

/-- Before the epilogue only `CLRERR` writes `ESTICKY` (R227). -/
theorem Effect.esticky (hi : i.opcode.toNat ≠ 0x41) : u.esticky = s.esticky := by
  cases h with
  | stickyCleared => exact absurd rfl hi
  | absorbed vs n m => exact (absorbCore_frame _ s).esticky
  | squeezed n => exact (squeezeCore_frame _ s).esticky
  | _ => simp

end

/-- Settles O58: the epilogue writes none of these registers but `ESTICKY`, where it clears no bit, and an effect writes each
of them under its writers only. -/
theorem writersOfState : Obligations.WritersOfState := by
  intro i s t ht
  obtain ⟨c, cnt, payload, u, he, hr⟩ := exec_hasEffect i s
  obtain rfl := Host.Outcome.next.inj (ht.symm.trans hr)
  refine ⟨he.vr_writers, he.pat_writers, he.pcnt_writers, fun hu hs => he.activates hs hu, fun hu hs => ?_, he.st_writers,
    fun hne => he.context_writers (.inl hne), fun hne => ?_, fun ⟨b, hs, hu⟩ => ?_⟩
  · obtain ⟨hi, hcl⟩ := he.deactivates hs hu
    exact ⟨hi, epilogue_cleared c _ _ _ _ hcl⟩
  · have hi := he.context_writers (.inr hne)
    simp only [List.mem_cons] at hi ⊢
    tauto
  · by_contra hi
    rw [epilogue_esticky, stickyAfter_getLsbD, he.esticky hi, hs, Bool.true_or] at hu
    exact absurd hu (by decide)

end Sys2Proof.Machine

/-! The memory family (spec/20_memory.md): the byte encodings (R61, R62) and the command stream (R66, R71). Part 1: the
encoding of elements, the parameters that no command writes, and what the supply of bytes does. -/

namespace Sys2Proof.Machine

/-! ### The encoding of field elements (R62) -/

theorem leNat_eq_and_lt_iff (c : Config) {b : List Byte} (hb : b.length = 32) (v : Nat) :
    leNat b = v ∧ v < c.p ↔ enc32 v = b ∧ v < c.p := by
  refine and_congr_left fun hv => ⟨?_, ?_⟩
  · rintro rfl
    rw [enc32, ← hb, leBytes_leNat]
  · rintro rfl
    exact leNat_enc32 c hv

theorem dec32_eq_none {p : Nat} {b : List Byte} : dec32 p b = none ↔ p ≤ leNat b := by
  simp [dec32]

/-- Settles O9: both round trips, and the one way to fail. -/
theorem elementEncoding : Obligations.ElementEncoding := by
  intro c
  refine ⟨fun v hv => ⟨enc32_length v, dec32_enc32 c hv, fun k hk => ?_⟩, fun b hb v => ?_, fun b => dec32_eq_none⟩
  · rw [enc32, leBytes_getElem?, if_pos hk]
  · rw [dec32_eq_some, ← leNat_eq_and_lt_iff c hb]
    exact and_congr_right fun h => by rw [h]

/-- Settles O15: the body of a command keeps both parameters (`BodyFrame`), and so does the epilogue. -/
theorem commandsKeepParameters : Obligations.CommandsKeepParameters := by
  intro i s t ht
  obtain ⟨t', c, cnt, payload, u, hexec, hform⟩ := exec_form i s
  obtain rfl : t' = t := Host.Outcome.next.inj (hexec.symm.trans ht)
  rw [hform.result]
  exact paramsKept_of hform.body.cfg hform.body.cs

/-! ### Supplying bytes (R66) -/

theorem Memory.bytes_append {m : Memory} (h : m.wf = true) (bs : List Byte) : (m.append bs).bytes = m.bytes ++ bs := by
  apply List.ext_getElem?
  intro k
  have hlen : m.bytes.length = m.size := by simp [Memory.bytes]
  rw [Memory.bytes, Memory.window_getElem?, Memory.append_size, Nat.zero_add]
  rcases Nat.lt_or_ge k m.size with hk | hk
  · rw [if_pos (Nat.lt_add_right _ hk), Memory.read_append_old h bs hk, List.getElem?_append_left (hlen ▸ hk),
      Memory.bytes, Memory.window_getElem?, if_pos hk, Nat.zero_add]
  · rw [List.getElem?_append_right (hlen ▸ hk), hlen]
    split
    · next hlt =>
      rw [← Memory.read_append_new h bs (Nat.sub_lt_left_of_lt_add hk hlt), Nat.add_sub_cancel' hk]
    · next hge => exact (List.getElem?_eq_none (by omega)).symm

/-- The part of the stream that was there is read as before. -/
theorem Memory.window_append_old {m : Memory} (h : m.wf = true) (bs : List Byte) {a n : Nat} (hn : a + n ≤ m.size) :
    (m.append bs).window a n = m.window a n := by
  apply List.ext_getElem?
  intro k
  rw [Memory.window_getElem?, Memory.window_getElem?]
  split
  · exact Memory.read_append_old h bs (by omega)
  · rfl

theorem supply_spongeKept (s : State) (bs : List Byte) : SpongeKept s { s.supply bs with st := s.st } :=
  ⟨rfl, rfl, rfl, rfl, rfl, rfl, rfl, rfl⟩

/-- The invariant speaks of the stream only in its canonical form, its bound and the bound of `CP`. -/
theorem Inv.supply {s : State} (h : Inv s) {bs : List Byte} (hlen : s.cs.size + bs.length < 2 ^ 32) :
    Inv (s.supply bs) :=
  { h with
    idle := fun hm => (h.idle hm).of_kept (supply_spongeKept s bs)
    active := fun hm => (h.active hm).of_kept (supply_spongeKept s bs)
    cp_bound := by simpa using Nat.le_add_right_of_le h.cp_bound
    stream_wf := Memory.append_wf h.stream_wf bs
    stream_length := by simpa using hlen }

/-- Settles O22: the bytes by `Memory.bytes_append`, the frame by definition, and the invariant by `Inv.supply`. -/
theorem supplyAppendsBytes : Obligations.SupplyAppendsBytes := fun s bs hwf =>
  ⟨Memory.bytes_append hwf bs, Memory.append_size s.cs bs, rfl, fun h hlen => h.supply hlen⟩

end Sys2Proof.Machine

/-! The memory family, part 2: the table ROM and its initialisation (R61). -/

namespace Sys2Proof.Machine

/-! ### Bytes at an address of the table ROM (R61) -/

/-- Where pieces of equal length are strung together, position `w * i + k` is position `k` of piece `i`. -/
theorem flatMap_getElem?_of_length {α β : Type} {f : α → List β} {w : Nat} (hw : ∀ x, (f x).length = w) (l : List α)
    (i : Nat) {k : Nat} (hk : k < w) : (l.flatMap f)[w * i + k]? = l[i]?.bind fun x => (f x)[k]? := by
  induction l generalizing i with
  | nil => rfl
  | cons x l ih =>
    rw [List.flatMap_cons]
    cases i with
    | zero => rw [Nat.mul_zero, Nat.zero_add, List.getElem?_append_left (by rwa [hw])]; rfl
    | succ i =>
      rw [List.getElem?_append_right (by rw [hw, Nat.mul_succ]; omega), hw, List.getElem?_cons_succ, ← ih]
      congr 1
      rw [Nat.mul_succ]
      omega

theorem tableRead_getElem? (tr : List Byte) (a n k : Nat) :
    (tableRead tr a n)[k]? = if k < n then tr[a + k]? else none := by
  simp [tableRead, List.getElem?_take]

theorem tableRead_length {tr : List Byte} {a n : Nat} (h : a + n ≤ tr.length) : (tableRead tr a n).length = n := by
  simp only [tableRead, List.length_take, List.length_drop]
  omega

theorem rowBytes_length (row : Vector Nat 5) : (row.toList.flatMap enc32).length = 160 := by
  rw [flatMap_enc32_length, Vector.length_toList]

theorem rowsBytes_length {n : Nat} (t : Vector (Vector Nat 5) n) : (rowsBytes t).length = 160 * n := by
  simp [rowsBytes, List.length_flatMap, Nat.mul_comm]

theorem tableImage_length (rc : RoundTable) (mds : MdsTable) : (tableImage rc mds).length = tableBytes := by
  rw [tableImage, List.length_append, rowsBytes_length, rowsBytes_length, tableBytes]

/-- Row-major order: element `k` of row `r` stands at `32 * (5 * r + k)`. -/
theorem rowsBytes_getElem? {n : Nat} (t : Vector (Vector Nat 5) n) (r : Fin n) (k : Fin 5) {b : Nat} (hb : b < 32) :
    (rowsBytes t)[32 * (5 * r.val + k.val) + b]? = (enc32 t[r][k])[b]? := by
  have hk := k.isLt
  have hpos : 32 * (5 * r.val + k.val) + b = 160 * r.val + (32 * k.val + b) := by omega
  rw [hpos, rowsBytes, flatMap_getElem?_of_length rowBytes_length _ _ (by omega)]
  simp [flatMap_getElem?_of_length enc32_length _ _ hb]

theorem tableRead_eq_enc32 {tr : List Byte} {a v : Nat} (h : ∀ b, b < 32 → tr[a + b]? = (enc32 v)[b]?) :
    tableRead tr a 32 = enc32 v := by
  apply List.ext_getElem?
  intro b
  rw [tableRead_getElem?]
  split
  · next hb => exact h b hb
  · next hb => exact (List.getElem?_eq_none (by rw [enc32_length]; omega)).symm

theorem tableImage_read_rc (rc : RoundTable) (mds : MdsTable) (r : Fin 68) (k : Fin 5) :
    tableRead (tableImage rc mds) (rcAddr r k) 32 = enc32 rc[r][k] := by
  refine tableRead_eq_enc32 fun b hb => ?_
  rw [tableImage, List.getElem?_append_left (by rw [rowsBytes_length, rcAddr]; omega)]
  exact rowsBytes_getElem? rc r k hb

theorem tableImage_read_mds (rc : RoundTable) (mds : MdsTable) (k j : Fin 5) :
    tableRead (tableImage rc mds) (mdsAddr k j) 32 = enc32 mds[k][j] := by
  refine tableRead_eq_enc32 fun b hb => ?_
  have hpos : mdsAddr k j + b - 160 * 68 = 32 * (5 * k.val + j.val) + b := by rw [mdsAddr]; omega
  rw [tableImage, List.getElem?_append_right (by rw [rowsBytes_length, mdsAddr]; omega), rowsBytes_length, hpos]
  exact rowsBytes_getElem? mds k j hb

/-- Two table ROMs with the same bytes at each of the 365 elements are the same bytes. -/
theorem tableRom_ext {tr tr' : List Byte} (hlen : tr.length = tableBytes) (hlen' : tr'.length = tableBytes)
    (hrc : ∀ (r : Fin 68) (k : Fin 5), tableRead tr (rcAddr r k) 32 = tableRead tr' (rcAddr r k) 32)
    (hmds : ∀ k j : Fin 5, tableRead tr (mdsAddr k j) 32 = tableRead tr' (mdsAddr k j) 32) : tr = tr' := by
  have byte {a : Nat} (h : tableRead tr a 32 = tableRead tr' a 32) (b : Nat) (hb : b < 32) : tr[a + b]? = tr'[a + b]? := by
    simpa [tableRead_getElem?, hb] using congrArg (·[b]?) h
  apply List.ext_getElem?
  intro i
  have hb : i % 32 < 32 := Nat.mod_lt _ (by decide)
  rcases Nat.lt_or_ge i 10880 with hi | hi
  · have hpos : rcAddr (i / 160) (i / 32 % 5) + i % 32 = i := by rw [rcAddr]; omega
    simpa only [hpos] using byte (hrc ⟨i / 160, by omega⟩ ⟨i / 32 % 5, by omega⟩) _ hb
  rcases Nat.lt_or_ge i tableBytes with hi' | hi'
  · rw [tableBytes] at hi'
    have hpos : mdsAddr ((i - 10880) / 160) (i / 32 % 5) + i % 32 = i := by rw [mdsAddr]; omega
    simpa only [hpos] using byte (hmds ⟨(i - 10880) / 160, by omega⟩ ⟨i / 32 % 5, by omega⟩) _ hb
  · rw [List.getElem?_eq_none (hlen ▸ hi'), List.getElem?_eq_none (hlen' ▸ hi')]

/-- The image of a pair of tables, element by element. -/
theorem eq_tableImage_iff {tr : List Byte} (hlen : tr.length = tableBytes) (rc : RoundTable) (mds : MdsTable) :
    tr = tableImage rc mds ↔ (∀ (r : Fin 68) (k : Fin 5), tableRead tr (rcAddr r k) 32 = enc32 rc[r][k]) ∧
      ∀ k j : Fin 5, tableRead tr (mdsAddr k j) 32 = enc32 mds[k][j] := by
  constructor
  · rintro rfl
    exact ⟨tableImage_read_rc rc mds, tableImage_read_mds rc mds⟩
  · rintro ⟨hrc, hmds⟩
    refine tableRom_ext hlen (tableImage_length rc mds) (fun r k => ?_) (fun k j => ?_)
    · rw [hrc, tableImage_read_rc]
    · rw [hmds, tableImage_read_mds]

/-! ### Table initialisation -/

/-- The element at an address is the one encoded there. -/
theorem tableElem_eq_iff (c : Config) {tr : List Byte} {a v : Nat} (ha : a + 32 ≤ tr.length) (hv : v < c.p) :
    tableElem tr a = v ↔ tableRead tr a 32 = enc32 v := by
  have h := leNat_eq_and_lt_iff c (tableRead_length ha) v
  rw [and_iff_left hv, and_iff_left hv] at h
  rw [tableElem_eq_leNat ha, h, eq_comm]

theorem tableBelow_iff {n p : Nat} (t : Vector (Vector Nat 5) n) :
    tableBelow p t = true ↔ ∀ (r : Fin n) (k : Fin 5), t[r][k] < p := by
  simp [Vector.all_eq_true, Fin.forall_iff]

theorem tableNonzero_iff {n : Nat} (t : Vector (Vector Nat 5) n) :
    tableNonzero t = true ↔ ∀ (r : Fin n) (k : Fin 5), t[r][k] ≠ 0 := by
  simp [Vector.all_eq_true, Fin.forall_iff]

theorem ofFn_table_eq_iff {n : Nat} {f : Fin n → Fin 5 → Nat} {t : Vector (Vector Nat 5) n} :
    (Vector.ofFn fun r => Vector.ofFn (f r)) = t ↔ ∀ (r : Fin n) (k : Fin 5), f r k = t[r][k] := by
  simp [Vector.ext_iff, Fin.forall_iff]

theorem loadTables_eq_some {p : Nat} {tr : List Byte} {rc : RoundTable} {mds : MdsTable} :
    loadTables p tr = some (rc, mds) ↔ tr.length = tableBytes ∧ loadRc tr = rc ∧ loadMds tr = mds ∧
      (∀ (r : Fin 68) (k : Fin 5), rc[r][k] < p ∧ rc[r][k] ≠ 0) ∧ ∀ k j : Fin 5, mds[k][j] < p := by
  simp only [forall_and, ← tableBelow_iff, ← tableNonzero_iff, loadTables, Option.ite_none_right_eq_some,
    Option.some.injEq, Prod.mk.injEq]
  constructor
  · rintro ⟨⟨hlen, hrc, hne, hmds⟩, rfl, rfl⟩
    exact ⟨hlen, rfl, rfl, ⟨hrc, hne⟩, hmds⟩
  · rintro ⟨hlen, rfl, rfl, ⟨hrc, hne⟩, hmds⟩
    exact ⟨⟨hlen, hrc, hne, hmds⟩, rfl, rfl⟩

/-- Where all elements are canonical, a table ROM of the right length loads its own image, and nothing else. -/
theorem load_eq_iff_eq_tableImage (c : Config) {tr : List Byte} (hlen : tr.length = tableBytes) {rc : RoundTable}
    {mds : MdsTable} (hrc : ∀ (r : Fin 68) (k : Fin 5), rc[r][k] < c.p) (hmds : ∀ k j : Fin 5, mds[k][j] < c.p) :
    loadRc tr = rc ∧ loadMds tr = mds ↔ tr = tableImage rc mds := by
  rw [eq_tableImage_iff hlen, loadRc, loadMds, ofFn_table_eq_iff, ofFn_table_eq_iff]
  rw [tableBytes] at hlen
  refine and_congr (forall₂_congr fun r k => tableElem_eq_iff c ?_ (hrc r k))
    (forall₂_congr fun k j => tableElem_eq_iff c ?_ (hmds k j))
  · rw [rcAddr]; omega
  · rw [mdsAddr]; omega

/-- Settles O10: the image is read back element by element, and a ROM of its length is determined by its elements. -/
theorem tableRomDeserialisesToItself : Obligations.TableRomDeserialisesToItself := by
  refine ⟨fun c => ⟨tableImage_length c.rc c.mds, tableImage_read_rc c.rc c.mds, tableImage_read_mds c.rc c.mds⟩,
    fun c tr rc mds => loadTables_eq_some.trans ?_⟩
  constructor
  · rintro ⟨hlen, hrc, hmds, hrcOk, hmdsOk⟩
    exact ⟨(load_eq_iff_eq_tableImage c hlen (fun r k => (hrcOk r k).1) hmdsOk).mp ⟨hrc, hmds⟩, hrcOk, hmdsOk⟩
  · rintro ⟨rfl, hrcOk, hmdsOk⟩
    have hlen := tableImage_length rc mds
    obtain ⟨hrc, hmds⟩ := (load_eq_iff_eq_tableImage c hlen (fun r k => (hrcOk r k).1) hmdsOk).mpr rfl
    exact ⟨hlen, hrc, hmds, hrcOk, hmdsOk⟩

end Sys2Proof.Machine

/-! The memory family, part 3: a step runs the packet at `CP` and reads nothing else of the stream (R66, R71). -/

namespace Sys2Proof

/-! ### A packet is what it decodes to (R94, R98) -/

theorem encode_length {mcap : Nat} {i : Instr} (h : i.wellFormed mcap = true) : (encode i).length = i.packetLen mcap := by
  cases i with
  | lde vd payload =>
    have hl : payload.length = 32 := by simpa [Instr.wellFormed, payloadLenE] using h
    rw [encode, List.length_append, hl]; rfl
  | ldc vd payload =>
    have hl : payload.length = 32 * (mcap + 1) := by simpa [Instr.wellFormed, payloadLenV] using h
    rw [encode, List.length_append, hl]; rfl
  | _ => rfl

/-- The two immediate bytes of `LDI` put together again (R63). -/
theorem imm_bytes_append (imm : Half) : imm.extractLsb' 8 8 ++ imm.extractLsb' 0 8 = imm :=
  (BitVec.extractLsb'_append_extractLsb'_eq_extractLsb' (start₁ := 0) (len₁ := 8) rfl).trans
    BitVec.extractLsb'_eq_self

/-- A payload of the right length is the one that is read from the stream. -/
theorem withPayload_append {n : Nat} {payload : List Byte} (h : payload.length = n) (rest : List Byte)
    (mk : List Byte → Instr) : withPayload true n (payload ++ rest) mk = .ok (mk payload) := by
  subst h
  rw [withPayload_of_le (by simp), List.take_left]

theorem decode_encode_append {mcap : Nat} {i : Instr} (h : i.wellFormed mcap = true) (rest : List Byte) :
    decode mcap (encode i ++ rest) = .ok i := by
  cases i with
  | ldi vd imm => exact congrArg (fun w => Except.ok (Instr.ldi vd w)) (imm_bytes_append imm)
  | lde vd payload => exact withPayload_append (by simpa [Instr.wellFormed] using h) rest _
  | ldc vd payload => exact withPayload_append (by simpa [Instr.wellFormed] using h) rest _
  | _ => rfl

end Sys2Proof

namespace Sys2Proof.Machine

/-! ### A step runs the packet at `CP` (R94) -/

/-- The packet at `CP` is the command that is fetched, whatever follows it. -/
theorem fetch_of_packet {s : State} {i : Instr} (hi : i.wellFormed s.cfg.mcap = true)
    (hp : s.cs.window s.cp (i.packetLen s.cfg.mcap) = encode i) : fetch s = .ok i := by
  rw [fetch, fetchBytes_prefix (packetLen_le i s.cfg.mcap_bounds.2), hp]
  exact decode_encode_append hi _

theorem read_of_packet {s : State} {i : Instr}
    (hp : s.cs.window s.cp (i.packetLen s.cfg.mcap) = encode i) : s.cs.read s.cp = some i.opcode := by
  have h : (encode i)[0]? = some i.opcode := by rw [← List.head?_eq_getElem?, encode_head]
  rw [← hp, Memory.window_getElem?, if_pos (by have := packetLen_ge i s.cfg.mcap; omega)] at h
  exact h

theorem step_of_packet {s : State} {i : Instr} (hh : s.halt = false) (hi : i.wellFormed s.cfg.mcap = true)
    (hp : s.cs.window s.cp (i.packetLen s.cfg.mcap) = encode i) : step s = exec i s := by
  simp [step, hh, read_of_packet hp, fetch_of_packet hi hp]

/-- A packet that stands whole at `CP` lies within the stream. -/
theorem packet_le_size {s : State} {i : Instr} (hi : i.wellFormed s.cfg.mcap = true)
    (hp : s.cs.window s.cp (i.packetLen s.cfg.mcap) = encode i) : s.cp + i.packetLen s.cfg.mcap ≤ s.cs.size := by
  have h := congrArg List.length hp
  rw [Memory.window_length, encode_length hi] at h
  have hpos := packetLen_ge i s.cfg.mcap
  omega

/-! ### No command reads the stream (R60, R71) -/

/-- Another command stream under the same state. -/
def State.withCs (s : State) (m : Memory) : State := { s with cs := m }

/-- Two outcomes that both go on, to the same state but for the command stream, which is `m` in the second. -/
def NextUpToCs (m : Memory) (r r' : Result) : Prop := ∃ t, r = .next t ∧ r' = .next (t.withCs m)

section
variable {s : State} {m : Memory}

theorem NextUpToCs.of_eq {t t' : State} (h : t' = t.withCs m) : NextUpToCs m (.next t) (.next t') :=
  ⟨t, rfl, congrArg _ h⟩

@[simp] theorem withCs_cfg : (s.withCs m).cfg = s.cfg := rfl
@[simp] theorem withCs_spos : (s.withCs m).spos = s.spos := rfl
@[simp] theorem withCs_vrAt (k : Nat) : (s.withCs m).vrAt k = s.vrAt k := rfl
@[simp] theorem withCs_vrRange (b n : Nat) : (s.withCs m).vrRange b n = s.vrRange b n := rfl

theorem csrValue_withCs (n : Nat) : csrValue (s.withCs m) n = csrValue s n := rfl

theorem decryptCore_withCs (sx sy nc : Nat) (c : List Nat) :
    decryptCore sx sy nc c (s.withCs m) =
      ((decryptCore sx sy nc c s).1.withCs m, (decryptCore sx sy nc c s).2) := rfl

theorem ite_withCs {c : Prop} [Decidable c] {a b a' b' : State} (ha : a' = a.withCs m) (hb : b' = b.withCs m) :
    (if c then a' else b') = (if c then a else b).withCs m := by
  split
  · exact ha
  · exact hb

theorem absorbOne_withCs (e : Nat) : absorbOne (s.withCs m) e = (absorbOne s e).withCs m :=
  ite_withCs rfl rfl

theorem absorbCore_withCs (e : List Nat) : absorbCore e (s.withCs m) = (absorbCore e s).withCs m := by
  have h : e.foldl absorbOne (s.withCs m) = (e.foldl absorbOne s).withCs m :=
    List.foldl_hom (State.withCs · m) fun t x => absorbOne_withCs x
  rw [absorbCore, h]
  rfl

theorem squeezeOne_withCs : squeezeOne (s.withCs m) = (squeezeOne s).withCs m := by
  unfold squeezeOne
  rw [withCs_spos]
  split
  · rfl
  · rfl

theorem squeezeMany_withCs (n : Nat) : squeezeMany n (s.withCs m) = (squeezeMany n s).withCs m := by
  induction n generalizing s with
  | zero => rfl
  | succ n ih => rw [squeezeMany, squeezeOne_withCs, ih, squeezeMany]

theorem squeezeCore_withCs (n : Nat) : squeezeCore n (s.withCs m) = (squeezeCore n s).withCs m := by
  rw [squeezeCore, squeezeMany_withCs]
  rfl

theorem hashInto_withCs (i : Instr) (vd : Nat) (d : Domain) (n : Nat) (e : List Nat) :
    hashInto i vd (spongeHash d n e (s.withCs m)) = (hashInto i vd (spongeHash d n e s)).withCs m := by
  have h : squeezeCore 1 (absorbCore e (spongeInit [.absorb n, .squeeze 1] d (s.withCs m))) =
      (squeezeCore 1 (absorbCore e (spongeInit [.absorb n, .squeeze 1] d s))).withCs m := by
    rw [← squeezeCore_withCs, ← absorbCore_withCs]
    rfl
  rw [spongeHash, h]
  rfl

theorem merkleHash_withCs (i : Instr) (d : Domain) (k vs n vd : Nat) :
    merkleHash i d k vs n vd (s.withCs m) = (merkleHash i d k vs n vd s).withCs m :=
  ite_withCs rfl <| ite_withCs rfl <| ite_withCs rfl <| hashInto_withCs i vd d k _

/-- The stream is in no check and in no value of a command: with another one, the next state is the same but for it. -/
theorem exec_withCs (i : Instr) : NextUpToCs m (exec i s) (exec i (s.withCs m)) := by
  cases i with
  | nop | pclr | abort | clrerr => exact .of_eq rfl
  | ldi | ste | stc | trunc | perm | pabs | psqz => exact .of_eq (ite_withCs rfl rfl)
  | ldst | stst | enc => exact .of_eq (ite_withCs rfl (ite_withCs rfl rfl))
  | lde vd payload =>
    refine .of_eq (ite_withCs rfl ?_)
    rw [withCs_cfg]
    cases dec32 s.cfg.p payload with
    | none | some => rfl
  | ldc vd payload =>
    refine .of_eq (ite_withCs rfl ?_)
    rw [withCs_cfg]
    cases decodeAll s.cfg.p (chunks payload (s.cfg.mcap + 1)) with
    | none | some => rfl
  | start d =>
    refine .of_eq (ite_withCs rfl ?_)
    cases domainOf d.toNat with
    | none => rfl
    | some dom => exact ite_withCs rfl (ite_withCs rfl rfl)
  | absorb vs n k =>
    exact .of_eq <| ite_withCs rfl <| ite_withCs rfl <| ite_withCs rfl <| ite_withCs rfl <|
      congrArg (complete _) (absorbCore_withCs _)
  | squeeze n =>
    exact .of_eq <| ite_withCs rfl <| ite_withCs rfl <| congrArg (complete _) (squeezeCore_withCs _)
  | finish vd => exact .of_eq <| ite_withCs rfl <| ite_withCs rfl <| ite_withCs rfl <| ite_withCs rfl rfl
  | hash vs n vd => exact .of_eq <| ite_withCs rfl <| ite_withCs rfl <| hashInto_withCs _ _ _ _ _
  | mhash2 | mhash4 => exact .of_eq (merkleHash_withCs _ _ _ _ _ _)
  | dec vs vd =>
    refine .of_eq (ite_withCs rfl (ite_withCs rfl ?_))
    simp only [withCs_vrAt, withCs_vrRange, withCs_cfg, decryptCore_withCs]
    split
    · rfl
    · rfl
  | rdsr csr =>
    refine .of_eq ?_
    rw [csrValue_withCs]
    cases csrValue s csr.toNat with
    | none | some => rfl

end

/-- Settles O23: the packet still stands at `CP` after the supply, and the command that both steps run does not read the
stream. -/
theorem supplyCommutesWithStep : Obligations.SupplyCommutesWithStep := by
  intro s i bs hwf hh hi hp
  have hp' : (s.supply bs).cs.window s.cp (i.packetLen s.cfg.mcap) = encode i := by
    rw [supply_cs, Memory.window_append_old hwf bs (packet_le_size hi hp), hp]
  obtain ⟨t, ht, ht'⟩ := exec_withCs i (s := s) (m := s.cs.append bs)
  have hcs : t.cs = s.cs := (commandsKeepParameters i s t ht).cs
  refine ⟨t, (step_of_packet hh hi hp).trans ht, (step_of_packet (s := s.supply bs) hh hi hp').trans ?_⟩
  rwa [State.supply, State.supply, hcs]

end Sys2Proof.Machine

/-! The encoding family (spec/30_encoding.md): packets and commands (R90 to R95, R98), one step of the sequencer (R94) and
the response stream (R96, R97). -/

namespace Sys2Proof

/-! ### The opcodes (R98) -/

/-- The opcode column of R98. -/
def opcodeColumn : List Nat :=
  [0x00, 0x01, 0x02, 0x03, 0x04, 0x05, 0x06, 0x07, 0x08, 0x10, 0x20, 0x21, 0x22, 0x23, 0x24, 0x25,
    0x26, 0x27, 0x28, 0x29, 0x2A, 0x30, 0x31, 0x40, 0x41]

/-- One term for each row of R98, its operands zero; payloads play no part in the opcode and are left empty. -/
def oneOfEach : List Instr :=
  [.nop, .ldi 0 0, .lde 0 [], .ste 0, .ldc 0 [], .stc 0, .ldst 0, .stst 0, .trunc 0 0, .perm, .pclr, .pabs 0, .psqz 0,
    .start 0, .absorb 0 0 0, .squeeze 0, .finish 0, .abort, .hash 0 0 0, .mhash2 0 0 0, .mhash4 0 0 0, .enc 0 0 0,
    .dec 0 0, .rdsr 0, .clrerr]

theorem oneOfEach_opcodes : oneOfEach.map (·.opcode.toNat) = opcodeColumn := rfl

theorem opcode_assigned (i : Instr) : i.opcode.toNat ∈ opcodeColumn := by
  cases i <;> simp [opcodeColumn, Instr.opcode]

theorem exists_opcode_iff {op : Byte} : (∃ i : Instr, i.opcode = op) ↔ op.toNat ∈ opcodeColumn := by
  constructor
  · rintro ⟨i, rfl⟩
    exact opcode_assigned i
  · intro h
    rw [← oneOfEach_opcodes] at h
    obtain ⟨i, -, hi⟩ := List.mem_map.mp h
    exact ⟨i, BitVec.eq_of_toNat_eq hi⟩

theorem onlyIf_ne_unassigned (u : Bool) (i : Instr) : onlyIf u i ≠ .error .unassignedOpcode := by
  cases u <;> simp [onlyIf]

theorem withPayload_ne_unassigned (u : Bool) (n : Nat) (rest : List Byte) (mk : List Byte → Instr) :
    withPayload u n rest mk ≠ .error .unassignedOpcode := by
  unfold withPayload
  split
  · split <;> simp
  · simp

/-- A word with the opcode of some command is not rejected for its opcode, whatever its fields are. -/
theorem decodeFields_opcode_ne_unassigned (mcap : Nat) (i : Instr) (a b c : Byte) (rest : List Byte) :
    decodeFields mcap i.opcode a b c rest ≠ .error .unassignedOpcode := by
  cases i with
  | lde | ldc => exact withPayload_ne_unassigned _ _ _ _
  | ldi | absorb | hash | mhash2 | mhash4 | enc => exact nofun
  | _ => exact onlyIf_ne_unassigned _ _

theorem decodeFields_unassigned_iff {mcap : Nat} {op a b c : Byte} {rest : List Byte} :
    decodeFields mcap op a b c rest = .error .unassignedOpcode ↔ op.toNat ∉ opcodeColumn := by
  constructor
  · intro h hop
    obtain ⟨i, rfl⟩ := exists_opcode_iff.mpr hop
    exact decodeFields_opcode_ne_unassigned mcap i a b c rest h
  · intro h
    unfold decodeFields
    split
    case h_26 => rfl
    all_goals exact absurd (by decide) h

/-- Settles O4: a word is unassigned exactly when its opcode is that of no command. -/
theorem assignedOpcodes : Obligations.AssignedOpcodes :=
  fun _ _ _ _ _ _ => ⟨decodeFields_unassigned_iff, exists_opcode_iff⟩

/-! ### Decoding and encoding (R91, R94, R98) -/

/-- Settles O2: the decoder reads each field back, and the payload is as long as R90 says. -/
theorem decodeOfEncode : Obligations.DecodeOfEncode :=
  fun _ _ rest _ hi => ⟨decode_encode_append hi rest, encode_length hi⟩

/-- The bytes `B` and `C` of `LDI` are the two bytes of the immediate that they make (R63). -/
theorem encode_ldi_append (vd b c : Byte) : encode (.ldi vd (c ++ b)) = [0x01, vd, b, c] := by
  have hlo : (c ++ b : Half).extractLsb' 0 8 = b := by
    rw [BitVec.extractLsb'_append_eq_of_add_le (by decide), BitVec.extractLsb'_eq_self]
  have hhi : (c ++ b : Half).extractLsb' 8 8 = c := by
    rw [BitVec.extractLsb'_append_eq_of_le (by decide), BitVec.extractLsb'_eq_self]
  rw [encode, hlo, hhi]

/-- A command word that decodes is the packet's own word, and the payload is the head of what follows. -/
theorem encode_prefix_of_decodeFields {mcap : Nat} (hm : mcap ≤ 4) {op a b c : Byte} {rest : List Byte} {i : Instr}
    (h : decodeFields mcap op a b c rest = .ok i) :
    i.wellFormed mcap = true ∧ encode i <+: op :: a :: b :: c :: rest := by
  -- The arms of R98 in order: two commands have a payload, six use all three fields, no opcode is the last; the others
  -- have fields that must be zero.
  unfold decodeFields at h
  split at h
  case h_26 => cases h
  case h_2 =>
    obtain rfl := Except.ok.inj h
    exact ⟨rfl, rest, by rw [encode_ldi_append]; rfl⟩
  case h_15 | h_19 | h_20 | h_21 | h_22 =>
    obtain rfl := Except.ok.inj h
    exact ⟨rfl, rest, rfl⟩
  case h_3 | h_5 =>
    obtain ⟨hu, hn, rfl⟩ := withPayload_ok (by grind [payloadLenE, payloadLenV]) h
    simp only [Bool.and_eq_true, beq_iff_eq] at hu
    simp [hu, encode, Instr.wellFormed, hn, List.take_prefix]
  all_goals
    obtain ⟨hu, rfl⟩ := onlyIf_ok h
    simp only [Bool.and_eq_true, beq_iff_eq] at hu
    simp [hu, encode, Instr.wellFormed]

/-- Settles O3: the word is four bytes and its fields, which `encode_prefix_of_decodeFields` puts together again. -/
theorem decodeAcceptsOnlyPackets : Obligations.DecodeAcceptsOnlyPackets := by
  intro mcap bytes i hm h
  obtain ⟨op, a, b, c, rest, rfl, hd⟩ := decode_ok h
  obtain ⟨hwf, rest', hrest⟩ := encode_prefix_of_decodeFields hm hd
  exact ⟨hwf, rest', hrest.symm⟩

/-- Settles O1, by running the decoder on the twelve words. -/
theorem specPacketsDecode : Obligations.SpecPacketsDecode := by
  unfold Obligations.SpecPacketsDecode
  decide

end Sys2Proof

namespace Sys2Proof.Machine

/-! ### One step (R94) -/

/-- Settles O11: the packet at `CP` is what is fetched. -/
theorem stepRunsDecodedCommand : Obligations.StepRunsDecodedCommand :=
  fun _ _ hh hi hp => step_of_packet hh hi hp

theorem step_halted {s : State} (h : s.halt = true) : step s = .fault .halted := by
  simp [step, h]

theorem step_streamEnd {s : State} (hh : s.halt = false) (h : s.cs.size ≤ s.cp) : step s = .fault .streamEnd := by
  have hr : s.cs.read s.cp = none := if_neg (Nat.not_lt.mpr h)
  simp [step, hh, hr]

/-- Settles O13: `step` looks at `HALT` first, then for a byte at `CP`. -/
theorem noStepWhenHaltedOrAtEnd : Obligations.NoStepWhenHaltedOrAtEnd :=
  ⟨fun _ h => step_halted h, fun _ hh h => step_streamEnd hh h.ge⟩

theorem halt_of_step_next {s t : State} (h : step s = .next t) : s.halt = false := by
  by_contra hh
  rw [step_halted (by simpa using hh)] at h
  cases h

/-! ### The response stream (R96, R97) -/

/-- `IllegalCommand` is the decoder's code; no command ends with it (R251). -/
theorem illegalCommand_notMem_codesOf (i : Instr) : ResultCode.illegalCommand ∉ codesOf i := by
  cases i <;> simp [codesOf]

/-- Settles O14: the epilogue of `exec_form`, with a code below 8. -/
theorem oneResponsePerCommand : Obligations.OneResponsePerCommand := by
  intro i s
  obtain ⟨t, c, cnt, payload, u, hexec, hform⟩ := exec_form i s
  obtain ⟨rfl, hbody, hcode, herror, -, -⟩ := hform
  have hc : c ≠ .illegalCommand := fun h => illegalCommand_notMem_codesOf i (h ▸ hcode)
  refine ⟨_, responsePacket c i.opcode cnt payload, hexec, ?_, rfl, rfl, ?_, ?_, fun h => ?_⟩
  · rw [epilogue_rsp, hbody.rsp]
  · rw [epilogue_cp, if_neg hc, hbody.cp]
  · rw [epilogue_halt, codeNum_eq_illegal hc, hbody.halt, Bool.or_false]
  · exact herror (by rintro rfl; exact h rfl)

/-- A payload of whole words, short enough for its word count to fit the header byte (R96). -/
theorem responsePacket_payload_length (c : ResultCode) (echo cnt : Byte) {payload : List Byte}
    (hmod : payload.length % 4 = 0) (hle : payload.length ≤ 160) :
    (responsePacket c echo cnt payload).payload.length = 4 * (responsePacket c echo cnt payload).plw.toNat := by
  simp only [responsePacket, BitVec.toNat_ofNat]
  omega

theorem codeByte_le (c : ResultCode) : (codeByte c).toNat ≤ 8 := by cases c <;> decide

/-- The epilogue keeps the form of the response stream, over a body `u` that left `RSP` and `HALT` of the running `s`. -/
theorem ResponsesOk.epilogue {s u : State} (h : ResponsesOk s) (hh : s.halt = false) (hrsp : u.rsp = s.rsp)
    (huh : u.halt = s.halt) (c : ResultCode) (echo cnt : Byte) (len : Nat) {payload : List Byte}
    (hmod : payload.length % 4 = 0) (hle : payload.length ≤ 160) : ResponsesOk (epilogue c echo len cnt payload u) where
  payload k hk := by
    rw [epilogue_rsp, hrsp, List.mem_append, List.mem_singleton] at hk
    rcases hk with hk | rfl
    · exact h.payload k hk
    · exact responsePacket_payload_length c echo cnt hmod hle
  codes k hk := by
    rw [epilogue_rsp, hrsp, List.mem_append, List.mem_singleton] at hk
    rcases hk with hk | rfl
    · exact h.codes k hk
    · exact codeByte_le c
  lastcode := by simp [responsePacket]
  halted ht := by
    obtain rfl : c = .illegalCommand := by simpa [huh, hh] using ht
    exact ⟨rfl, by simp [stickyAfter_getLsbD, codeNum]⟩

/-- Settles O20: a step is `IllegalCommand` or a command, and each adds one packet by its epilogue. -/
theorem stepKeepsResponses : Obligations.StepKeepsResponses := by
  intro s t hs h
  have hh := halt_of_step_next h
  rcases step_cases h with ⟨op, -, rfl⟩ | ⟨i, -, hi⟩
  · exact hs.epilogue hh rfl rfl .illegalCommand op 0 0 rfl (Nat.zero_le 160)
  · obtain ⟨t', c, cnt, payload, u, hexec, hform⟩ := exec_form i s
    obtain rfl : t' = t := Host.Outcome.next.inj (hexec.symm.trans hi)
    rw [hform.result]
    exact hs.epilogue hh hform.body.rsp hform.body.halt c _ cnt _ hform.payload_mod hform.payload_le

end Sys2Proof.Machine

/-! The permutation family (spec/40_permutation.md): the field operations (R120), the S-box (R122), the layers and the
two kinds of round (R123, R124), the schedule of the 68 rounds (R125, R126), and the command `PERM` (R128). -/

namespace Sys2Proof.Machine

/-! ### The field operations (R120) -/

/-- The difference of canonical elements, its borrow written out. -/
theorem fsub_eq_ite {p a b : Nat} (ha : a < p) (hb : b < p) :
    fsub p a b = if b ≤ a then a - b else a + p - b := by
  unfold fsub
  split
  · rw [Int.emod_eq_of_lt (by omega) (by omega)]; omega
  · rw [← Int.add_emod_right, Int.emod_eq_of_lt (by omega) (by omega)]; omega

theorem fmul_one {p a : Nat} (ha : a < p) : fmul p a 1 = a := by
  rw [fmul, Nat.mul_one, Nat.mod_eq_of_lt ha]

theorem one_fmul {p a : Nat} (ha : a < p) : fmul p 1 a = a := by
  rw [fmul, Nat.one_mul, Nat.mod_eq_of_lt ha]

/-- `P - 1` is `-1`, whose square is 1. -/
theorem fsq_pred {p : Nat} (hp : 2 < p) : fsq p (p - 1) = 1 := by
  obtain ⟨q, rfl⟩ := Nat.exists_eq_add_of_lt hp
  have hsq : (2 + q + 1 - 1) * (2 + q + 1 - 1) = 1 + (2 + q + 1) * (q + 1) := by
    rw [Nat.add_sub_cancel]; ring
  rw [fsq, fmul, hsq, Nat.add_mul_mod_self_left, Nat.mod_eq_of_lt (by omega)]

/-- Settles O5: the values by definition and `fsub_eq_ite`, the closure by the laws of R120, the corner cases one by
one. -/
theorem fieldArithmetic : Obligations.FieldArithmetic := by
  intro c a b ha hb
  have hp : 2 < c.p := c.p_bounds.1
  have hadd_zero : fadd c.p a 0 = a := Nat.mod_eq_of_lt ha
  have hadd_one : fadd c.p (c.p - 1) 1 = 0 := by rw [fadd, Nat.sub_add_cancel (by omega), Nat.mod_self]
  have hsub_one : fsub c.p 0 1 = c.p - 1 := by rw [fsub_eq_ite (by omega) (by omega)]; simp
  have hsub_self : fsub c.p a a = 0 := by rw [fsub_eq_ite ha ha]; simp
  exact ⟨rfl, fsub_eq_ite ha hb, fsub_cast c a b, rfl, rfl, decide_eq_true_iff, fadd_lt c a b, fsub_lt c a b,
    fmul_lt c a b, hadd_zero, hadd_one, hsub_one, hsub_self, Nat.zero_mod c.p, fmul_one ha, fsq_pred hp⟩

/-! ### The S-box (R122) -/

theorem sbox_eq_fmul (p x : Nat) : sbox p x = fmul p (fsq p (fsq p x)) x := rfl

theorem fsq_one {p : Nat} (hp : 2 < p) : fsq p 1 = 1 := fmul_one (by omega)

/-- An element whose square is 1 is its own fifth power. -/
theorem sbox_eq_self_of_fsq_eq_one {p x : Nat} (hp : 2 < p) (hx : x < p) (hsq : fsq p x = 1) : sbox p x = x := by
  rw [sbox_eq_fmul, hsq, fsq_one hp, one_fmul hx]

/-- Settles O6: 1 and `P - 1` have the square 1, and the other values are fifth powers. -/
theorem sboxIsFifthPower : Obligations.SboxIsFifthPower := by
  intro c x
  have hp : 2 < c.p := c.p_bounds.1
  refine ⟨sbox_eq_fmul c.p x, sbox_eq_pow c.p x, Nat.zero_mod c.p, ?_, ?_, sbox_eq_pow c.p 2⟩
  · exact sbox_eq_self_of_fsq_eq_one hp (by omega) (fsq_one hp)
  · exact sbox_eq_self_of_fsq_eq_one hp (by omega) (fsq_pred hp)

/-! ### The layers (R123, R124) -/

/-- The sum that `MIX` reduces after every product and addition, reduced once. -/
theorem mixAt_eq_sum (c : Config) (s : PermState) (k : Fin 5) :
    mixAt c s k = (∑ j : Fin 5, c.mds[k][j] * s[j]) % c.p := by
  simp only [mixAt, fadd, fmul, Nat.mod_add_mod, Nat.add_mod_mod, Fin.sum_univ_five]
  rfl

/-- Settles O7: the layers position by position, and the rounds by definition. -/
theorem roundLayers : Obligations.RoundLayers := by
  intro c s r
  refine ⟨arc_getElem c s r, sboxFull_getElem c s, fun k => ?_, fun k => ?_, rfl, rfl⟩
  · rw [sboxPartial_getElem]
    exact if_congr Fin.ext_iff rfl rfl
  · rw [mix_getElem, mixAt_eq_sum]

/-! ### The schedule (R125, R126) -/

theorem mem_rows {lo hi : Nat} {r : Fin 68} : r ∈ rows lo hi ↔ lo ≤ r.val ∧ r.val < hi := by simp [rows]

/-- The rows from `lo` to below `hi` are these numbers, in order. -/
theorem rows_map_val {lo hi : Nat} (h : hi ≤ 68) : (rows lo hi).map Fin.val = List.range' lo (hi - lo) := by
  calc (rows lo hi).map Fin.val
      = (List.range 68).filter fun r => decide (lo ≤ r) && decide (r < hi) := by
        rw [← List.map_coe_finRange_eq_range, List.filter_map]; rfl
    _ = ((List.Ico 0 68).filter fun r => decide (r < hi)).filter fun r => decide (lo ≤ r) := by
        rw [List.filter_filter, List.Ico.zero_bot]
    _ = List.Ico lo hi := by
        rw [List.Ico.filter_lt_of_ge h, List.Ico.filter_le_of_le (Nat.zero_le lo)]

/-- The table row by row is its rows before, within and after the partial rounds. -/
theorem finRange_eq_rows : List.finRange 68 = rows 0 4 ++ rows 4 64 ++ rows 64 68 := by
  apply Fin.val_injective.list_map
  simp only [List.map_append, rows_map_val, List.map_coe_finRange_eq_range, Nat.reduceLeDiff]
  rfl

theorem foldl_roundAt_of_full (c : Config) (s : PermState) {l : List (Fin 68)}
    (h : ∀ r ∈ l, ¬ (4 ≤ r.val ∧ r.val < 64)) : l.foldl (roundAt c) s = l.foldl (fullRound c) s :=
  List.foldl_ext _ _ s fun _ r hr => if_neg (h r hr)

theorem foldl_roundAt_of_partial (c : Config) (s : PermState) {l : List (Fin 68)}
    (h : ∀ r ∈ l, 4 ≤ r.val ∧ r.val < 64) : l.foldl (roundAt c) s = l.foldl (partialRound c) s :=
  List.foldl_ext _ _ s fun _ r hr => if_pos (h r hr)

theorem permutation_eq_foldl_rows (c : Config) (s : PermState) : permutation c s =
    (rows 64 68).foldl (fullRound c) ((rows 4 64).foldl (partialRound c) ((rows 0 4).foldl (fullRound c) s)) := by
  have hfirst : ∀ r ∈ rows 0 4, ¬ (4 ≤ r.val ∧ r.val < 64) := fun r hr => by have := mem_rows.mp hr; omega
  have hlast : ∀ r ∈ rows 64 68, ¬ (4 ≤ r.val ∧ r.val < 64) := fun r hr => by have := mem_rows.mp hr; omega
  rw [permutation, finRange_eq_rows, List.foldl_append, List.foldl_append, foldl_roundAt_of_full c s hfirst,
    foldl_roundAt_of_partial c _ fun r => mem_rows.mp, foldl_roundAt_of_full c _ hlast]

/-- Settles O8: the rows in three groups, and `Permute` by definition. -/
theorem permutationSchedule : Obligations.PermutationSchedule :=
  ⟨permutation_eq_foldl_rows, rows_map_val (by decide), rows_map_val (by decide), rows_map_val (by decide),
    fun _ => rfl⟩

/-! ### `PERM` (R128) -/

theorem exec_perm_of_active {s : State} (h : s.mode = .active) : exec .perm s = .next (raise .perm .badState s) := by
  simp [exec, execPerm, h]

theorem exec_perm_of_idle {s : State} (h : s.mode = .idle) : exec .perm s = .next (complete .perm (permute s)) := by
  simp [exec, execPerm, h]

/-- `Permute` leaves the sponge context but for `ST` as it was. -/
theorem permute_spongeKept (s : State) : SpongeKept s { permute s with st := s.st } :=
  ⟨rfl, rfl, rfl, rfl, rfl, rfl, rfl, rfl⟩

/-- Settles O32: the two ends of `PERM`, each with its epilogue. -/
theorem permPermutesState : Obligations.PermPermutesState := by
  refine fun s => ⟨rfl, fun h => ?_, fun h => ?_⟩
  · exact ⟨_, exec_perm_of_active h, raise_onlyEnded .perm (by decide) s⟩
  · have hended : Ended .ok .perm 0 [] s (complete .perm (permute s)) := complete_ended .perm rfl rfl rfl rfl rfl
    exact ⟨_, exec_perm_of_idle h, hended, rfl, rfl, epilogue_spongeKept .ok _ _ _ _ (permute_spongeKept s),
      paramsKept_of rfl rfl, rfl, rfl⟩

end Sys2Proof.Machine

/-! The sponge family (spec/41_sponge.md): pattern staging (R159 to R161), pattern validity (R153), the core procedures
chunk by chunk (R156, R157), and the protocol commands with their checks in order (R162 to R166). -/

namespace Sys2Proof.Machine

/-! ### The ends of a command -/

theorem CoreFrame.complete_paramsKept {s u : State} (h : CoreFrame s u) (i : Instr) : ParamsKept s (complete i u) :=
  paramsKept_of h.cfg h.cs

theorem CoreFrame.complete_ended {s u : State} (h : CoreFrame s u) (i : Instr) : Ended .ok i 0 [] s (complete i u) :=
  Machine.complete_ended i h.cfg h.rsp h.cp h.halt h.esticky

/-- R158: the context is zeroised also when the command that zeroises it ends well. -/
theorem completeWith_spongeKill_cleared (i : Instr) (cnt : Byte) (payload : List Byte) (s : State) :
    SpongeCleared (completeWith i cnt payload (spongeKill s)) :=
  epilogue_cleared _ _ _ _ _ (spongeKill_cleared s)

section
variable (i : Instr) (cnt : Byte) (payload : List Byte) (u : State)

@[simp] theorem completeWith_cfg : (completeWith i cnt payload u).cfg = u.cfg := rfl
@[simp] theorem completeWith_cs : (completeWith i cnt payload u).cs = u.cs := rfl
@[simp] theorem completeWith_vr : (completeWith i cnt payload u).vr = u.vr := rfl
@[simp] theorem completeWith_pat : (completeWith i cnt payload u).pat = u.pat := rfl
@[simp] theorem completeWith_pcnt : (completeWith i cnt payload u).pcnt = u.pcnt := rfl

end

/-! ### Staging (R159 to R161) -/

/-- A command that only edits the staged pattern, and its epilogue. -/
theorem complete_setPat (i : Instr) (s : State) (pat : List PatStep) :
    Ended .ok i 0 [] s (complete i { s with pat := pat }) ∧ (complete i { s with pat := pat }).pat = pat ∧
      SpongeKept s (complete i { s with pat := pat }) ∧ ParamsKept s (complete i { s with pat := pat }) ∧
      (complete i { s with pat := pat }).vr = s.vr ∧ (complete i { s with pat := pat }).pcnt = s.pcnt :=
  ⟨complete_ended i rfl rfl rfl rfl rfl, rfl, ⟨rfl, rfl, rfl, rfl, rfl, rfl, rfl, rfl⟩, paramsKept_of rfl rfl, rfl, rfl⟩

theorem stageStep_of_room {s : State} (h : s.pat.length ≠ 16) (i : Instr) (t : PatStep) :
    stageStep i t s = complete i { s with pat := s.pat ++ [t] } := if_neg h

theorem stageStep_of_full {s : State} (h : s.pat.length = 16) (i : Instr) (t : PatStep) :
    stageStep i t s = raise i .badState s := if_pos h

/-- Settles O33: `PABS` and `PSQZ` are `stageStep`, with room for one more step or without. -/
theorem stagingEditsPattern : Obligations.StagingEditsPattern := by
  refine ⟨rfl, fun n => ⟨rfl, rfl⟩, fun s => ⟨_, rfl, complete_setPat .pclr s []⟩, fun n s h => ⟨?_, ?_⟩,
    fun n s h => ⟨?_, ?_⟩⟩
  · exact ⟨_, congrArg Host.Outcome.next (stageStep_of_room h _ _), complete_setPat _ s _⟩
  · exact ⟨_, congrArg Host.Outcome.next (stageStep_of_room h _ _), complete_setPat _ s _⟩
  · exact ⟨_, congrArg Host.Outcome.next (stageStep_of_full h _ _), raise_onlyEnded _ (by decide) s⟩
  · exact ⟨_, congrArg Host.Outcome.next (stageStep_of_full h _ _), raise_onlyEnded _ (by decide) s⟩

/-! ### Pattern validity (R153) -/

theorem any_isAbsorb_iff {o : Option PatStep} : o.any isAbsorb = true ↔ ∃ n, o = some (.absorb n) :=
  ⟨exists_absorb_of_any, fun ⟨_, h⟩ => h ▸ rfl⟩

theorem any_isSqueeze_iff {o : Option PatStep} : o.any isSqueeze = true ↔ ∃ n, o = some (.squeeze n) :=
  ⟨exists_squeeze_of_any, fun ⟨_, h⟩ => h ▸ rfl⟩

theorem absorbTotal_eq_sum (pat : List PatStep) :
    absorbTotal pat = (pat.map fun t => if isAbsorb t then stepLen t else 0).sum := by
  induction pat with
  | nil => rfl
  | cons t pat ih => cases t <;> simp [absorbTotal, isAbsorb, stepLen, ih]

theorem squeezeTotal_eq_sum (pat : List PatStep) :
    squeezeTotal pat = (pat.map fun t => if isAbsorb t then 0 else stepLen t).sum := by
  induction pat with
  | nil => rfl
  | cons t pat ih => cases t <;> simp [squeezeTotal, isAbsorb, stepLen, ih]

/-- Condition (d), for the two domains that have an arity. -/
theorem merkleShape_iff (pat : List PatStep) (d : Domain) : merkleShape pat d = true ↔
    (d = .merkle2 → absorbTotal pat = 2 ∧ squeezeTotal pat = 1) ∧
      (d = .merkle4 → absorbTotal pat = 4 ∧ squeezeTotal pat = 1) := by
  cases d <;> simp [merkleShape, arity]

/-- Settles O34: the conditions (a) to (d) one by one. -/
theorem patternValidity : Obligations.PatternValidity := by
  intro pat d
  rw [patternValid, Bool.and_eq_true, Bool.and_eq_true, Bool.and_eq_true, Bool.and_eq_true, any_isAbsorb_iff,
    any_isSqueeze_iff, merkleShape_iff, absorbTotal_eq_sum, squeezeTotal_eq_sum]
  simp [and_assoc]

/-! ### `START` (R162) -/

@[simp] theorem domainOf_domainIndex (d : Domain) : domainOf (domainIndex d) = some d := by cases d <;> rfl

theorem domainOf_eq_none {n : Nat} (h : 3 < n) : domainOf n = none := by
  match n, h with
  | n + 4, _ => rfl

theorem exec_start_of_active {s : State} (hm : s.mode = .active) (d : Byte) :
    exec (.start d) s = .next (raise (.start d) .badState s) := by
  simp [exec, execStart, hm]

theorem exec_start_of_noDomain {s : State} {d : Byte} (hm : s.mode = .idle) (hd : 3 < d.toNat) :
    exec (.start d) s = .next (raise (.start d) .badOperand s) := by
  simp [exec, execStart, hm, domainOf_eq_none hd]

section
variable {s : State} {d : Byte} {dom : Domain} (hm : s.mode = .idle) (hd : domainIndex dom = d.toNat)
include hm hd

theorem exec_start_of_invalid (hv : patternValid s.pat dom = false) :
    exec (.start d) s = .next (raise (.start d) .invalidIOPattern s) := by
  simp [exec, execStart, hm, ← hd, hv]

theorem exec_start_of_long (hv : patternValid s.pat dom = true) (ht : 32 < squeezeTotal s.pat) :
    exec (.start d) s = .next (raise (.start d) .badOperand s) := by
  simp [exec, execStart, hm, ← hd, hv, ht]

theorem exec_start_of_valid (hv : patternValid s.pat dom = true) (ht : squeezeTotal s.pat ≤ 32) :
    exec (.start d) s = .next (complete (.start d) (spongeInit s.pat dom s)) := by
  simp [exec, execStart, hm, ← hd, hv, ht]

end

/-- Settles O35: the state is that of `SpongeInit`, field by field. -/
theorem startCreatesSponge : Obligations.StartCreatesSponge := fun d _ _ hm hd hv ht =>
  ⟨_, exec_start_of_valid hm hd hv ht, complete_ended (.start d) rfl rfl rfl rfl rfl, rfl, rfl, rfl, rfl, rfl, rfl, rfl,
    rfl, rfl, rfl, rfl, paramsKept_of rfl rfl⟩

/-- Settles O36: one equation for each check, each error an epilogue over an unchanged state. -/
theorem startChecksInOrder : Obligations.StartChecksInOrder := by
  refine fun d s => ⟨fun hm => ?_, fun hm hd => ?_, fun dom hm hd hv => ?_, fun dom hm hd hv ht => ?_⟩
  · exact ⟨_, exec_start_of_active hm d, raise_onlyEnded _ (by decide) s⟩
  · exact ⟨_, exec_start_of_noDomain hm hd, raise_onlyEnded _ (by decide) s⟩
  · exact ⟨_, exec_start_of_invalid hm hd hv, raise_onlyEnded _ (by decide) s⟩
  · exact ⟨_, exec_start_of_long hm hd hv ht, raise_onlyEnded _ (by decide) s⟩

/-! ### `ABSORB` (R163) -/

theorem vrRange_eq_map_range (s : State) (b n : Nat) :
    s.vrRange b n = (List.range n).map fun k => s.vr[b + k]?.getD 0 := by
  rw [State.vrRange, List.range'_eq_map_range, List.map_map]
  rfl

theorem exec_absorb_of_idle {s : State} (hm : s.mode = .idle) (vs n m : Byte) :
    exec (.absorb vs n m) s = .next (raise (.absorb vs n m) .badState s) := by
  simp [exec, execAbsorb, hm]

theorem exec_absorb_of_badRange {s : State} {vs m : Byte} (hm : s.mode = .active)
    (hr : rangeOk vs.toNat m.toNat = false) (n : Byte) :
    exec (.absorb vs n m) s = .next (raise (.absorb vs n m) .badOperand s) := by
  simp [exec, execAbsorb, hm, hr]

section
variable {s : State} {vs n m : Byte} (hm : s.mode = .active) (hr : rangeOk vs.toNat m.toNat = true)
include hm hr

theorem exec_absorb_of_few (hn : m.toNat < n.toNat) :
    exec (.absorb vs n m) s = .next (raise (.absorb vs n m) .tooFewInputElements (spongeKill s)) := by
  simp [exec, execAbsorb, hm, hr, hn]

theorem exec_absorb_of_mismatch (hn : n.toNat ≤ m.toNat) (ht : s.apat[s.ioc]? ≠ some (.absorb n.toNat)) :
    exec (.absorb vs n m) s = .next (raise (.absorb vs n m) .ioPatternViolation (spongeKill s)) := by
  simp [exec, execAbsorb, hm, hr, Nat.not_lt.mpr hn, ht]

theorem exec_absorb_of_match (hn : n.toNat ≤ m.toNat) (ht : s.apat[s.ioc]? = some (.absorb n.toNat)) :
    exec (.absorb vs n m) s =
      .next (complete (.absorb vs n m) (absorbCore (s.vrRange vs.toNat n.toNat) s)) := by
  simp [exec, execAbsorb, hm, hr, Nat.not_lt.mpr hn, ht]

end

/-- Settles O37: the positions and the count of `AbsorbCore` on a sequence of length `n`, and its frame. -/
theorem absorbConsumesStep : Obligations.AbsorbConsumesStep := by
  intro vs n m s hm hvs hrange hn ht
  have hr : rangeOk vs.toNat m.toNat = true := (rangeOk_iff _ _).mpr ⟨hvs, hrange⟩
  have hlen : (s.vrRange vs.toNat n.toNat).length = n.toNat := vrRange_length s _ _
  have hf : CoreFrame s (absorbCore (s.vrRange vs.toNat n.toNat) s) := absorbCore_frame _ s
  have hapos := absorbCore_apos (s.vrRange vs.toNat n.toNat) s
  have hspos := absorbCore_spos (s.vrRange vs.toNat n.toNat) s
  have hpcnt := absorbCore_pcnt (s.vrRange vs.toNat n.toNat) s
  rw [hlen] at hapos hspos hpcnt
  refine ⟨_, exec_absorb_of_match hm hr hn ht, hf.complete_ended _, ?_, hapos, hspos, absorbCore_ioc _ s, hpcnt,
    hf.apat, hf.mode.trans hm, hf.dom, absorbCore_out _ s, hf.vr, hf.pat, hf.complete_paramsKept _⟩
  rw [← vrRange_eq_map_range]
  rfl

/-- Settles O38: two errors over an unchanged state, two over the zeroised one. -/
theorem absorbChecksInOrder : Obligations.AbsorbChecksInOrder := by
  refine fun vs n m s => ⟨fun hm => ?_, fun hm hr => ?_, fun hm hvs hr hn => ?_, fun hm hvs hr hn ht => ?_⟩
  · exact ⟨_, exec_absorb_of_idle hm vs n m, raise_onlyEnded _ (by decide) s⟩
  · exact ⟨_, exec_absorb_of_badRange hm ((rangeOk_eq_false _ _).mpr hr) n, raise_onlyEnded _ (by decide) s⟩
  · exact ⟨_, exec_absorb_of_few hm ((rangeOk_iff _ _).mpr ⟨hvs, hr⟩) hn, raise_killedWith _ (by decide) s⟩
  · exact ⟨_, exec_absorb_of_mismatch hm ((rangeOk_iff _ _).mpr ⟨hvs, hr⟩) hn ht, raise_killedWith _ (by decide) s⟩

/-! ### `AbsorbCore` chunk by chunk (R156) -/

/-- The elements `e` added into `ST[1 + a ..]`, with no permutation; no other position changes. -/
def addFrom (p : Nat) (st : PermState) (a : Nat) (e : List Nat) : PermState :=
  Vector.ofFn fun k : Fin 5 =>
    if a < k.val ∧ k.val ≤ a + e.length then (st[k] + e.getD (k.val - 1 - a) 0) % p else st[k]

theorem addFrom_getElem (p : Nat) (st : PermState) (a : Nat) (e : List Nat) (k : Fin 5) :
    (addFrom p st a e)[k] =
      if a < k.val ∧ k.val ≤ a + e.length then (st[k] + e.getD (k.val - 1 - a) 0) % p else st[k] := by
  simp [addFrom]

theorem addFrom_nil (p : Nat) (st : PermState) (a : Nat) : addFrom p st a [] = st := by
  ext k hk
  have hout : ¬ (a < k ∧ k ≤ a + ([] : List Nat).length) := by simp
  exact (addFrom_getElem p st a [] ⟨k, hk⟩).trans (if_neg hout)

/-- Elements added in two parts, the second from where the first ends. -/
theorem addFrom_append (p : Nat) (st : PermState) (a : Nat) (e f : List Nat) :
    addFrom p (addFrom p st a e) (a + e.length) f = addFrom p st a (e ++ f) := by
  ext k hk
  have hl := addFrom_getElem p (addFrom p st a e) (a + e.length) f ⟨k, hk⟩
  have hi := addFrom_getElem p st a e ⟨k, hk⟩
  have hr := addFrom_getElem p st a (e ++ f) ⟨k, hk⟩
  rw [hi] at hl
  refine hl.trans (Eq.trans ?_ hr.symm)
  simp only [List.length_append]
  by_cases he : k ≤ a + e.length
  · by_cases ha : a < k
    · have hk' : k - 1 - a < e.length := by omega
      rw [if_neg (by omega), if_pos ⟨ha, he⟩, if_pos ⟨ha, by omega⟩, List.getD_append _ _ _ _ hk']
    · rw [if_neg (by omega), if_neg (by omega), if_neg (by omega)]
  · have hk' : e.length ≤ k - 1 - a := by omega
    have hsub : k - 1 - a - e.length = k - 1 - (a + e.length) := by omega
    rw [if_neg (c := a < k ∧ k ≤ a + e.length) (by omega), List.getD_append_right _ _ _ _ hk', hsub]
    exact if_congr (by omega) rfl rfl

/-- The addition of one turn of the loop, at `ST[1 + APOS]`. -/
theorem set_fadd_eq_addFrom (p : Nat) (st : PermState) (a : Fin 4) (x : Nat) :
    st.set (1 + a.val) (fadd p st[1 + a.val] x) = addFrom p st a.val [x] := by
  ext k hk
  refine Eq.trans ?_ (addFrom_getElem p st a.val [x] ⟨k, hk⟩).symm
  rw [Vector.getElem_set]
  by_cases h : 1 + a.val = k
  · subst h
    rw [if_pos rfl, if_pos (by simp only [List.length_singleton]; omega)]
    simp [fadd]
  · rw [if_neg h, if_neg (by simp only [List.length_singleton]; omega)]
    rfl

theorem absorbOne_st_of_room {s : State} (h : s.apos.val + 1 < 4) (x : Nat) :
    (absorbOne s x).st = addFrom s.cfg.p s.st s.apos.val [x] := by
  have hne : s.apos ≠ 3 := fun h3 => by simp [h3] at h
  rw [← set_fadd_eq_addFrom, absorbOne, if_neg hne]

theorem absorbOne_st_of_last {s : State} (h : s.apos.val + 1 = 4) (x : Nat) :
    (absorbOne s x).st = permutation s.cfg (addFrom s.cfg.p s.st s.apos.val [x]) := by
  have h3 : s.apos = 3 := Fin.ext (by simpa using h)
  rw [← set_fadd_eq_addFrom, absorbOne, if_pos h3]
  rfl

/-- Elements that do not fill the chunk are added, and no permutation runs. -/
theorem absorbMany_st_of_room (e : List Nat) {s : State} (h : s.apos.val + e.length < 4) :
    (e.foldl absorbOne s).st = addFrom s.cfg.p s.st s.apos.val e := by
  induction e generalizing s with
  | nil => exact (addFrom_nil _ _ _).symm
  | cons x e ih =>
    rw [List.length_cons] at h
    have hpos : (absorbOne s x).apos.val = s.apos.val + 1 := by rw [absorbOne_apos]; omega
    rw [List.foldl_cons, ih (by omega), hpos, absorbOne_st_of_room (by omega), (absorbOne_frame s x).cfg]
    exact addFrom_append _ _ _ [x] e

/-- Elements that fill the chunk are added, and then one permutation runs. -/
theorem absorbMany_st_of_full {e : List Nat} {s : State} (h : s.apos.val + e.length = 4) :
    (e.foldl absorbOne s).st = permutation s.cfg (addFrom s.cfg.p s.st s.apos.val e) := by
  obtain rfl | ⟨d, x, rfl⟩ := List.eq_nil_or_concat' e
  · have := s.apos.isLt
    rw [List.length_nil] at h
    omega
  · have hd : s.apos.val + d.length + 1 = 4 := by simpa [Nat.add_assoc] using h
    have hpos : (d.foldl absorbOne s).apos.val = s.apos.val + d.length := by rw [absorbMany_apos]; omega
    rw [List.foldl_append, List.foldl_cons, List.foldl_nil, absorbOne_st_of_last (by omega), hpos,
      absorbMany_st_of_room d (by omega), (absorbMany_frame d s).cfg, addFrom_append]

/-- The loop of `AbsorbCore` neither reads nor writes `SPOS` and `IOC`. -/
theorem absorbMany_withSposIoc (e : List Nat) (s : State) (p : Fin 5) (n : Nat) :
    e.foldl absorbOne { s with spos := p, ioc := n } = { e.foldl absorbOne s with spos := p, ioc := n } := by
  induction e generalizing s with
  | nil => rfl
  | cons x e ih =>
    have hone : absorbOne { s with spos := p, ioc := n } x = { absorbOne s x with spos := p, ioc := n } := by
      unfold absorbOne
      by_cases h : s.apos = 3
      · rw [if_pos h, if_pos h]; rfl
      · rw [if_neg h, if_neg h]
    rw [List.foldl_cons, hone, ih, List.foldl_cons]

theorem absorbCore_append (e f : List Nat) (s : State) :
    absorbCore (e ++ f) s = { absorbCore f (absorbCore e s) with ioc := s.ioc + 1 } := by
  have hioc : (f.foldl absorbOne (e.foldl absorbOne s)).ioc = s.ioc := by rw [absorbMany_ioc, absorbMany_ioc]
  simp only [absorbCore, absorbMany_withSposIoc, List.foldl_append, hioc]

/-- Settles O39: the loop up to the end of a chunk, at it, and on a sequence in two parts. -/
theorem absorbCoreByChunks : Obligations.AbsorbCoreByChunks := by
  refine ⟨fun s e h k => ?_, fun s e h => ?_, fun s e f => absorbCore_append e f s⟩
  · rw [absorbCore_st, absorbMany_st_of_room e h, addFrom_getElem]
  · rw [absorbCore_st, absorbMany_st_of_full h]
    refine congrArg (fun f => permutation s.cfg (Vector.ofFn f)) (funext fun k => ?_)
    exact if_congr (by omega) rfl rfl

/-! ### `SQUEEZE` (R164) -/

theorem squeezeCore_spos {n : Nat} (hn : 1 ≤ n) (s : State) :
    (squeezeCore n s).spos.val = (s.spos.val + n - 1) % 4 + 1 := squeezeMany_spos n s hn

theorem squeezeCore_apos {n : Nat} (hn : 1 ≤ n) (s : State) :
    (squeezeCore n s).apos = if s.spos.val + n ≤ 4 then s.apos else 0 :=
  (squeezeMany_apos n s).trans (if_congr (by omega) rfl rfl)

theorem exec_squeeze_of_idle {s : State} (hm : s.mode = .idle) (n : Byte) :
    exec (.squeeze n) s = .next (raise (.squeeze n) .badState s) := by
  simp [exec, execSqueeze, hm]

theorem exec_squeeze_of_mismatch {s : State} {n : Byte} (hm : s.mode = .active)
    (ht : s.apat[s.ioc]? ≠ some (.squeeze n.toNat)) :
    exec (.squeeze n) s = .next (raise (.squeeze n) .ioPatternViolation (spongeKill s)) := by
  simp [exec, execSqueeze, hm, ht]

theorem exec_squeeze_of_match {s : State} {n : Byte} (hm : s.mode = .active)
    (ht : s.apat[s.ioc]? = some (.squeeze n.toNat)) :
    exec (.squeeze n) s = .next (complete (.squeeze n) (squeezeCore n.toNat s)) := by
  simp [exec, execSqueeze, hm, ht]

/-- Settles O40: the positions, the count and the accumulator of `SqueezeCore`, and its frame. -/
theorem squeezeConsumesStep : Obligations.SqueezeConsumesStep := by
  intro n s hm hn ht
  have hf : CoreFrame s (squeezeCore n.toNat s) := squeezeCore_frame _ s
  obtain ⟨l, hout, hl⟩ := squeezeMany_out_prefix n.toNat s
  have hlen : (squeezeCore n.toNat s).out.length = s.out.length + n.toNat := by
    rw [squeezeCore_out, hout, List.length_append, hl]
  have hprefix : s.out <+: (squeezeCore n.toNat s).out := ⟨l, hout.symm⟩
  have hpcnt := squeezeCore_pcnt n.toNat s
  rw [if_neg (by omega)] at hpcnt
  exact ⟨_, exec_squeeze_of_match hm ht, hf.complete_ended _, rfl, rfl, hlen, hprefix, squeezeCore_spos hn s,
    squeezeCore_apos hn s, squeezeCore_ioc _ s, hpcnt, hf.apat, hf.mode.trans hm, hf.dom, hf.vr, hf.pat,
    hf.complete_paramsKept _⟩

/-- Settles O41: an error over an unchanged state, and one over the zeroised state. -/
theorem squeezeChecksInOrder : Obligations.SqueezeChecksInOrder := by
  refine fun n s => ⟨fun hm => ?_, fun hm ht => ?_⟩
  · exact ⟨_, exec_squeeze_of_idle hm n, raise_onlyEnded _ (by decide) s⟩
  · exact ⟨_, exec_squeeze_of_mismatch hm ht, raise_killedWith _ (by decide) s⟩

/-! ### `SqueezeCore` chunk by chunk (R157) -/

theorem squeezeOne_of_lt {s : State} (h : s.spos.val < 4) : squeezeOne s = takeRate s ⟨s.spos.val, h⟩ := dif_pos h

/-- At `SPOS = 4` a turn permutes, and goes on as from the start of the new state. -/
theorem squeezeOne_of_four {s : State} (h : s.spos.val = 4) :
    squeezeOne s = squeezeOne { permute s with spos := 0, apos := 0 } := by
  rw [squeezeOne, dif_neg (by omega)]
  rfl

/-- While elements remain in the current state, they are read in order and no permutation runs. -/
theorem squeezeMany_of_room (n : Nat) {s : State} (h : s.spos.val + n ≤ 4) :
    (squeezeMany n s).out = s.out ++ (s.st.toList.drop (1 + s.spos.val)).take n ∧ (squeezeMany n s).st = s.st := by
  induction n generalizing s with
  | zero => simp [squeezeMany]
  | succ n ih =>
    have hlt : s.spos.val < 4 := by omega
    have hdrop : s.st.toList.drop (1 + s.spos.val) =
        s.st[1 + s.spos.val] :: s.st.toList.drop (1 + (s.spos.val + 1)) := by
      rw [List.drop_eq_getElem_cons (by simp; omega), Vector.getElem_toList]
      rfl
    obtain ⟨hout, hst⟩ := ih (s := takeRate s ⟨s.spos.val, hlt⟩) (by simp; omega)
    rw [squeezeMany, squeezeOne_of_lt hlt]
    refine ⟨?_, hst⟩
    rw [hout, hdrop, List.take_succ_cons]
    simp

/-- A squeeze at `SPOS = 4` is one permutation and a squeeze from the start of the new state. -/
theorem squeezeMany_of_four {s : State} {n : Nat} (h : s.spos.val = 4) (hn : 1 ≤ n) :
    squeezeMany n s = squeezeMany n { permute s with spos := 0, apos := 0 } := by
  obtain ⟨n, rfl⟩ := Nat.exists_eq_add_of_le' hn
  rw [squeezeMany, squeezeOne_of_four h, squeezeMany]

theorem squeezeMany_add (n m : Nat) (s : State) : squeezeMany (n + m) s = squeezeMany m (squeezeMany n s) := by
  induction n generalizing s with
  | zero => rw [Nat.zero_add, squeezeMany]
  | succ n ih => rw [Nat.succ_add, squeezeMany, ih, squeezeMany]

/-- The loop of `SqueezeCore` neither reads nor writes `IOC`. -/
theorem squeezeMany_withIoc (n : Nat) (s : State) (j : Nat) :
    squeezeMany n { s with ioc := j } = { squeezeMany n s with ioc := j } := by
  induction n generalizing s with
  | zero => rfl
  | succ n ih =>
    have hone : squeezeOne { s with ioc := j } = { squeezeOne s with ioc := j } := by
      unfold squeezeOne
      split
      · rfl
      · rfl
    rw [squeezeMany, hone, ih, squeezeMany]

theorem squeezeCore_add (n m : Nat) (s : State) :
    squeezeCore (n + m) s = { squeezeCore m (squeezeCore n s) with ioc := s.ioc + 1 } := by
  have hioc : (squeezeMany m (squeezeMany n s)).ioc = s.ioc := by rw [squeezeMany_ioc, squeezeMany_ioc]
  simp only [squeezeCore, squeezeMany_withIoc, squeezeMany_add, hioc]

/-- Settles O42: the loop within a state, at its end, and in two parts. -/
theorem squeezeCoreByChunks : Obligations.SqueezeCoreByChunks := by
  refine ⟨fun s n h => squeezeMany_of_room n h, fun s n h hn hle => ?_, fun s n m => squeezeCore_add n m s⟩
  rw [squeezeCore_st, squeezeCore_out, squeezeMany_of_four h hn]
  obtain ⟨hout, hst⟩ := squeezeMany_of_room n (s := { permute s with spos := 0, apos := 0 }) (by simpa using hle)
  exact ⟨hst, hout⟩

/-! ### `FINISH` (R165) and `ABORT` (R166) -/

theorem exec_finish_of_idle {s : State} (hm : s.mode = .idle) (vd : Byte) :
    exec (.finish vd) s = .next (raise (.finish vd) .badState s) := by
  simp [exec, execFinish, hm]

theorem exec_finish_of_badRegister {s : State} {vd : Byte} (hm : s.mode = .active) (hv : 32 ≤ vd.toNat) :
    exec (.finish vd) s = .next (raise (.finish vd) .badOperand s) := by
  simp [exec, execFinish, hm, (regOk_eq_false _).mpr hv]

section
variable {s : State} {vd : Byte} (hm : s.mode = .active) (hv : vd.toNat < 32)
include hm hv

theorem exec_finish_of_unconsumed (hi : s.ioc ≠ s.apat.length) :
    exec (.finish vd) s = .next (raise (.finish vd) .ioPatternViolation (spongeKill s)) := by
  simp [exec, execFinish, hm, (regOk_iff _).mpr hv, hi]

theorem exec_finish_of_badRange (hi : s.ioc = s.apat.length) (hr : 32 < vd.toNat + s.out.length) :
    exec (.finish vd) s = .next (raise (.finish vd) .badOperand s) := by
  simp [exec, execFinish, hm, (regOk_iff _).mpr hv, hi, hr]

theorem exec_finish_of_consumed (hi : s.ioc = s.apat.length) (hr : vd.toNat + s.out.length ≤ 32) :
    exec (.finish vd) s = .next (completeWith (.finish vd) (BitVec.ofNat 8 s.out.length) []
      (spongeKill (s.vrWrite vd.toNat s.out))) := by
  simp [exec, execFinish, hm, (regOk_iff _).mpr hv, hi, Nat.not_lt.mpr hr]

end

/-- Settles O43: the accumulator is written into the registers and the context zeroised; the fields outside both go back
to `s` by the laws of the three operations. -/
theorem finishDeliversOutput : Obligations.FinishDeliversOutput := by
  intro vd s hm hv hi hr
  refine ⟨_, exec_finish_of_consumed hm hv hi hr, ?_, vrBecomes_of ?_, completeWith_spongeKill_cleared _ _ _ _,
    paramsKept_of ?_ ?_, ?_, ?_⟩
  · exact completeWith_ended _ _ [] (by simp) (by simp) (by simp) (by simp) (by simp)
  all_goals simp

/-- Settles O44: three errors over an unchanged state, and one over the zeroised state. -/
theorem finishChecksInOrder : Obligations.FinishChecksInOrder := by
  refine fun vd s => ⟨fun hm => ?_, fun hm hv => ?_, fun hm hv hi => ?_, fun hm hv hi hr => ?_⟩
  · exact ⟨_, exec_finish_of_idle hm vd, raise_onlyEnded _ (by decide) s⟩
  · exact ⟨_, exec_finish_of_badRegister hm hv, raise_onlyEnded _ (by decide) s⟩
  · exact ⟨_, exec_finish_of_unconsumed hm hv hi, raise_killedWith _ (by decide) s⟩
  · exact ⟨_, exec_finish_of_badRange hm hv hi hr, raise_onlyEnded _ (by decide) s⟩

theorem exec_abort (s : State) : exec .abort s = .next (complete .abort (spongeKill s)) := rfl

/-- Settles O45: `ABORT` is `SpongeKill` and its epilogue, in every state. -/
theorem abortClearsSponge : Obligations.AbortClearsSponge := fun s =>
  ⟨_, exec_abort s, complete_ended .abort rfl rfl rfl rfl rfl, completeWith_spongeKill_cleared .abort 0 [] s,
    paramsKept_of rfl rfl, rfl, rfl, rfl⟩

end Sys2Proof.Machine

/-! The hash family (spec/42_hash.md): padding (R180), the hash commands (R181 to R183) and the truncation (R185). -/

namespace Sys2Proof.Machine

/-! ### Padding (R180) -/

theorem pad_getElem?_length (m : List Nat) : (pad m)[m.length]? = some 1 := by simp [pad]

theorem pad_getElem?_of_gt {m : List Nat} {k : Nat} (h : m.length < k) (hk : k < (pad m).length) :
    (pad m)[k]? = some 0 := by
  obtain ⟨j, rfl⟩ : ∃ j, k = m.length + (j + 1) := ⟨k - m.length - 1, by omega⟩
  have hj : j < 3 - m.length % 4 := by
    simp only [pad_length, paddedLen] at hk
    omega
  simp [pad, hj]

/-- The appended one is the last non-zero element, so a padded sequence tells where its message ends. -/
theorem length_le_of_pad_eq {m m' : List Nat} (h : pad m = pad m') : m.length ≤ m'.length := by
  by_contra hlt
  have hone : (pad m')[m.length]? = some 1 := h ▸ pad_getElem?_length m
  have hin : m.length < (pad m').length := (List.getElem?_eq_some_iff.mp hone).1
  rw [pad_getElem?_of_gt (by omega) hin] at hone
  simp at hone

theorem pad_injective {m m' : List Nat} (h : pad m = pad m') : m = m' :=
  List.append_inj_left h (le_antisymm (length_le_of_pad_eq h) (length_le_of_pad_eq h.symm))

/-- Settles O46: the elements of a padded sequence one by one; two equal ones have messages of the same length. -/
theorem paddingIsUnambiguous : Obligations.PaddingIsUnambiguous :=
  ⟨fun m => ⟨pad_length m, List.prefix_append _ _, pad_getElem?_length m, fun _ h hk => pad_getElem?_of_gt h hk⟩,
    fun _ _ h => pad_injective h⟩

/-! ### `TRUNC` (R185) -/

theorem truncElem_eq_mod (c : Config) (x : Nat) : truncElem c x = x % 2 ^ c.truncBits % c.q := by
  rw [truncElem, Nat.and_two_pow_sub_one_eq_mod]

theorem truncElem_lt_q (c : Config) (x : Nat) : truncElem c x < c.q := Nat.mod_lt _ (by have := c.q_bounds; omega)

theorem exec_trunc_of_badRegister {vs vd : Byte} (h : 32 ≤ vs.toNat ∨ 32 ≤ vd.toNat) (s : State) :
    exec (.trunc vs vd) s = .next (raise (.trunc vs vd) .badOperand s) := by
  have hbad : (regOk vs.toNat && regOk vd.toNat) = false := by
    rwa [Bool.and_eq_false_iff, regOk_eq_false, regOk_eq_false]
  simp [exec, execTrunc, hbad]

theorem exec_trunc_of_registers {vs vd : Byte} (hs : vs.toNat < 32) (hd : vd.toNat < 32) (s : State) :
    exec (.trunc vs vd) s =
      .next (complete (.trunc vs vd) (s.vrSet vd.toNat (truncElem s.cfg s.vr[vs.toNat]))) := by
  simp [exec, execTrunc, (regOk_iff _).mpr hs, (regOk_iff _).mpr hd, vrAt_eq s hs]

theorem VrBecomes.single {s t : State} {b x : Nat} (h : VrBecomes s t b [x]) (k : Fin 32) (hk : k.val = b) :
    t.vr[k] = x := by
  rw [h k, if_pos (by simp [hk])]
  simp [hk]

/-- A command that writes one register, and its epilogue. -/
theorem complete_vrSet (i : Instr) (b x : Nat) (s : State) :
    Ended .ok i 0 [] s (complete i (s.vrSet b x)) ∧ VrBecomes s (complete i (s.vrSet b x)) b [x] ∧
      SpongeKept s (complete i (s.vrSet b x)) ∧ ParamsKept s (complete i (s.vrSet b x)) ∧
      (complete i (s.vrSet b x)).pat = s.pat ∧ (complete i (s.vrSet b x)).pcnt = s.pcnt := by
  have hkept : SpongeKept s (s.vrSet b x) := by constructor <;> simp
  refine ⟨complete_ended i ?_ ?_ ?_ ?_ ?_, vrBecomes_of ?_, epilogue_spongeKept _ _ _ _ _ hkept, paramsKept_of ?_ ?_, ?_,
    ?_⟩
  all_goals simp [complete]

/-- Settles O51: the mask is a remainder, and one register is written. -/
theorem truncMasksAndReduces : Obligations.TruncMasksAndReduces := by
  refine fun vs vd s => ⟨rfl, fun hs hd => ?_, fun h =>
    ⟨_, exec_trunc_of_badRegister h s, raise_onlyEnded _ (by decide) s⟩⟩
  have hend := complete_vrSet (.trunc vs vd) vd.toNat (truncElem s.cfg s.vr[vs.toNat]) s
  obtain ⟨hended, hvr, hsponge, hparams, hpat, hpcnt⟩ := hend
  refine ⟨_, exec_trunc_of_registers hs hd s, hended, ?_, fun k hk => ?_, hsponge, hparams, hpat, hpcnt⟩
  · rwa [← truncElem_eq_mod]
  · rw [hvr.single k hk]
    exact ⟨truncElem_lt_q _ _, truncElem_lt _ _⟩

/-! ### The end of a hash command -/

/-- What a hash command leaves that ends well with the hash `h` in `VR[vd]` after `n` permutations: the context is
zeroised and `PAT` is as before (R181 to R183). -/
def HashDelivered (i : Instr) (vd h n : Nat) (s t : State) : Prop :=
  Ended .ok i 0 [] s t ∧ VrBecomes s t vd [h] ∧ t.pcnt = s.pcnt + BitVec.ofNat 32 n ∧ SpongeCleared t ∧
    ParamsKept s t ∧ t.pat = s.pat

theorem SpongeCleared.vrSet {t : State} (h : SpongeCleared t) (b x : Nat) : SpongeCleared (t.vrSet b x) := by
  obtain ⟨hst, hapat, hmode, hdom, hioc, hapos, hspos, hout⟩ := h
  constructor <;> simpa

theorem hashInto_delivered (i : Instr) (vd : Nat) (d : Domain) (n : Nat) (e : List Nat) (s : State) :
    HashDelivered i vd (spongeHash d n e s).2 (runPermutations e.length) s (hashInto i vd (spongeHash d n e s)) := by
  rw [hashInto, spongeHash_state]
  have hcleared := (spongeKill_cleared { s with pcnt := s.pcnt + BitVec.ofNat 32 (runPermutations e.length) }).vrSet vd
    (spongeHash d n e s).2
  refine ⟨complete_ended i ?_ ?_ ?_ ?_ ?_, vrBecomes_of ?_, ?_, epilogue_cleared _ _ _ _ _ hcleared,
    paramsKept_of ?_ ?_, ?_⟩
  all_goals simp [complete]

/-- The operands of a hash command are out of range (R101): the source range or the destination. -/
theorem hashOperands_bad_iff (vs n vd : Nat) :
    (rangeOk vs n && regOk vd) = false ↔ 32 ≤ vs ∨ 32 ≤ vd ∨ 32 < vs + n := by
  rw [Bool.and_eq_false_iff, rangeOk_eq_false, regOk_eq_false]
  omega

theorem hashOperands_ok {vs n vd : Nat} (hs : vs < 32) (hd : vd < 32) (hr : vs + n ≤ 32) :
    (rangeOk vs n && regOk vd) = true := by
  rw [(rangeOk_iff _ _).mpr ⟨hs, hr⟩, (regOk_iff _).mpr hd]
  rfl

/-! ### `HASH` (R181) -/

/-- A whole chunk added from the first rate slot on. -/
theorem addFrom_zero_eq_addChunk (p : Nat) (st : PermState) {chunk : List Nat} (h : chunk.length = 4) :
    addFrom p st 0 chunk = addChunk p st chunk := by
  refine congrArg Vector.ofFn (funext fun k => ?_)
  by_cases hk : k.val = 0
  · rw [if_neg (by omega), if_pos hk]
  · rw [if_pos (by omega), if_neg hk, Nat.sub_zero]

/-- Absorbing whole chunks from the start of one adds each and permutes (R156). -/
theorem absorbMany_st_of_chunks (e : List Nat) {s : State} (hpos : s.apos = 0) (h : e.length % 4 = 0) :
    (e.foldl absorbOne s).st =
      (chunksOf4 e).foldl (fun st chunk => permutation s.cfg (addChunk s.cfg.p st chunk)) s.st := by
  induction e using chunksOf4.induct generalizing s with
  | case1 a b c d rest ih =>
    have hfull : s.apos.val + [a, b, c, d].length = 4 := by simp [hpos]
    have hnext : ([a, b, c, d].foldl absorbOne s).apos = 0 := Fin.ext (by rw [absorbMany_apos, hfull]; rfl)
    have hst := absorbMany_st_of_full hfull
    rw [hpos, Fin.val_zero, addFrom_zero_eq_addChunk _ _ rfl] at hst
    have hrest := ih hnext (by simp only [List.length_cons] at h; omega)
    rw [hst, (absorbMany_frame _ s).cfg] at hrest
    exact hrest
  | case2 e hshort =>
    match e, h with
    | [], _ => rfl
    | a :: b :: c :: d :: rest, _ => exact absurd rfl (hshort a b c d rest)

/-- A sponge run over whole chunks squeezes from the state that the last absorption left, with no permutation of its own. -/
theorem spongeHash_value_of_chunks (d : Domain) (n : Nat) {e : List Nat} (h : e.length % 4 = 0) (s : State) :
    (spongeHash d n e s).2 =
      ((chunksOf4 e).foldl (fun st chunk => permutation s.cfg (addChunk s.cfg.p st chunk))
        #v[tagOf s.cfg [.absorb n, .squeeze 1] (domTag s.cfg d), 0, 0, 0, 0])[1] := by
  have hst := absorbMany_st_of_chunks e (spongeInit_apos [.absorb n, .squeeze 1] d s) h
  rw [← absorbCore_st] at hst
  rw [spongeHash_value]
  simp [h, hst]

theorem spongeHash_pad_value (d : Domain) (n : Nat) (m : List Nat) (s : State) :
    (spongeHash d n (pad m) s).2 =
      chunkedHash s.cfg (tagOf s.cfg [.absorb n, .squeeze 1] (domTag s.cfg d)) m :=
  spongeHash_value_of_chunks d n (by simp [paddedLen]) s

theorem runPermutations_pad (m : List Nat) : runPermutations (pad m).length = m.length / 4 + 1 := by
  simp [runPermutations, paddedLen]

theorem exec_hash_of_active {s : State} (hm : s.mode = .active) (vs n vd : Byte) :
    exec (.hash vs n vd) s = .next (raise (.hash vs n vd) .badState s) := by
  simp [exec, execHash, hm]

theorem exec_hash_of_badOperands {s : State} {vs n vd : Byte} (hm : s.mode = .idle)
    (h : (rangeOk vs.toNat n.toNat && regOk vd.toNat) = false) :
    exec (.hash vs n vd) s = .next (raise (.hash vs n vd) .badOperand s) := by
  rw [exec, execHash, if_neg (not_not.mpr hm), if_pos h]

theorem exec_hash_of_operands {s : State} {vs n vd : Byte} (hm : s.mode = .idle)
    (h : (rangeOk vs.toNat n.toNat && regOk vd.toNat) = true) :
    exec (.hash vs n vd) s = .next (hashInto (.hash vs n vd) vd.toNat
      (spongeHash .other (paddedLen n.toNat) (pad (s.vrRange vs.toNat n.toNat)) s)) := by
  rw [exec, execHash, if_neg (not_not.mpr hm), if_neg (by simp [h])]

/-- Settles O47: the run over the padded message, chunk by chunk, and the end of a hash command. -/
theorem hashIsChunkwiseSponge : Obligations.HashIsChunkwiseSponge := by
  refine fun vs n vd s => ⟨rfl, fun hm => ?_, fun hm h => ?_, fun hm hs hd hr => ?_⟩
  · exact ⟨_, exec_hash_of_active hm vs n vd, raise_onlyEnded _ (by decide) s⟩
  · exact ⟨_, exec_hash_of_badOperands hm ((hashOperands_bad_iff _ _ _).mpr h), raise_onlyEnded _ (by decide) s⟩
  · have hdel := hashInto_delivered (.hash vs n vd) vd.toNat .other (paddedLen n.toNat)
      (pad (s.vrRange vs.toNat n.toNat)) s
    rw [spongeHash_pad_value, runPermutations_pad, vrRange_length, vrRange_eq_map_range] at hdel
    exact ⟨_, exec_hash_of_operands hm (hashOperands_ok hs hd hr), by rwa [vrRange_eq_map_range]⟩

/-! ### `MHASH2` and `MHASH4` (R182, R183) -/

section
variable {s : State} {k vs m vd : Nat} (i : Instr) (d : Domain)

theorem merkleHash_of_active (hm : s.mode = .active) : merkleHash i d k vs m vd s = raise i .badState s := by
  simp [merkleHash, hm]

variable (hm : s.mode = .idle)
include hm

theorem merkleHash_of_badOperands (h : (rangeOk vs m && regOk vd) = false) :
    merkleHash i d k vs m vd s = raise i .badOperand s := by
  rw [merkleHash, if_neg (not_not.mpr hm), if_pos h]

variable (h : (rangeOk vs m && regOk vd) = true)
include h

theorem merkleHash_of_wrongCount (hk : m ≠ k) : merkleHash i d k vs m vd s = raise i .ioPatternViolation s := by
  rw [merkleHash, if_neg (not_not.mpr hm), if_neg (by simp [h]), if_pos hk]

theorem merkleHash_of_count (hk : m = k) :
    merkleHash i d k vs m vd s = hashInto i vd (spongeHash d k (s.vrRange vs k) s) := by
  rw [merkleHash, if_neg (not_not.mpr hm), if_neg (by simp [h]), if_neg (not_not.mpr hk)]

end

/-- The three checks of a fixed-arity hash: whichever fails, nothing changes (R182). -/
theorem merkleHash_checks (i : Instr) (d : Domain) (k vs m vd : Nat) (s : State) :
    (s.mode = .active → OnlyEnded .badState i s (merkleHash i d k vs m vd s)) ∧
    (s.mode = .idle → (32 ≤ vs ∨ 32 ≤ vd ∨ 32 < vs + m) →
      OnlyEnded .badOperand i s (merkleHash i d k vs m vd s)) ∧
    (s.mode = .idle → vs < 32 → vd < 32 → vs + m ≤ 32 → m ≠ k →
      OnlyEnded .ioPatternViolation i s (merkleHash i d k vs m vd s)) := by
  refine ⟨fun hm => ?_, fun hm h => ?_, fun hm hs hd hr hk => ?_⟩
  · rw [merkleHash_of_active i d hm]
    exact raise_onlyEnded i (by decide) s
  · rw [merkleHash_of_badOperands i d hm ((hashOperands_bad_iff _ _ _).mpr h)]
    exact raise_onlyEnded i (by decide) s
  · rw [merkleHash_of_wrongCount i d hm (hashOperands_ok hs hd hr) hk]
    exact raise_onlyEnded i (by decide) s

/-- A sponge run over at most one chunk is one permutation: the absorption's own when the chunk is full, the squeeze's
otherwise. -/
theorem spongeHash_value_of_oneChunk (d : Domain) (n : Nat) {e : List Nat} (hpos : 1 ≤ e.length) (hle : e.length ≤ 4)
    (s : State) : (spongeHash d n e s).2 = (permutation s.cfg (addFrom s.cfg.p
      #v[tagOf s.cfg [.absorb n, .squeeze 1] (domTag s.cfg d), 0, 0, 0, 0] 0 e))[1] := by
  rw [spongeHash_value]
  by_cases h : e.length = 4
  · have hst := absorbMany_st_of_full (s := spongeInit [.absorb n, .squeeze 1] d s) (e := e) (by simp [h])
    rw [← absorbCore_st] at hst
    simp [h, hst]
  · have hst := absorbMany_st_of_room e (s := spongeInit [.absorb n, .squeeze 1] d s) (by simp; omega)
    rw [← absorbCore_st] at hst
    have hmod : e.length % 4 ≠ 0 := by omega
    simp [hmod, hst]

/-- A fixed-arity hash of the right number of elements: tag and elements into the state, one permutation, position 1. -/
theorem merkleHash_delivered (i : Instr) (d : Domain) {k vs m vd : Nat} {s : State} (hk1 : 1 ≤ k) (hk4 : k ≤ 4)
    (hm : s.mode = .idle) (hr : vs + k ≤ 32) (hd : vd < 32) (hk : m = k) :
    HashDelivered i vd (permutation s.cfg (addFrom s.cfg.p
      #v[tagOf s.cfg [.absorb k, .squeeze 1] (domTag s.cfg d), 0, 0, 0, 0] 0 (s.vrRange vs k)))[1] 1 s
      (merkleHash i d k vs m vd s) := by
  have hdel := hashInto_delivered i vd d k (s.vrRange vs k) s
  have hone : runPermutations k = 1 := by
    unfold runPermutations
    split <;> omega
  rw [spongeHash_value_of_oneChunk d k (by simpa) (by simpa), vrRange_length, hone] at hdel
  rwa [merkleHash_of_count i d hm (hashOperands_ok (by omega) hd (by omega)) hk]

theorem vrRange_two (s : State) {b : Nat} (h : b + 2 ≤ 32) : s.vrRange b 2 = [s.vr[b], s.vr[b + 1]] := by
  rw [← vrAt_eq, ← vrAt_eq]
  rfl

theorem vrRange_four (s : State) {b : Nat} (h : b + 4 ≤ 32) :
    s.vrRange b 4 = [s.vr[b], s.vr[b + 1], s.vr[b + 2], s.vr[b + 3]] := by
  rw [← vrAt_eq, ← vrAt_eq, ← vrAt_eq, ← vrAt_eq]
  rfl

theorem addFrom_tag_two (p tag a b : Nat) : addFrom p #v[tag, 0, 0, 0, 0] 0 [a, b] = #v[tag, a % p, b % p, 0, 0] := by
  ext k hk
  refine (addFrom_getElem p _ 0 [a, b] ⟨k, hk⟩).trans ?_
  interval_cases k <;> simp

theorem addFrom_tag_four (p tag a b c d : Nat) :
    addFrom p #v[tag, 0, 0, 0, 0] 0 [a, b, c, d] = #v[tag, a % p, b % p, c % p, d % p] := by
  ext k hk
  refine (addFrom_getElem p _ 0 [a, b, c, d] ⟨k, hk⟩).trans ?_
  interval_cases k <;> simp

/-- Settles O48: the checks of a fixed-arity hash, and its one permutation over the tag and the pair. -/
theorem mhash2HashesPair : Obligations.Mhash2HashesPair := by
  intro vs m vd s
  obtain ⟨hactive, hoperand, hcount⟩ := merkleHash_checks (.mhash2 vs m vd) .merkle2 2 vs.toNat m.toNat vd.toNat s
  refine ⟨rfl, fun hm => ⟨_, rfl, hactive hm⟩, fun hm h => ⟨_, rfl, hoperand hm h⟩,
    fun hm hs hd hr hk => ⟨_, rfl, hcount hm hs hd hr hk⟩, fun hr hm hd hk => ?_⟩
  have hdel := merkleHash_delivered (.mhash2 vs m vd) .merkle2 (by decide) (by decide) hm hr hd hk
  rw [vrRange_two s hr, addFrom_tag_two] at hdel
  exact ⟨_, rfl, hdel⟩

/-- Settles O49: the checks of a fixed-arity hash, and its one permutation over the tag and the four. -/
theorem mhash4HashesQuadruple : Obligations.Mhash4HashesQuadruple := by
  intro vs m vd s
  obtain ⟨hactive, hoperand, hcount⟩ := merkleHash_checks (.mhash4 vs m vd) .merkle4 4 vs.toNat m.toNat vd.toNat s
  refine ⟨rfl, fun hm => ⟨_, rfl, hactive hm⟩, fun hm h => ⟨_, rfl, hoperand hm h⟩,
    fun hm hs hd hr hk => ⟨_, rfl, hcount hm hs hd hr hk⟩, fun hr hm hd hk => ?_⟩
  have hdel := merkleHash_delivered (.mhash4 vs m vd) .merkle4 (by decide) (by decide) hm hr hd hk
  rw [vrRange_four s hr, addFrom_tag_four] at hdel
  exact ⟨_, rfl, hdel⟩

end Sys2Proof.Machine

/-! The hash family, part 2: a hash command and the protocol commands run the same sponge (R184). -/

namespace Sys2Proof.Machine

/-! ### What a sponge run reads -/

/-- The two states agree on all that the core procedures of the sponge read, and on what they write but `IOC`. -/
structure SameCore (s t : State) : Prop where
  cfg : s.cfg = t.cfg
  st : s.st = t.st
  apos : s.apos = t.apos
  spos : s.spos = t.spos
  out : s.out = t.out
  pcnt : s.pcnt = t.pcnt

theorem SameCore.trans {s t u : State} (h : SameCore s t) (g : SameCore t u) : SameCore s u :=
  ⟨h.cfg.trans g.cfg, h.st.trans g.st, h.apos.trans g.apos, h.spos.trans g.spos, h.out.trans g.out, h.pcnt.trans g.pcnt⟩

theorem complete_sameCore (i : Instr) (s : State) : SameCore (complete i s) s := ⟨rfl, rfl, rfl, rfl, rfl, rfl⟩

theorem SameCore.spongeInit {s t : State} (hcfg : s.cfg = t.cfg) (hpcnt : s.pcnt = t.pcnt) (pat : List PatStep)
    (d : Domain) : SameCore (spongeInit pat d s) (spongeInit pat d t) :=
  ⟨hcfg, by simp [hcfg], rfl, rfl, rfl, hpcnt⟩

section
variable {s t : State} (h : SameCore s t)
include h

theorem SameCore.absorbOne (x : Nat) : SameCore (absorbOne s x) (absorbOne t x) := by
  obtain ⟨hcfg, hst, hapos, hspos, hout, hpcnt⟩ := h
  have hfull : s.apos = 3 ↔ t.apos = 3 := by rw [hapos]
  unfold Machine.absorbOne
  by_cases h3 : t.apos = 3
  · rw [if_pos h3, if_pos (hfull.mpr h3)]
    constructor <;> simp [hcfg, hst, hapos, hspos, hout, hpcnt]
  · rw [if_neg h3, if_neg (mt hfull.mp h3)]
    constructor <;> simp [hcfg, hst, hapos, hspos, hout, hpcnt]

theorem SameCore.absorbMany (e : List Nat) : SameCore (e.foldl Machine.absorbOne s) (e.foldl Machine.absorbOne t) := by
  induction e generalizing s t with
  | nil => exact h
  | cons x e ih => exact ih (h.absorbOne x)

theorem SameCore.absorbCore (e : List Nat) : SameCore (absorbCore e s) (absorbCore e t) := by
  obtain ⟨hcfg, hst, hapos, -, hout, hpcnt⟩ := h.absorbMany e
  exact ⟨hcfg, hst, hapos, by simp [Machine.absorbCore, hapos], hout, hpcnt⟩

theorem SameCore.squeezeOne : SameCore (squeezeOne s) (squeezeOne t) := by
  obtain ⟨hcfg, hst, hapos, hspos, hout, hpcnt⟩ := h
  unfold Machine.squeezeOne
  by_cases hlt : t.spos.val < 4
  · rw [dif_pos hlt, dif_pos (hspos ▸ hlt)]
    constructor <;> simp [hcfg, hst, hapos, hspos, hout, hpcnt]
  · rw [dif_neg hlt, dif_neg (hspos ▸ hlt)]
    constructor <;> simp [hcfg, hst, hout, hpcnt]

/-- A squeeze of one element is one turn of the loop. -/
theorem SameCore.squeezeCore_one : SameCore (squeezeCore 1 s) (squeezeCore 1 t) := by
  obtain ⟨hcfg, hst, hapos, hspos, hout, hpcnt⟩ := h.squeezeOne
  exact ⟨hcfg, hst, hapos, hspos, hout, hpcnt⟩

end

/-- The state in which a sponge run has squeezed its one element and is about to be zeroised (R181 to R183). -/
def hashRun (d : Domain) (n : Nat) (e : List Nat) (s : State) : State :=
  squeezeCore 1 (absorbCore e (spongeInit [.absorb n, .squeeze 1] d s))

theorem spongeHash_eq (d : Domain) (n : Nat) (e : List Nat) (s : State) :
    spongeHash d n e s = (spongeKill (hashRun d n e s), (hashRun d n e s).out.headD 0) := rfl

theorem hashRun_out (d : Domain) (n : Nat) (e : List Nat) (s : State) :
    (hashRun d n e s).out = [(spongeHash d n e s).2] := by
  obtain ⟨l, hout, hlen⟩ := squeezeMany_out_prefix 1 (absorbCore e (spongeInit [.absorb n, .squeeze 1] d s))
  obtain ⟨x, rfl⟩ := List.length_eq_one_iff.mp hlen
  have hsq : (hashRun d n e s).out = [x] := by rw [hashRun, squeezeCore_out, hout, absorbCore_out, spongeInit_out]; rfl
  rw [spongeHash_eq, hsq]
  rfl

/-! ### The sequence of protocol commands (R184) -/

theorem execAll_cons {i : Instr} {s t : State} (h : exec i s = .next t) (is : List Instr) :
    execAll (i :: is) s = execAll is t := by
  rw [execAll, h]

/-- The states after the three staging commands agree with the first on all but `PAT` and what an epilogue writes. -/
theorem execAll_stage (n : Byte) (is : List Instr) (s : State) :
    ∃ t, execAll (.pclr :: .pabs n :: .psqz 1 :: is) s = execAll is t ∧ t.pat = [.absorb n.toNat, .squeeze 1] ∧
      t.cfg = s.cfg ∧ t.vr = s.vr ∧ t.mode = s.mode ∧ t.pcnt = s.pcnt :=
  ⟨_, rfl, rfl, rfl, rfl, rfl, rfl⟩

/-- In the run of a sponge over the registers of `s`: `u` is active, has taken `k` steps of the pattern `pat`, and its
core is that of `c`. -/
structure Running (pat : List PatStep) (k : Nat) (c s u : State) : Prop where
  core : SameCore u c
  mode : u.mode = .active
  apat : u.apat = pat
  ioc : u.ioc = k
  vr : u.vr = s.vr
  pat : u.pat = s.pat

theorem exec_start_running {s : State} {d : Byte} {dom : Domain} (hm : s.mode = .idle) (hd : domainIndex dom = d.toNat)
    (hv : patternValid s.pat dom = true) (ht : squeezeTotal s.pat ≤ 32) :
    ∃ u, exec (.start d) s = .next u ∧ Running s.pat 0 (spongeInit s.pat dom s) s u :=
  ⟨_, exec_start_of_valid hm hd hv ht, complete_sameCore _ _, rfl, rfl, rfl, rfl, rfl⟩

section
variable {pat : List PatStep} {k : Nat} {c s u : State} (h : Running pat k c s u)
include h

theorem Running.exec_absorb {vs n : Byte} (hr : rangeOk vs.toNat n.toNat = true)
    (ht : pat[k]? = some (.absorb n.toNat)) :
    ∃ v, exec (.absorb vs n n) u = .next v ∧
      Running pat (k + 1) (absorbCore (s.vrRange vs.toNat n.toNat) c) s v := by
  obtain ⟨hcore, hmode, hapat, hioc, hvr, hpat⟩ := h
  have hrange : u.vrRange vs.toNat n.toNat = s.vrRange vs.toNat n.toNat := by
    rw [vrRange_eq_map_range, vrRange_eq_map_range, hvr]
  refine ⟨_, exec_absorb_of_match hmode hr le_rfl (by rw [hapat, hioc, ht]), ?_⟩
  rw [hrange]
  refine ⟨(complete_sameCore _ _).trans (hcore.absorbCore _), ?_, ?_, ?_, ?_, ?_⟩
  all_goals simpa [complete, completeWith]

theorem Running.exec_squeeze_one (ht : pat[k]? = some (.squeeze 1)) :
    ∃ v, exec (.squeeze 1) u = .next v ∧ Running pat (k + 1) (squeezeCore 1 c) s v := by
  obtain ⟨hcore, hmode, hapat, hioc, hvr, hpat⟩ := h
  refine ⟨_, exec_squeeze_of_match hmode (by rw [hapat, hioc, ht]; rfl), ?_⟩
  refine ⟨(complete_sameCore _ _).trans hcore.squeezeCore_one, ?_, ?_, ?_, ?_, ?_⟩
  all_goals simpa [complete, completeWith]

theorem Running.exec_finish {vd : Byte} (hvd : vd.toNat < 32) (hk : k = pat.length)
    (hr : vd.toNat + c.out.length ≤ 32) :
    ∃ t, exec (.finish vd) u = .next t ∧ t.vr = writeRegs s.vr vd.toNat c.out ∧ t.pcnt = c.pcnt ∧ SpongeCleared t ∧
      t.pat = s.pat := by
  obtain ⟨hcore, hmode, hapat, hioc, hvr, hpat⟩ := h
  refine ⟨_, exec_finish_of_consumed hmode hvd (by rw [hioc, hapat, hk]) (by rw [hcore.out]; exact hr), ?_, ?_,
    completeWith_spongeKill_cleared _ _ _ _, ?_⟩
  · simp [hvr, hcore.out]
  · simp [hcore.pcnt]
  · simpa

end

/-- The sequence of R184 in the domain `dom` delivers what a hash command's run over the same elements computes. -/
theorem execAll_protocol {s : State} {d vs n vd : Byte} {dom : Domain} (hm : s.mode = .idle)
    (hd : domainIndex dom = d.toNat) (hv : patternValid [.absorb n.toNat, .squeeze 1] dom = true)
    (hr : rangeOk vs.toNat n.toNat = true) (hvd : vd.toNat < 32) :
    ∃ t, execAll [.pclr, .pabs n, .psqz 1, .start d, .absorb vs n n, .squeeze 1, .finish vd] s = some t ∧
      t.vr = writeRegs s.vr vd.toNat [(spongeHash dom n.toNat (s.vrRange vs.toNat n.toNat) s).2] ∧
      t.pcnt = (spongeHash dom n.toNat (s.vrRange vs.toNat n.toNat) s).1.pcnt ∧ SpongeCleared t ∧
      t.pat = [.absorb n.toNat, .squeeze 1] := by
  obtain ⟨s0, hstage, hpat, hcfg, hvr, hmode, hpcnt⟩ :=
    execAll_stage n [.start d, .absorb vs n n, .squeeze 1, .finish vd] s
  obtain ⟨s1, hstart, run1⟩ := exec_start_running (hmode.trans hm) hd (hpat ▸ hv) (by simp [hpat, squeezeTotal])
  obtain ⟨s2, habsorb, run2⟩ := run1.exec_absorb hr (by rw [hpat]; rfl)
  obtain ⟨s3, hsqueeze, run3⟩ := run2.exec_squeeze_one (by rw [hpat]; rfl)
  have hcore : SameCore (squeezeCore 1 (absorbCore (s0.vrRange vs.toNat n.toNat) (spongeInit s0.pat dom s0)))
      (hashRun dom n.toNat (s.vrRange vs.toNat n.toNat) s) := by
    have hrange : s0.vrRange vs.toNat n.toNat = s.vrRange vs.toNat n.toNat := by
      rw [vrRange_eq_map_range, vrRange_eq_map_range, hvr]
    rw [hrange, hpat]
    exact ((SameCore.spongeInit hcfg hpcnt _ dom).absorbCore _).squeezeCore_one
  have hout := hcore.out.trans (hashRun_out dom n.toNat (s.vrRange vs.toNat n.toNat) s)
  obtain ⟨t, hfinish, htvr, htpcnt, hcleared, htpat⟩ := run3.exec_finish hvd (by rw [hpat]; rfl)
    (by rw [hout, List.length_singleton]; exact hvd)
  refine ⟨t, ?_, ?_, htpcnt.trans hcore.pcnt, hcleared, htpat.trans hpat⟩
  · rw [hstage, execAll_cons hstart, execAll_cons habsorb, execAll_cons hsqueeze, execAll_cons hfinish, execAll]
  · rw [htvr, hvr, hout]

theorem SpongeKept.of_cleared {t u : State} (ht : SpongeCleared t) (hu : SpongeCleared u) : SpongeKept t u where
  st := Vector.ext fun k hk => (hu.st ⟨k, hk⟩).trans (ht.st ⟨k, hk⟩).symm
  apat := hu.apat.trans ht.apat.symm
  mode := hu.mode.trans ht.mode.symm
  dom := by
    have hindex := congrArg domainOf (hu.dom.trans ht.dom.symm)
    rwa [domainOf_domainIndex, domainOf_domainIndex, Option.some.injEq] at hindex
  ioc := hu.ioc.trans ht.ioc.symm
  apos := hu.apos.trans ht.apos.symm
  spos := hu.spos.trans ht.spos.symm
  out := hu.out.trans ht.out.symm

/-- Condition (d) of R153 asks nothing in the domain of `HASH`. -/
theorem patternValid_absorb_squeeze_other {n : Nat} (h : 1 ≤ n) :
    patternValid [.absorb n, .squeeze 1] .other = true := by
  simp [patternValid, stepLen, isAbsorb, isSqueeze, merkleShape, arity, h]

/-- A hash command and the sequence of R184 over the registers that hold what it absorbs. -/
theorem hashInto_eq_protocol (i : Instr) {s : State} {d vs n vd : Byte} {dom : Domain} {e : List Nat}
    (hm : s.mode = .idle) (hd : domainIndex dom = d.toNat)
    (hv : patternValid [.absorb n.toNat, .squeeze 1] dom = true) (hr : rangeOk vs.toNat n.toNat = true)
    (hvd : vd.toNat < 32) (he : s.vrRange vs.toNat n.toNat = e) :
    ∃ t, execAll [.pclr, .pabs n, .psqz 1, .start d, .absorb vs n n, .squeeze 1, .finish vd] s = some t ∧
      (hashInto i vd.toNat (spongeHash dom n.toNat e s)).vr = t.vr ∧
      (hashInto i vd.toNat (spongeHash dom n.toNat e s)).pcnt = t.pcnt ∧
      SpongeKept t (hashInto i vd.toNat (spongeHash dom n.toNat e s)) ∧
      (hashInto i vd.toNat (spongeHash dom n.toNat e s)).pat = s.pat ∧ t.pat = [.absorb n.toNat, .squeeze 1] := by
  subst he
  obtain ⟨t, hrun, hvr, hpcnt, hcleared, hpat⟩ := execAll_protocol hm hd hv hr hvd
  obtain ⟨-, -, -, hkilled, -, hkept⟩ := hashInto_delivered i vd.toNat dom n.toNat (s.vrRange vs.toNat n.toNat) s
  refine ⟨t, hrun, ?_, ?_, .of_cleared hcleared hkilled, hkept, hpat⟩
  · rw [hvr]
    simp [hashInto, complete, spongeHash_state]
  · rw [hpcnt]
    simp [hashInto, complete]

/-- Settles O50: the three hash commands are one run each, and so is the sequence, in the domain and over the elements of
that run. -/
theorem hashCommandsEqualProtocol : Obligations.HashCommandsEqualProtocol := by
  refine ⟨fun vs vd s hm hr hd => ?_, fun vs vd s hm hr hd => ?_, fun vs vb n lp vd s hm hs hr hlp hb hd he => ?_⟩
  · obtain ⟨t, hrun, h⟩ := hashInto_eq_protocol (.mhash2 vs 2 vd) (d := 0) (n := 2) (dom := .merkle2) hm rfl rfl
      ((rangeOk_iff _ _).mpr ⟨by omega, hr⟩) hd rfl
    exact ⟨t, _, hrun, congrArg Host.Outcome.next (merkleHash_of_count _ _ hm (hashOperands_ok (by omega) hd hr) rfl), h⟩
  · obtain ⟨t, hrun, h⟩ := hashInto_eq_protocol (.mhash4 vs 4 vd) (d := 1) (n := 4) (dom := .merkle4) hm rfl rfl
      ((rangeOk_iff _ _).mpr ⟨by omega, hr⟩) hd rfl
    exact ⟨t, _, hrun, congrArg Host.Outcome.next (merkleHash_of_count _ _ hm (hashOperands_ok (by omega) hd hr) rfl), h⟩
  · obtain ⟨t, hrun, hvr, hpcnt, hkept, hpat, -⟩ := hashInto_eq_protocol (.hash vs n vd) (d := 3) hm rfl
      (patternValid_absorb_squeeze_other (by omega)) ((rangeOk_iff _ _).mpr ⟨by omega, hb⟩) hd he
    refine ⟨t, _, hrun, ?_, hvr, hpcnt, hkept, hpat⟩
    rw [hlp]
    exact exec_hash_of_operands hm (hashOperands_ok hs hd hr)

end Sys2Proof.Machine

/-! The cipher family (spec/43_cipher.md), part 1: the cipher byte format, `LDC` and `STC` (R206, R207). -/

namespace Sys2Proof.Machine

/-! ### Decoding a whole payload (R206) -/

theorem decodeAll_of_canonical {p : Nat} {cs : List (List Byte)} (h : ∀ c ∈ cs, leNat c < p) :
    decodeAll p cs = some (cs.map leNat) := by
  induction cs with
  | nil => rfl
  | cons c cs ih =>
    obtain ⟨hc, hcs⟩ := List.forall_mem_cons.mp h
    rw [decodeAll, dec32_eq_some.mpr ⟨rfl, hc⟩, ih hcs]
    rfl

/-- One chunk that is not canonical is enough, whichever it is. -/
theorem decodeAll_eq_none {p : Nat} {cs : List (List Byte)} (h : ∃ c ∈ cs, p ≤ leNat c) : decodeAll p cs = none := by
  induction cs with
  | nil => simp at h
  | cons c cs ih =>
    obtain ⟨b, hb, hp⟩ := h
    rw [decodeAll]
    rcases List.mem_cons.mp hb with rfl | hb
    · rw [dec32_eq_none.mpr hp]
    · rw [ih ⟨b, hb, hp⟩]
      cases dec32 p c <;> rfl

theorem chunks_map_leNat (payload : List Byte) (n : Nat) :
    (chunks payload n).map leNat = (List.range n).map fun i => leNat ((payload.drop (32 * i)).take 32) := by
  rw [chunks, List.map_map]
  rfl

/-- Chunk `i` of the encodings of a list is the encoding of its element `i`. -/
theorem chunk_flatMap_enc32 {xs : List Nat} {i v : Nat} (h : xs[i]? = some v) :
    ((xs.flatMap enc32).drop (32 * i)).take 32 = enc32 v := by
  refine tableRead_eq_enc32 fun b hb => ?_
  rw [flatMap_getElem?_of_length enc32_length xs i hb, h]
  rfl

/-! ### `LDC` (R206) -/

/-- A command that writes registers from `b` on and nothing else, and its epilogue. -/
theorem complete_vrWrite (i : Instr) (b : Nat) (xs : List Nat) (s : State) :
    Ended .ok i 0 [] s (complete i (s.vrWrite b xs)) ∧ VrBecomes s (complete i (s.vrWrite b xs)) b xs ∧
      SpongeKept s (complete i (s.vrWrite b xs)) ∧ ParamsKept s (complete i (s.vrWrite b xs)) ∧
      (complete i (s.vrWrite b xs)).pat = s.pat ∧ (complete i (s.vrWrite b xs)).pcnt = s.pcnt := by
  have hkept : SpongeKept s (s.vrWrite b xs) := by constructor <;> simp
  refine ⟨complete_ended i ?_ ?_ ?_ ?_ ?_, vrBecomes_of ?_, epilogue_spongeKept _ _ _ _ _ hkept, paramsKept_of ?_ ?_, ?_,
    ?_⟩
  all_goals simp [complete]

theorem exec_ldc_of_badRange {vd : Byte} {s : State} (h : 32 < vd.toNat + s.cfg.mcap + 1) (payload : List Byte) :
    exec (.ldc vd payload) s = .next (raise (.ldc vd payload) .badOperand s) := by
  simp [exec, execLdc, (rangeOk_eq_false vd.toNat (s.cfg.mcap + 1)).mpr (.inr h)]

section
variable {vd : Byte} {payload : List Byte} {s : State} (hr : vd.toNat + s.cfg.mcap + 1 ≤ 32)
include hr

theorem exec_ldc_of_canonical (h : ∀ i, i ≤ s.cfg.mcap → leNat ((payload.drop (32 * i)).take 32) < s.cfg.p) :
    exec (.ldc vd payload) s = .next (complete (.ldc vd payload) (s.vrWrite vd.toNat
      ((List.range (s.cfg.mcap + 1)).map fun i => leNat ((payload.drop (32 * i)).take 32)))) := by
  have hd : decodeAll s.cfg.p (chunks payload (s.cfg.mcap + 1)) = some ((chunks payload (s.cfg.mcap + 1)).map leNat) :=
    decodeAll_of_canonical (by simpa [chunks, Nat.lt_succ_iff] using h)
  simp [exec, execLdc, (rangeOk_iff vd.toNat (s.cfg.mcap + 1)).mpr ⟨by omega, hr⟩, hd, chunks_map_leNat]

theorem exec_ldc_of_nonCanonical
    (h : ∃ i, i ≤ s.cfg.mcap ∧ s.cfg.p ≤ leNat ((payload.drop (32 * i)).take 32)) :
    exec (.ldc vd payload) s = .next (raise (.ldc vd payload) .nonCanonicalElement s) := by
  have hd : decodeAll s.cfg.p (chunks payload (s.cfg.mcap + 1)) = none :=
    decodeAll_eq_none (by simpa [chunks, Nat.lt_succ_iff] using h)
  simp [exec, execLdc, (rangeOk_iff vd.toNat (s.cfg.mcap + 1)).mpr ⟨by omega, hr⟩, hd]

end

/-- Settles O55: the payload decodes as a whole or not at all, and only then are registers written. -/
theorem ldcLoadsAllOrNothing : Obligations.LdcLoadsAllOrNothing := by
  refine fun vd payload s => ⟨rfl, fun hr => ?_, fun hr h => ?_, fun hr h => ?_⟩
  · exact ⟨_, exec_ldc_of_badRange hr payload, raise_onlyEnded _ (by decide) s⟩
  · exact ⟨_, exec_ldc_of_canonical hr h, complete_vrWrite _ _ _ s⟩
  · exact ⟨_, exec_ldc_of_nonCanonical hr h, raise_onlyEnded _ (by decide) s⟩

/-! ### `STC` (R207) -/

theorem exec_stc_of_badRange {vs : Byte} {s : State} (h : 32 < vs.toNat + s.cfg.mcap + 1) :
    exec (.stc vs) s = .next (raise (.stc vs) .badOperand s) := by
  simp [exec, execStc, (rangeOk_eq_false vs.toNat (s.cfg.mcap + 1)).mpr (.inr h)]

theorem exec_stc_of_range {vs : Byte} {s : State} (h : vs.toNat + s.cfg.mcap + 1 ≤ 32) :
    exec (.stc vs) s =
      .next (completeWith (.stc vs) 0 ((s.vrRange vs.toNat (s.cfg.mcap + 1)).flatMap enc32) s) := by
  simp [exec, execStc, (rangeOk_iff vs.toNat (s.cfg.mcap + 1)).mpr ⟨by omega, h⟩]

theorem vrRange_getElem? (s : State) (b : Nat) {n k : Nat} (h : k < n) : (s.vrRange b n)[k]? = some (s.vrAt (b + k)) := by
  simp [State.vrRange, h]

/-- Chunk `i` of the payload of an `STC` (R207). -/
theorem chunk_vrRange_enc32 (s : State) (b : Nat) {n i : Nat} (h : i < n) :
    (((s.vrRange b n).flatMap enc32).drop (32 * i)).take 32 = enc32 (s.vrAt (b + i)) :=
  chunk_flatMap_enc32 (vrRange_getElem? s b h)

/-- An `LDC` whose chunks are the encodings of canonical elements loads these elements. -/
theorem exec_ldc_of_encodings {vd : Byte} {payload : List Byte} {s : State} {x : Nat → Nat}
    (hr : vd.toNat + s.cfg.mcap + 1 ≤ 32) (hx : ∀ i, x i < s.cfg.p)
    (hc : ∀ i, i ≤ s.cfg.mcap → (payload.drop (32 * i)).take 32 = enc32 (x i)) :
    ∃ u, exec (.ldc vd payload) s = .next u ∧ Ended .ok (.ldc vd payload) 0 [] s u ∧
      VrBecomes s u vd.toNat ((List.range (s.cfg.mcap + 1)).map x) := by
  have hle : ∀ i, i ≤ s.cfg.mcap → leNat ((payload.drop (32 * i)).take 32) = x i := fun i hi => by
    rw [hc i hi, leNat_enc32 s.cfg (hx i)]
  have hes : ((List.range (s.cfg.mcap + 1)).map fun i => leNat ((payload.drop (32 * i)).take 32)) =
      (List.range (s.cfg.mcap + 1)).map x :=
    List.map_congr_left fun i hi => hle i (Nat.le_of_lt_succ (List.mem_range.mp hi))
  have hload := exec_ldc_of_canonical hr fun i hi => (hle i hi).trans_lt (hx i)
  obtain ⟨hended, hregs, -⟩ :=
    complete_vrWrite (.ldc vd payload) vd.toNat ((List.range (s.cfg.mcap + 1)).map x) s
  exact ⟨_, hes ▸ hload, hended, hregs⟩

/-- Settles O56: the payload chunk by chunk, and the `LDC` of it. -/
theorem stcReturnsCipherValue : Obligations.StcReturnsCipherValue := by
  refine fun vs s => ⟨rfl, fun hr => ?_, fun hr => ?_⟩
  · exact ⟨_, exec_stc_of_badRange hr, raise_onlyEnded _ (by decide) s⟩
  · have hchunk := fun i (hi : i ≤ s.cfg.mcap) => chunk_vrRange_enc32 s vs.toNat (Nat.lt_succ_of_le hi)
    exact ⟨_, _, exec_stc_of_range hr, completeWith_ended _ _ _ rfl rfl rfl rfl rfl,
      by rw [flatMap_enc32_length, vrRange_length],
      hchunk, epilogue_spongeKept _ _ _ _ _ (SpongeKept.rfl' s), paramsKept_of rfl rfl, rfl, rfl, rfl,
      fun hvr vd hd => exec_ldc_of_encodings hd (fun i => vrAt_lt s.cfg.p_pos hvr (vs.toNat + i)) hchunk⟩

end Sys2Proof.Machine

/-! The cipher family, part 2: `ENC` and `DEC`, their checks and values (R201 to R205), and the round trip (R205). -/

namespace Sys2Proof.Machine

/-! ### The cipher value (R202, R203) -/

/-- The message-derived elements of a cipher value, `a` the state after the first permutation (R202); a short message counts
as zero-extended. -/
def cipherSums (c : Config) (a : PermState) (msg : List Nat) : List Nat :=
  (List.range c.mcap).map fun i => fadd c.p (slotAfter a i) (msg.getD i 0)

/-- The authentication element over the message-derived elements `xs`: both procedures put them into the state `a` and
permute (R202, R203). -/
def authElement (c : Config) (a : PermState) (xs : List Nat) : Nat := (permutation c (overwriteFrom1 a xs))[1]

/-- The cipher value of a message (R200, R202). -/
def cipherValue (c : Config) (a : PermState) (msg : List Nat) : List Nat :=
  cipherSums c a msg ++ [authElement c a (cipherSums c a msg)]

@[simp] theorem cipherSums_length (c : Config) (a : PermState) (msg : List Nat) :
    (cipherSums c a msg).length = c.mcap := by simp [cipherSums]

@[simp] theorem cipherValue_length (c : Config) (a : PermState) (msg : List Nat) :
    (cipherValue c a msg).length = c.mcap + 1 := by simp [cipherValue]

theorem cipherSums_getD {c : Config} {i : Nat} (h : i < c.mcap) (a : PermState) (msg : List Nat) :
    (cipherSums c a msg).getD i 0 = fadd c.p (slotAfter a i) (msg.getD i 0) := by
  simp [cipherSums, List.getD, h]

theorem cipherValue_take (c : Config) (a : PermState) (msg : List Nat) :
    (cipherValue c a msg).take c.mcap = cipherSums c a msg :=
  List.take_left' (cipherSums_length c a msg)

theorem cipherValue_getD_mcap (c : Config) (a : PermState) (msg : List Nat) :
    (cipherValue c a msg).getD c.mcap 0 = authElement c a (cipherSums c a msg) := by
  simp [cipherValue, List.getD]

theorem encryptCore_eq_cipherValue (sx sy nc : Nat) (msg : List Nat) (s : State) :
    (encryptCore sx sy nc msg s).2 = cipherValue s.cfg (permutation s.cfg (cipherSeed s.cfg sx sy nc)) msg :=
  encryptCore_value sx sy nc msg s

/-! ### The state between the two permutations -/

theorem overwriteFrom1_getElem (st : PermState) (xs : List Nat) (k : Fin 5) :
    (overwriteFrom1 st xs)[k] = if 1 ≤ k.val ∧ k.val ≤ xs.length then xs.getD (k.val - 1) 0 else st[k] := by
  have e : (overwriteFrom1 st xs)[k] = if k.val = 0 then st[k] else (xs[k.val - 1]?).getD st[k] := by
    simp [overwriteFrom1]
  rw [e]
  by_cases h0 : k.val = 0
  · rw [if_pos h0, if_neg (by omega)]
  · rw [if_neg h0]
    by_cases hk : k.val ≤ xs.length
    · have hlt : k.val - 1 < xs.length := by omega
      rw [if_pos ⟨by omega, hk⟩, List.getD_eq_getElem _ _ hlt, List.getElem?_eq_getElem hlt, Option.getD_some]
    · rw [if_neg (by omega), List.getElem?_eq_none (by omega), Option.getD_none]

/-- What was put into the state from `ST[1]` on stands there. -/
theorem overwriteFrom1_slots {st : PermState} {xs : List Nat} (h : xs.length ≤ 4) :
    ((overwriteFrom1 st xs).toList.drop 1).take xs.length = xs := by
  apply List.ext_getElem
  · simpa using h
  · intro i _ hi
    have hslot := overwriteFrom1_getElem st xs ⟨i + 1, by omega⟩
    rw [if_pos ⟨by simp, by simp; omega⟩] at hslot
    simpa [List.getD, hi, Nat.add_comm] using hslot

theorem slotAfter_eq (a : PermState) {k : Fin 5} (h : 1 ≤ k.val) : slotAfter a (k.val - 1) = a[k] := by
  simp [slotAfter, Nat.sub_add_cancel h]

/-! ### The registers of a cipher command (R204, R205) -/

/-- The state after the first permutation, for the key and the nonce in the registers from `vs` on (R201 to R203). -/
def keyedState (s : State) (vs : Nat) : PermState :=
  permutation s.cfg (cipherSeed s.cfg (s.vrAt vs) (s.vrAt (vs + 1)) (s.vrAt (vs + 2)))

theorem vrRange_three (s : State) (b : Nat) : s.vrRange b 3 = [s.vrAt b, s.vrAt (b + 1), s.vrAt (b + 2)] := rfl

/-- The secret and the nonce are all that the first permutation reads of the registers. -/
theorem keyedState_congr {s s' : State} {vs vs' : Nat} (hcfg : s'.cfg = s.cfg)
    (h : s'.vrRange vs' 3 = s.vrRange vs 3) : keyedState s' vs' = keyedState s vs := by
  rw [vrRange_three, vrRange_three] at h
  simp only [List.cons.injEq, and_true] at h
  obtain ⟨hx, hy, hn⟩ := h
  rw [keyedState, hcfg, hx, hy, hn, keyedState]

/-- The message that an `ENC` reads: at most `MCAP` of the `mlen` elements offered (R204). -/
def encMessage (s : State) (vs mlen : Nat) : List Nat := s.vrRange (vs + 3) (messageLen s.cfg mlen)

/-- Every element is zero that is not offered (R204). -/
theorem encMessage_getD {s : State} {i : Nat} (hi : i < s.cfg.mcap) (vs mlen : Nat) :
    (encMessage s vs mlen).getD i 0 = if i < mlen then s.vrAt (vs + 3 + i) else 0 := by
  rw [encMessage, messageLen, vrRange_getD]
  exact if_congr (by omega) rfl rfl

theorem vrRange_take (s : State) (b : Nat) {m n : Nat} (h : m ≤ n) : (s.vrRange b n).take m = s.vrRange b m := by
  rw [vrRange_eq_map_range, vrRange_eq_map_range, ← List.map_take, List.take_range, Nat.min_eq_left h]

section
variable {s t : State} {b : Nat} {xs : List Nat} (h : VrBecomes s t b xs) (hb : b + xs.length ≤ 32)
include h hb

theorem VrBecomes.vrAt {k : Nat} (hk : k < xs.length) : t.vrAt (b + k) = xs.getD k 0 := by
  rw [vrAt_eq t (by omega)]
  refine (h ⟨b + k, by omega⟩).trans ?_
  rw [if_pos ⟨Nat.le_add_right b k, Nat.add_lt_add_left hk b⟩, Nat.add_sub_cancel_left]

theorem VrBecomes.vrRange {n : Nat} (hn : n ≤ xs.length) : t.vrRange b n = xs.take n := by
  apply List.ext_getElem
  · simpa using hn
  · intro k hk _
    rw [vrRange_length] at hk
    have hx := h.vrAt hb (hk.trans_le hn)
    simpa [State.vrRange, List.getD, hk.trans_le hn] using hx

end

theorem ranges_bad_iff (b n b' n' : Nat) :
    (rangeOk b n && rangeOk b' n') = false ↔ 32 ≤ b ∨ 32 < b + n ∨ 32 ≤ b' ∨ 32 < b' + n' := by
  rw [Bool.and_eq_false_iff, rangeOk_eq_false, rangeOk_eq_false, or_assoc]

theorem ranges_ok {b n b' n' : Nat} (hb : b < 32) (hn : b + n ≤ 32) (hb' : b' < 32) (hn' : b' + n' ≤ 32) :
    (rangeOk b n && rangeOk b' n') = true := by
  rw [(rangeOk_iff b n).mpr ⟨hb, hn⟩, (rangeOk_iff b' n').mpr ⟨hb', hn'⟩]
  rfl

/-! ### The end of a cipher command -/

/-- What a cipher run leaves besides the registers and the epilogue, whichever way it ends: two permutations counted, the
context zeroised, `PAT` as before (R204, R205). -/
def CipherRun (s t : State) : Prop := t.pcnt = s.pcnt + 2 ∧ SpongeCleared t ∧ ParamsKept s t ∧ t.pat = s.pat

theorem SpongeCleared.vrWrite {t : State} (h : SpongeCleared t) (b : Nat) (xs : List Nat) :
    SpongeCleared (t.vrWrite b xs) := by
  obtain ⟨hst, hapat, hmode, hdom, hioc, hapos, hspos, hout⟩ := h
  constructor <;> simpa

/-- A cipher run that writes `xs` from the register `b` on and ends well. -/
theorem complete_cipherRun (i : Instr) (b : Nat) (xs : List Nat) (s : State) :
    Ended .ok i 0 [] s (complete i ((spongeKill { s with pcnt := s.pcnt + 2 }).vrWrite b xs)) ∧
      VrBecomes s (complete i ((spongeKill { s with pcnt := s.pcnt + 2 }).vrWrite b xs)) b xs ∧
      CipherRun s (complete i ((spongeKill { s with pcnt := s.pcnt + 2 }).vrWrite b xs)) := by
  refine ⟨complete_ended i ?_ ?_ ?_ ?_ ?_, vrBecomes_of ?_, ?_, epilogue_cleared _ _ _ _ _
    ((spongeKill_cleared _).vrWrite b xs), paramsKept_of ?_ ?_, ?_⟩
  all_goals simp [complete]

/-- A cipher run that ends with `DecryptionFailed`. -/
theorem raise_cipherRun (i : Instr) (s : State) :
    Ended .decryptionFailed i 0 [] s (raise i .decryptionFailed (spongeKill { s with pcnt := s.pcnt + 2 })) ∧
      (raise i .decryptionFailed (spongeKill { s with pcnt := s.pcnt + 2 })).vr = s.vr ∧
      CipherRun s (raise i .decryptionFailed (spongeKill { s with pcnt := s.pcnt + 2 })) :=
  ⟨raise_ended i (by decide) rfl rfl rfl rfl rfl, rfl, rfl, epilogue_cleared _ _ _ _ _ (spongeKill_cleared _),
    paramsKept_of rfl rfl, rfl⟩

/-! ### `ENC` (R204) -/

theorem exec_enc_of_active {s : State} (hm : s.mode = .active) (vs mlen vd : Byte) :
    exec (.enc vs mlen vd) s = .next (raise (.enc vs mlen vd) .badState s) := by
  simp [exec, execEnc, hm]

section
variable {s : State} {vs mlen vd : Byte} (hm : s.mode = .idle)
include hm

theorem exec_enc_of_badRanges
    (h : (rangeOk vs.toNat (3 + min mlen.toNat s.cfg.mcap) && rangeOk vd.toNat (s.cfg.mcap + 1)) = false) :
    exec (.enc vs mlen vd) s = .next (raise (.enc vs mlen vd) .badOperand s) := by
  rw [exec, execEnc, if_neg (not_not.mpr hm)]
  exact congrArg Host.Outcome.next (if_pos h)

theorem exec_enc_of_ranges (hs : vs.toNat + 3 + min mlen.toNat s.cfg.mcap ≤ 32) (hd : vd.toNat + s.cfg.mcap + 1 ≤ 32) :
    exec (.enc vs mlen vd) s = .next (complete (.enc vs mlen vd) ((spongeKill { s with pcnt := s.pcnt + 2 }).vrWrite
      vd.toNat (cipherValue s.cfg (keyedState s vs.toNat) (encMessage s vs.toNat mlen.toNat)))) := by
  have h : (rangeOk vs.toNat (3 + min mlen.toNat s.cfg.mcap) && rangeOk vd.toNat (s.cfg.mcap + 1)) = true :=
    ranges_ok (by omega) (by omega) (by omega) hd
  rw [keyedState, ← encryptCore_eq_cipherValue, ← encryptCore_state, exec, execEnc, if_neg (not_not.mpr hm)]
  exact congrArg Host.Outcome.next (if_neg (by rw [messageLen, h]; decide))

end

/-- Slot `k` of the state that the second permutation of an `ENC` starts from (R202). -/
theorem overwriteFrom1_cipherSums_getElem (s : State) (vs mlen : Nat) (a : PermState) (k : Fin 5) :
    (overwriteFrom1 a (cipherSums s.cfg a (encMessage s vs mlen)))[k] =
      if 1 ≤ k.val ∧ k.val ≤ s.cfg.mcap then
        (a[k] + if k.val ≤ mlen then s.vr[vs + 2 + k.val]?.getD 0 else 0) % s.cfg.p else a[k] := by
  rw [overwriteFrom1_getElem, cipherSums_length]
  split
  · next hk =>
    have hreg : vs + 3 + (k.val - 1) = vs + 2 + k.val := by omega
    rw [cipherSums_getD (by omega), encMessage_getD (by omega), slotAfter_eq a hk.1, hreg]
    exact congrArg (fun x => (a[k] + x) % s.cfg.p) (if_congr (by omega) rfl rfl)
  · rfl

/-- Settles O52: the cipher value is read off the state between the permutations, and the run ends as every cipher run. -/
theorem encProducesCipherValue : Obligations.EncProducesCipherValue := by
  refine fun vs mlen vd s => ⟨rfl, fun hm => ?_, fun hm h => ?_, fun hm hs hd => ?_⟩
  · exact ⟨_, exec_enc_of_active hm vs mlen vd, raise_onlyEnded _ (by decide) s⟩
  · have hbad := (ranges_bad_iff vs.toNat (3 + min mlen.toNat s.cfg.mcap) vd.toNat (s.cfg.mcap + 1)).mpr (by omega)
    exact ⟨_, exec_enc_of_badRanges hm hbad, raise_onlyEnded _ (by decide) s⟩
  · have hslots := overwriteFrom1_slots (st := keyedState s vs.toNat) (xs := cipherSums s.cfg (keyedState s vs.toNat)
      (encMessage s vs.toNat mlen.toNat)) (by simpa using s.cfg.mcap_bounds.2)
    obtain ⟨hended, hregs, hrun⟩ := complete_cipherRun (.enc vs mlen vd) vd.toNat (cipherValue s.cfg
      (keyedState s vs.toNat) (encMessage s vs.toNat mlen.toNat)) s
    rw [cipherSums_length] at hslots
    refine ⟨_, keyedState s vs.toNat, _, exec_enc_of_ranges hm hs hd, hended, rfl,
      overwriteFrom1_cipherSums_getElem s vs.toNat mlen.toNat _, ?_, hrun⟩
    rwa [hslots]

/-! ### `DEC` (R205) -/

theorem exec_dec_of_active {s : State} (hm : s.mode = .active) (vs vd : Byte) :
    exec (.dec vs vd) s = .next (raise (.dec vs vd) .badState s) := by
  simp [exec, execDec, hm]

theorem exec_dec_of_badRanges {s : State} {vs vd : Byte} (hm : s.mode = .idle)
    (h : (rangeOk vs.toNat (3 + s.cfg.mcap + 1) && rangeOk vd.toNat s.cfg.mcap) = false) :
    exec (.dec vs vd) s = .next (raise (.dec vs vd) .badOperand s) := by
  rw [exec, execDec, if_neg (not_not.mpr hm), if_pos h]

/-- The authentication of a `DEC` whose operands stand from the register `vs` on (R203, R205). -/
abbrev Authentic (s : State) (vs : Nat) : Prop :=
  authElement s.cfg (keyedState s vs) (s.vrRange (vs + 3) s.cfg.mcap) = s.vrAt (vs + 3 + s.cfg.mcap)

/-- The message of a `DEC` whose operands stand from the register `vs` on, should it be authentic (R203, R205). -/
def decMessage (s : State) (vs : Nat) : List Nat :=
  (List.range s.cfg.mcap).map fun i => fsub s.cfg.p (s.vrAt (vs + 3 + i)) (slotAfter (keyedState s vs) i)

/-- The decryption that a `DEC` runs on its registers (R205). -/
theorem decryptCore_registers (s : State) (vs : Nat) :
    (decryptCore (s.vrAt vs) (s.vrAt (vs + 1)) (s.vrAt (vs + 2)) (s.vrRange (vs + 3) (s.cfg.mcap + 1)) s).2 =
      if Authentic s vs then some (decMessage s vs) else none := by
  have hmsg : decMessage s vs = (List.range s.cfg.mcap).map fun i =>
      fsub s.cfg.p ((s.vrRange (vs + 3) (s.cfg.mcap + 1)).getD i 0) (slotAfter (keyedState s vs) i) :=
    List.map_congr_left fun i hi => by
      rw [vrRange_getD, if_pos (Nat.lt_succ_of_lt (List.mem_range.mp hi))]
  rw [decryptCore_value, vrRange_take s _ (Nat.le_succ _), hmsg, vrRange_getD, if_pos (Nat.lt_succ_self _)]
  exact if_congr decide_eq_true_iff rfl rfl

section
variable {s : State} {vs vd : Byte} (hm : s.mode = .idle)
  (hok : (rangeOk vs.toNat (3 + s.cfg.mcap + 1) && rangeOk vd.toNat s.cfg.mcap) = true)
include hm hok

theorem exec_dec_of_authentic (h : Authentic s vs.toNat) : exec (.dec vs vd) s = .next (complete (.dec vs vd)
    ((spongeKill { s with pcnt := s.pcnt + 2 }).vrWrite vd.toNat (decMessage s vs.toNat))) := by
  have hd := (decryptCore_registers s vs.toNat).trans (if_pos h)
  simp [exec, execDec, hm, hok, hd, decryptCore_state]

theorem exec_dec_of_not_authentic (h : ¬ Authentic s vs.toNat) : exec (.dec vs vd) s =
    .next (raise (.dec vs vd) .decryptionFailed (spongeKill { s with pcnt := s.pcnt + 2 })) := by
  have hd := (decryptCore_registers s vs.toNat).trans (if_neg h)
  simp [exec, execDec, hm, hok, hd, decryptCore_state]

end

/-- With legal ranges `DEC` runs to its end, and the authentication decides how (R205). -/
theorem exec_dec_of_ranges {s : State} {vs vd : Byte} (hm : s.mode = .idle) (hs : vs.toNat + 3 + s.cfg.mcap + 1 ≤ 32)
    (hd : vd.toNat < 32) (hr : vd.toNat + s.cfg.mcap ≤ 32) :
    ∃ t, exec (.dec vs vd) s = .next t ∧
      (Authentic s vs.toNat → Ended .ok (.dec vs vd) 0 [] s t ∧ VrBecomes s t vd.toNat (decMessage s vs.toNat)) ∧
      (¬ Authentic s vs.toNat → Ended .decryptionFailed (.dec vs vd) 0 [] s t ∧ t.vr = s.vr) ∧ CipherRun s t := by
  have hok : (rangeOk vs.toNat (3 + s.cfg.mcap + 1) && rangeOk vd.toNat s.cfg.mcap) = true :=
    ranges_ok (by omega) (by omega) hd hr
  by_cases h : Authentic s vs.toNat
  · obtain ⟨hended, hregs, hrun⟩ := complete_cipherRun (.dec vs vd) vd.toNat (decMessage s vs.toNat) s
    exact ⟨_, exec_dec_of_authentic hm hok h, fun _ => ⟨hended, hregs⟩, fun hn => absurd h hn, hrun⟩
  · obtain ⟨hended, hvr, hrun⟩ := raise_cipherRun (.dec vs vd) s
    exact ⟨_, exec_dec_of_not_authentic hm hok h, fun ha => absurd ha h, fun _ => ⟨hended, hvr⟩, hrun⟩

/-- Slot `k` of the state that the second permutation of a `DEC` starts from (R203). -/
theorem overwriteFrom1_vrRange_getElem (s : State) (b n : Nat) (a : PermState) (k : Fin 5) :
    (overwriteFrom1 a (s.vrRange (b + 3) n))[k] =
      if 1 ≤ k.val ∧ k.val ≤ n then s.vr[b + 2 + k.val]?.getD 0 else a[k] := by
  rw [overwriteFrom1_getElem, vrRange_length]
  split
  · next hk =>
    have hreg : b + 3 + (k.val - 1) = b + 2 + k.val := by omega
    rw [vrRange_getD, if_pos (by omega), hreg]
    rfl
  · rfl

/-- Settles O53: both outcomes of the authentication, and the run ends as every cipher run. -/
theorem decRecoversOrFails : Obligations.DecRecoversOrFails := by
  refine fun vs vd s => ⟨rfl, fun hm => ?_, fun hm h => ?_, fun hm hs hd hr => ?_⟩
  · exact ⟨_, exec_dec_of_active hm vs vd, raise_onlyEnded _ (by decide) s⟩
  · have hbad := (ranges_bad_iff vs.toNat (3 + s.cfg.mcap + 1) vd.toNat s.cfg.mcap).mpr (by omega)
    exact ⟨_, exec_dec_of_badRanges hm hbad, raise_onlyEnded _ (by decide) s⟩
  · obtain ⟨t, hexec, hok, hfail, hrun⟩ := exec_dec_of_ranges hm hs hd hr
    exact ⟨t, keyedState s vs.toNat, _, hexec, rfl, overwriteFrom1_vrRange_getElem s vs.toNat s.cfg.mcap _, hok, hfail,
      hrun⟩

/-! ### The round trip (R205) -/

/-- What decides the authentication of a cipher value that an `ENC` made of the message `msg` and of any last element: that
element alone, since the second permutation starts from the same state as it did there. -/
theorem authentic_iff_of_cipherSums {s : State} {vs : Nat} {msg : List Nat}
    (h : s.vrRange (vs + 3) s.cfg.mcap = cipherSums s.cfg (keyedState s vs) msg) :
    Authentic s vs ↔ s.vrAt (vs + 3 + s.cfg.mcap) =
      authElement s.cfg (keyedState s vs) (cipherSums s.cfg (keyedState s vs) msg) := by
  rw [Authentic, h, eq_comm]

/-- Over the same state, what `ENC` added `DEC` takes off. -/
theorem decMessage_of_cipherSums {s : State} {vs : Nat} {msg : List Nat} {x : Nat → Nat}
    (h : s.vrRange (vs + 3) s.cfg.mcap = cipherSums s.cfg (keyedState s vs) msg)
    (hx : ∀ i, i < s.cfg.mcap → msg.getD i 0 = x i) (hlt : ∀ i, x i < s.cfg.p) :
    decMessage s vs = (List.range s.cfg.mcap).map x := by
  refine List.map_congr_left fun i hi => ?_
  have hi := List.mem_range.mp hi
  have hsum := congrArg (·.getD i 0) h
  simp only [vrRange_getD, if_pos hi, cipherSums_getD hi, hx i hi] at hsum
  rw [hsum, fsub_fadd_cancel s.cfg _ _ (hlt i)]

/-- The registers that an `ENC` wrote (R204): the message-derived elements and the authentication element. -/
theorem exec_enc_registers {s t : State} {vs mlen vd : Byte} (hm : s.mode = .idle)
    (hs : vs.toNat + 3 + min mlen.toNat s.cfg.mcap ≤ 32) (hd : vd.toNat + s.cfg.mcap + 1 ≤ 32)
    (hexec : exec (.enc vs mlen vd) s = .next t) :
    t.vrRange vd.toNat s.cfg.mcap =
        cipherSums s.cfg (keyedState s vs.toNat) (encMessage s vs.toNat mlen.toNat) ∧
      t.vrAt (vd.toNat + s.cfg.mcap) = authElement s.cfg (keyedState s vs.toNat)
        (cipherSums s.cfg (keyedState s vs.toNat) (encMessage s vs.toNat mlen.toNat)) := by
  obtain rfl := Host.Outcome.next.inj ((exec_enc_of_ranges hm hs hd).symm.trans hexec)
  obtain ⟨-, hregs, -⟩ := complete_cipherRun (.enc vs mlen vd) vd.toNat
    (cipherValue s.cfg (keyedState s vs.toNat) (encMessage s vs.toNat mlen.toNat)) s
  have hlen := cipherValue_length s.cfg (keyedState s vs.toNat) (encMessage s vs.toNat mlen.toNat)
  rw [hregs.vrRange (by omega) (by omega), hregs.vrAt (by omega) (by omega), cipherValue_take, cipherValue_getD_mcap]
  exact ⟨rfl, rfl⟩

/-- Settles O54: the later state holds the sums of the `ENC` under the same key, so its last element decides the
authentication and the message comes back. -/
theorem cipherRoundTrip : Obligations.CipherRoundTrip := by
  intro vs mlen vd vs' vd' s t s' hinv hm hs hd hexec hm' hcfg hs' hd' hr' hkey hcipher
  obtain ⟨hsums, htag⟩ := exec_enc_registers hm hs hd hexec
  have hkeyed := keyedState_congr hcfg hkey
  rw [hsums, ← hkeyed, ← hcfg] at hcipher
  rw [← hkeyed, ← hcfg] at htag
  have hauth := authentic_iff_of_cipherSums hcipher
  have hlt : ∀ i, (if i < mlen.toNat then s.vrAt (vs.toNat + 3 + i) else 0) < s'.cfg.p := fun i => by
    rw [hcfg]
    split
    · exact vrAt_lt s.cfg.p_pos hinv.vr_canonical _
    · exact s.cfg.p_pos
  have hmessage := decMessage_of_cipherSums hcipher (fun i hi => encMessage_getD (hcfg ▸ hi) vs.toNat mlen.toNat) hlt
  rw [← hcfg] at hs' hr' ⊢
  obtain ⟨u, hdec, hok, hfail, -⟩ := exec_dec_of_ranges hm' hs' hd' hr'
  rw [htag, ← hmessage]
  exact ⟨fun h => ⟨u, hdec, hok (hauth.mpr h)⟩, fun h => ⟨u, hdec, hfail (mt hauth.mp h)⟩⟩

end Sys2Proof.Machine

/-! The transfer and status family (spec/44_transfer_system.md): `NOP` (R220), one element between the host and a register
(R221 to R223), the permutation state and five registers (R224, R225), and the status commands (R226, R227). -/

namespace Sys2Proof.Machine

/-! ### A command whose body writes nothing -/

/-- A command that only answers: its epilogue over the state before it, whatever the response. -/
theorem completeWith_kept (i : Instr) (cnt : Byte) (payload : List Byte) (s : State) :
    Ended .ok i cnt payload s (completeWith i cnt payload s) ∧ SpongeKept s (completeWith i cnt payload s) ∧
      ParamsKept s (completeWith i cnt payload s) ∧ (completeWith i cnt payload s).vr = s.vr ∧
      (completeWith i cnt payload s).pat = s.pat ∧ (completeWith i cnt payload s).pcnt = s.pcnt :=
  ⟨completeWith_ended i cnt payload rfl rfl rfl rfl rfl, epilogue_spongeKept _ _ _ _ _ (SpongeKept.rfl' s),
    paramsKept_of rfl rfl, rfl, rfl, rfl⟩

/-! ### `NOP` (R220) -/

theorem exec_nop (s : State) : exec .nop s = .next (complete .nop s) := rfl

/-- Settles O24: `NOP` is its epilogue. -/
theorem nopOnlyEnds : Obligations.NopOnlyEnds :=
  ⟨rfl, fun s => ⟨_, exec_nop s, completeWith_kept .nop 0 [] s⟩⟩

/-! ### `LDI` (R221) -/

/-- The encoder cuts the immediate by bit positions, R92 puts it together by value. -/
theorem encode_ldi (vd : Byte) (imm : Half) :
    encode (.ldi vd imm) = [0x01, vd, BitVec.ofNat 8 imm.toNat, BitVec.ofNat 8 (imm.toNat / 256)] := by
  rw [encode, BitVec.extractLsb', BitVec.extractLsb', Nat.shiftRight_zero, Nat.shiftRight_eq_div_pow]

theorem exec_ldi_of_badRegister {vd : Byte} (h : 32 ≤ vd.toNat) (imm : Half) (s : State) :
    exec (.ldi vd imm) s = .next (raise (.ldi vd imm) .badOperand s) := by
  simp [exec, execLdi, (regOk_eq_false _).mpr h]

theorem exec_ldi_of_register {vd : Byte} (h : vd.toNat < 32) (imm : Half) (s : State) :
    exec (.ldi vd imm) s = .next (complete (.ldi vd imm) (s.vrSet vd.toNat (imm.toNat % s.cfg.p))) := by
  simp [exec, execLdi, (regOk_iff _).mpr h, fe]

/-- Settles O25: one register is written, or none. -/
theorem ldiLoadsImmediate : Obligations.LdiLoadsImmediate := by
  refine fun vd imm s => ⟨encode_ldi vd imm, fun h => ?_, fun h => ?_⟩
  · exact ⟨_, exec_ldi_of_register h imm s, complete_vrSet _ _ _ s⟩
  · exact ⟨_, exec_ldi_of_badRegister h imm s, raise_onlyEnded _ (by decide) s⟩

/-! ### `LDE` (R222) -/

theorem exec_lde_of_badRegister {vd : Byte} (h : 32 ≤ vd.toNat) (payload : List Byte) (s : State) :
    exec (.lde vd payload) s = .next (raise (.lde vd payload) .badOperand s) := by
  simp [exec, execLde, (regOk_eq_false _).mpr h]

section
variable {vd : Byte} {payload : List Byte} {s : State} (h : vd.toNat < 32)
include h

theorem exec_lde_of_canonical (hp : leNat payload < s.cfg.p) :
    exec (.lde vd payload) s = .next (complete (.lde vd payload) (s.vrSet vd.toNat (leNat payload))) := by
  simp [exec, execLde, (regOk_iff _).mpr h, dec32_eq_some.mpr ⟨rfl, hp⟩]

theorem exec_lde_of_nonCanonical (hp : s.cfg.p ≤ leNat payload) :
    exec (.lde vd payload) s = .next (raise (.lde vd payload) .nonCanonicalElement s) := by
  simp [exec, execLde, (regOk_iff _).mpr h, dec32_eq_none.mpr hp]

/-- An `LDE` of the encoding of a canonical element loads that element. -/
theorem exec_lde_enc32 {v : Nat} (hv : v < s.cfg.p) :
    exec (.lde vd (enc32 v)) s = .next (complete (.lde vd (enc32 v)) (s.vrSet vd.toNat v)) := by
  have hle : leNat (enc32 v) = v := leNat_enc32 s.cfg hv
  rw [exec_lde_of_canonical h (hle.trans_lt hv), hle]

end

/-- Settles O26: the register is checked first, then the payload, and only then is the register written. -/
theorem ldeLoadsElement : Obligations.LdeLoadsElement := by
  refine fun vd payload s => ⟨rfl, fun h hp => ?_, fun h hp => ?_, fun h => ?_⟩
  · exact ⟨_, exec_lde_of_canonical h hp, complete_vrSet _ _ _ s⟩
  · exact ⟨_, exec_lde_of_nonCanonical h hp, raise_onlyEnded _ (by decide) s⟩
  · exact ⟨_, exec_lde_of_badRegister h payload s, raise_onlyEnded _ (by decide) s⟩

/-! ### `STE` (R223) -/

theorem exec_ste_of_badRegister {vs : Byte} (h : 32 ≤ vs.toNat) (s : State) :
    exec (.ste vs) s = .next (raise (.ste vs) .badOperand s) := by
  simp [exec, execSte, (regOk_eq_false _).mpr h]

theorem exec_ste_of_register {vs : Byte} (h : vs.toNat < 32) (s : State) :
    exec (.ste vs) s = .next (completeWith (.ste vs) 0 (enc32 s.vr[vs.toNat]) s) := by
  simp [exec, execSte, (regOk_iff _).mpr h, vrAt_eq s h]

/-- Settles O27: the response carries the encoding, and the `LDE` of it, run in the state `STE` leaves, inverts it. -/
theorem steReturnsElement : Obligations.SteReturnsElement := by
  refine fun vs s => ⟨rfl, fun h => ?_, fun h => ?_⟩
  · obtain ⟨hended, hsponge, hparams, hvr, hpat, hpcnt⟩ := completeWith_kept (.ste vs) 0 (enc32 s.vr[vs.toNat]) s
    refine ⟨_, exec_ste_of_register h s, hended, enc32_length _, hsponge, hparams, hvr, hpat, hpcnt, fun hv vd hd => ?_⟩
    obtain ⟨hreload, hreg, -⟩ := complete_vrSet (.lde vd (enc32 s.vr[vs.toNat])) vd.toNat s.vr[vs.toNat]
      (completeWith (.ste vs) 0 (enc32 s.vr[vs.toNat]) s)
    exact ⟨_, exec_lde_enc32 hd hv, hreload, hreg⟩
  · exact ⟨_, exec_ste_of_badRegister h s, raise_onlyEnded _ (by decide) s⟩

/-! ### `LDST` and `STST` (R224, R225) -/

/-- Five registers from `b` on do not fit exactly when `b` is above 27. -/
theorem rangeOk_five_eq_false {b : Nat} (h : 27 < b) : rangeOk b 5 = false := (rangeOk_eq_false b 5).mpr (by omega)

theorem rangeOk_five {b : Nat} (h : b ≤ 27) : rangeOk b 5 = true := (rangeOk_iff b 5).mpr (by omega)

theorem exec_ldst_of_active {s : State} (hm : s.mode = .active) (vs : Byte) :
    exec (.ldst vs) s = .next (raise (.ldst vs) .badState s) := by
  simp [exec, execLdst, hm]

theorem exec_ldst_of_badRange {s : State} {vs : Byte} (hm : s.mode = .idle) (h : 27 < vs.toNat) :
    exec (.ldst vs) s = .next (raise (.ldst vs) .badOperand s) := by
  simp [exec, execLdst, hm, rangeOk_five_eq_false h]

theorem exec_ldst_of_range {s : State} {vs : Byte} (hm : s.mode = .idle) (h : vs.toNat ≤ 27) :
    exec (.ldst vs) s =
      .next (complete (.ldst vs) { s with st := Vector.ofFn fun k : Fin 5 => s.vrAt (vs.toNat + k.val) }) := by
  simp [exec, execLdst, hm, rangeOk_five h]

/-- A command that writes `ST` and nothing else, and its epilogue. -/
theorem complete_setSt (i : Instr) (s : State) (st : PermState) :
    Ended .ok i 0 [] s (complete i { s with st := st }) ∧ (complete i { s with st := st }).st = st ∧
      SpongeKept s { complete i { s with st := st } with st := s.st } ∧ ParamsKept s (complete i { s with st := st }) ∧
      (complete i { s with st := st }).vr = s.vr ∧ (complete i { s with st := st }).pat = s.pat ∧
      (complete i { s with st := st }).pcnt = s.pcnt :=
  ⟨complete_ended i rfl rfl rfl rfl rfl, rfl, ⟨rfl, rfl, rfl, rfl, rfl, rfl, rfl, rfl⟩, paramsKept_of rfl rfl, rfl, rfl,
    rfl⟩

/-- Settles O28: the mode is checked first, then the range; `ST` alone is written. -/
theorem ldstLoadsState : Obligations.LdstLoadsState := by
  refine fun vs s => ⟨rfl, fun hm => ?_, fun hm h => ?_, fun hm h => ?_⟩
  · exact ⟨_, exec_ldst_of_active hm vs, raise_onlyEnded _ (by decide) s⟩
  · exact ⟨_, exec_ldst_of_badRange hm h, raise_onlyEnded _ (by decide) s⟩
  · obtain ⟨hended, hst, hkept⟩ :=
      complete_setSt (.ldst vs) s (Vector.ofFn fun k : Fin 5 => s.vrAt (vs.toNat + k.val))
    refine ⟨_, exec_ldst_of_range hm h, hended, fun k => ?_, hkept⟩
    rw [hst, ← vrAt_eq s (by omega)]
    simp

theorem exec_stst_of_active {s : State} (hm : s.mode = .active) (vd : Byte) :
    exec (.stst vd) s = .next (raise (.stst vd) .badState s) := by
  simp [exec, execStst, hm]

theorem exec_stst_of_badRange {s : State} {vd : Byte} (hm : s.mode = .idle) (h : 27 < vd.toNat) :
    exec (.stst vd) s = .next (raise (.stst vd) .badOperand s) := by
  simp [exec, execStst, hm, rangeOk_five_eq_false h]

theorem exec_stst_of_range {s : State} {vd : Byte} (hm : s.mode = .idle) (h : vd.toNat ≤ 27) :
    exec (.stst vd) s = .next (complete (.stst vd) (s.vrWrite vd.toNat s.st.toList)) := by
  simp [exec, execStst, hm, rangeOk_five h]

theorem permState_toList (st : PermState) : st.toList = [st[0], st[1], st[2], st[3], st[4]] := by
  obtain ⟨⟨xs⟩, hlen⟩ := st
  match xs, hlen with
  | [_, _, _, _, _], _ => rfl

/-- Settles O29: the mode is checked first, then the range; five registers alone are written. -/
theorem ststStoresState : Obligations.StstStoresState := by
  refine fun vd s => ⟨rfl, fun hm => ?_, fun hm h => ?_, fun hm h => ?_⟩
  · exact ⟨_, exec_stst_of_active hm vd, raise_onlyEnded _ (by decide) s⟩
  · exact ⟨_, exec_stst_of_badRange hm h, raise_onlyEnded _ (by decide) s⟩
  · rw [← permState_toList]
    exact ⟨_, exec_stst_of_range hm h, complete_vrWrite _ _ _ s⟩

/-! ### `RDSR` (R226) -/

/-- The fourteen registers of R32 as numbers, in order. -/
def csrNumbers (s : State) : List Nat :=
  [0x013C0805, 0x00201020 + s.cfg.mcap * 2 ^ 24, if s.mode = .idle then 0 else 1, domainIndex s.dom,
    s.pat.length % 2 ^ 32, s.apat.length % 2 ^ 32, s.ioc % 2 ^ 32, s.apos.val, s.spos.val, s.out.length % 2 ^ 32,
    s.esticky.toNat, s.lastcode.toNat, s.pcnt.toNat, s.cp % 2 ^ 32]

/-- Register 1 holds `MCAP` in its top byte without a carry out. -/
theorem capacityWord_toNat (c : Config) :
    (0x00201020#32 + BitVec.ofNat 32 (c.mcap * 2 ^ 24)).toNat = 0x00201020 + c.mcap * 2 ^ 24 := by
  have := c.mcap_bounds
  rw [BitVec.toNat_add, BitVec.toNat_ofNat, BitVec.toNat_ofNat]
  omega

theorem modeNum_lt (m : Mode) : modeNum m < 2 ^ 32 := by cases m <;> decide

theorem modeNum_eq_ite (m : Mode) : modeNum m = if m = .idle then 0 else 1 := by cases m <;> rfl

theorem domainIndex_lt (d : Domain) : domainIndex d < 2 ^ 32 := by cases d <;> decide

/-- Register by register, `csrValue` is the list, its 32-bit words read as numbers; above 13 there is neither. -/
theorem csrValue_map_toNat (s : State) (n : Nat) : (csrValue s n).map BitVec.toNat = (csrNumbers s)[n]? := by
  have small : ∀ {x : Nat}, x < 2 ^ 32 → some (BitVec.ofNat 32 x).toNat = some x := fun h => by
    rw [BitVec.toNat_ofNat, Nat.mod_eq_of_lt h]
  match n with
  | 1 => exact congrArg some (capacityWord_toNat s.cfg)
  | 2 => exact (small (modeNum_lt s.mode)).trans (congrArg some (modeNum_eq_ite s.mode))
  | 3 => exact small (domainIndex_lt s.dom)
  | 7 => exact small (by omega)
  | 8 => exact small (by omega)
  | 10 => exact congrArg some (BitVec.toNat_setWidth_of_le (by decide))
  | 11 => exact congrArg some (BitVec.toNat_setWidth_of_le (by decide))
  | 0 | 4 | 5 | 6 | 9 | 12 | 13 => rfl
  | n + 14 => rfl

theorem exec_rdsr_of_value {s : State} {csr : Byte} {v : Nat} (h : (csrNumbers s)[csr.toNat]? = some v) :
    exec (.rdsr csr) s = .next (completeWith (.rdsr csr) 0 (leBytes 4 v) s) := by
  rw [← csrValue_map_toNat] at h
  obtain ⟨w, hw, rfl⟩ := Option.map_eq_some_iff.mp h
  simp [exec, execRdsr, hw]

theorem exec_rdsr_of_none {s : State} {csr : Byte} (h : 13 < csr.toNat) :
    exec (.rdsr csr) s = .next (raise (.rdsr csr) .badOperand s) := by
  have hnone : csrValue s csr.toNat = none := by
    rw [← Option.map_eq_none_iff, csrValue_map_toNat]
    exact List.getElem?_eq_none h
  simp [exec, execRdsr, hnone]

/-- Settles O30: the payload is the entry of `csrNumbers` for the number, and nothing but the epilogue is written. -/
theorem rdsrReadsRegister : Obligations.RdsrReadsRegister := by
  refine fun csr s => ⟨fun h => ?_, fun h => ?_⟩
  · obtain ⟨v, hv⟩ : ∃ v, (csrNumbers s)[csr.toNat]? = some v :=
      ⟨_, List.getElem?_eq_getElem (Nat.lt_succ_of_le h)⟩
    obtain ⟨hended, hkept⟩ := completeWith_kept (.rdsr csr) 0 (leBytes 4 v) s
    exact ⟨_, _, exec_rdsr_of_value hv, hended, hv, hkept⟩
  · exact ⟨_, exec_rdsr_of_none h, raise_onlyEnded _ (by decide) s⟩

/-! ### `CLRERR` (R227) -/

theorem exec_clrerr (s : State) : exec .clrerr s = .next (complete .clrerr { s with esticky := 0 }) := rfl

/-- Settles O31: the epilogue runs over a state that differs from the one before in `ESTICKY` alone, and `OK` sets no
bit. -/
theorem clrerrClearsSticky : Obligations.ClrerrClearsSticky := by
  refine ⟨rfl, fun s => ?_⟩
  have hended : Ended .ok .clrerr 0 [] { s with esticky := 0 } (complete .clrerr { s with esticky := 0 }) :=
    complete_ended .clrerr rfl rfl rfl rfl rfl
  obtain ⟨⟨hrsp, hlastcode, hcp, hhalt⟩, -⟩ := hended
  exact ⟨_, exec_clrerr s, ⟨hrsp, hlastcode, hcp, hhalt⟩, rfl, ⟨rfl, rfl, rfl, rfl, rfl, rfl, rfl, rfl⟩,
    paramsKept_of rfl rfl, rfl, rfl, rfl⟩

end Sys2Proof.Machine

/-! The exception family (spec/60_exceptions.md): the code a command ends with (R251), the halting fault (R255), and what an
active sponge hides from the host (R262). -/

namespace Sys2Proof.Machine

/-! ### The code a command ends with (R251) -/

/-- Settles O57: the epilogue of `exec_form` writes its code, one of the command's, into `LASTCODE`. -/
theorem codesPerCommand : Obligations.CodesPerCommand := by
  intro i s t ht
  obtain ⟨t', c, cnt, payload, u, hexec, hform⟩ := exec_form i s
  obtain rfl : t' = t := Host.Outcome.next.inj (hexec.symm.trans ht)
  refine ⟨c, hform.code, ?_⟩
  rw [hform.result, epilogue_lastcode, codeByte]

/-! ### The halting fault (R255) -/

/-- What is fetched is a command whose packet stands at `CP` (R94, R95); `fetch_of_packet` is the converse. -/
theorem packet_of_fetch {s : State} {i : Instr} (h : fetch s = .ok i) :
    i.wellFormed s.cfg.mcap = true ∧ s.cs.window s.cp (i.packetLen s.cfg.mcap) = encode i := by
  have hmcap := s.cfg.mcap_bounds.2
  obtain ⟨hwf, rest, hbytes⟩ := decodeAcceptsOnlyPackets s.cfg.mcap (fetchBytes s) i hmcap h
  refine ⟨hwf, ?_⟩
  calc s.cs.window s.cp (i.packetLen s.cfg.mcap)
    _ = (fetchBytes s).take (i.packetLen s.cfg.mcap) := (Memory.window_take _ _ (packetLen_le i hmcap)).symm
    _ = encode i := by rw [hbytes, ← encode_length hwf, List.take_left]

theorem step_of_noPacket {s : State} {op : Byte} (hh : s.halt = false) (hop : s.cs.read s.cp = some op)
    (hno : ∀ i, fetch s ≠ .ok i) : step s = .next (raiseIllegal op s) := by
  obtain ⟨e, he⟩ : ∃ e, fetch s = .error e := by
    cases hf : fetch s with
    | error e => exact ⟨e, rfl⟩
    | ok i => exact absurd hf (hno i)
  simp [step, hh, hop, he]

theorem raiseIllegal_esticky_getLsbD (op : Byte) (s : State) (b : Nat) :
    (raiseIllegal op s).esticky.getLsbD b = (s.esticky.getLsbD b || decide (b = 8)) :=
  (stickyAfter_getLsbD .illegalCommand s.esticky b).trans (congrArg _ (Bool.and_true _))

/-- Settles O12: nothing is fetched, so the step is `raiseIllegal`, an epilogue over an unchanged state. -/
theorem illegalPacketHalts : Obligations.IllegalPacketHalts := by
  intro s op hh hop hno
  have hfetch : ∀ i, fetch s ≠ .ok i := fun i hi => by
    obtain ⟨hwf, hp⟩ := packet_of_fetch hi
    exact hno i hwf hp
  refine ⟨_, step_of_noPacket hh hop hfetch, rfl, rfl, raiseIllegal_esticky_getLsbD op s, ?_, rfl,
    epilogue_spongeKept _ _ _ _ _ (SpongeKept.rfl' s), paramsKept_of rfl rfl, rfl, rfl, rfl⟩
  simp [raiseIllegal]

/-! ### States that differ in what an active sponge hides (R23, R262) -/

/-- Other contents of `ST` and `OUT` under the same state. -/
def State.withHidden (s : State) (st : PermState) (out : List Nat) : State := { s with st := st, out := out }

@[simp] theorem withHidden_cfg (s : State) (st : PermState) (out : List Nat) : (s.withHidden st out).cfg = s.cfg := rfl
@[simp] theorem withHidden_out (s : State) (st : PermState) (out : List Nat) : (s.withHidden st out).out = out := rfl

/-- `u` is `s` but for `ST` and the contents of `OUT`. -/
def SameShown (s u : State) : Prop := ∃ st out, out.length = s.out.length ∧ u = s.withHidden st out

/-- The host is told the same in `t` and in `u`, and while the sponge lives they are the same in all that is not hidden. -/
structure SameTold (t u : State) : Prop where
  rsp : u.rsp = t.rsp
  cp : u.cp = t.cp
  halt : u.halt = t.halt
  mode : u.mode = t.mode
  esticky : u.esticky = t.esticky
  pcnt : u.pcnt = t.pcnt
  shown : t.mode = .active → SameShown t u

/-- Two outcomes that both go on and tell the host the same, or the same fault twice. -/
inductive SameOutcome : Result → Result → Prop where
  | next {t u : State} (h : SameTold t u) : SameOutcome (.next t) (.next u)
  | fault (f : Fault) : SameOutcome (.fault f) (.fault f)

theorem SameShown.refl (s : State) : SameShown s s := ⟨s.st, s.out, rfl, rfl⟩

theorem SameShown.told {t u : State} (h : SameShown t u) : SameTold t u := by
  have hshown := h
  obtain ⟨st, out, -, rfl⟩ := h
  exact ⟨rfl, rfl, rfl, rfl, rfl, rfl, fun _ => hshown⟩

theorem SameTold.refl (t : State) : SameTold t t := (SameShown.refl t).told

/-- The same check before two bodies. -/
theorem ite_rel {R : State → State → Prop} {c : Prop} [Decidable c] {a b a' b' : State} (ha : R a a') (hb : R b b') :
    R (if c then a else b) (if c then a' else b') := by
  split
  · exact ha
  · exact hb

/-! ### The shared operations do not tell what is hidden -/

section
variable {s u : State} (h : SameShown s u)
include h

/-- An operation that neither reads nor writes `ST` and `OUT`. -/
theorem SameShown.map (f : State → State)
    (hf : ∀ t st out, f (t.withHidden st out) = (f t).withHidden st out := by intros; rfl)
    (hout : ∀ t, (f t).out = t.out := by intros; rfl) : SameShown (f s) (f u) := by
  obtain ⟨st, out, hlen, rfl⟩ := h
  exact ⟨st, out, hlen.trans (congrArg List.length (hout s)).symm, hf s st out⟩

theorem SameShown.completeWith (i : Instr) (cnt : Byte) (payload : List Byte) :
    SameTold (completeWith i cnt payload s) (completeWith i cnt payload u) :=
  (h.map (Machine.completeWith i cnt payload)).told

theorem SameShown.complete (i : Instr) : SameTold (complete i s) (complete i u) := h.completeWith i 0 []

theorem SameShown.raise (i : Instr) (c : ResultCode) : SameTold (raise i c s) (raise i c u) :=
  (h.map (Machine.raise i c)).told

theorem SameShown.vrWrite (b : Nat) (xs : List Nat) : SameShown (s.vrWrite b xs) (u.vrWrite b xs) :=
  h.map (State.vrWrite · b xs) (fun _ _ _ => by simp only [State.vrWrite, State.withHidden]) (vrWrite_out b xs)

theorem SameShown.permute : SameShown (permute s) (permute u) := by
  obtain ⟨st, out, hlen, rfl⟩ := h
  exact ⟨permutation s.cfg st, out, hlen, rfl⟩

theorem SameShown.takeRate (k : Fin 4) : SameShown (takeRate s k) (takeRate u k) := by
  obtain ⟨st, out, hlen, rfl⟩ := h
  exact ⟨st, out ++ [st[1 + k.val]], by simp [hlen], rfl⟩

/-- Whether a turn of the loop permutes is decided by `APOS` alone (R156). -/
theorem SameShown.absorbOne (x : Nat) : SameShown (absorbOne s x) (absorbOne u x) := by
  obtain ⟨st, out, hlen, rfl⟩ := h
  have hadded : SameShown { s with st := s.st.set (1 + s.apos.val) (fadd s.cfg.p s.st[1 + s.apos.val] x) }
      (s.withHidden (st.set (1 + s.apos.val) (fadd s.cfg.p st[1 + s.apos.val] x)) out) := ⟨_, out, hlen, rfl⟩
  exact ite_rel (hadded.permute.map ({ · with apos := 0 })) (hadded.map ({ · with apos := s.apos + 1 }))

theorem SameShown.absorbMany (e : List Nat) : SameShown (e.foldl Machine.absorbOne s) (e.foldl Machine.absorbOne u) := by
  induction e generalizing s u with
  | nil => exact h
  | cons x e ih => exact ih (h.absorbOne x)

theorem SameShown.absorbCore (e : List Nat) : SameShown (absorbCore e s) (absorbCore e u) :=
  (h.absorbMany e).map (fun t => { t with spos := if t.apos = 0 then 0 else 4, ioc := t.ioc + 1 })

/-- Whether a turn of the loop permutes is decided by `SPOS` alone, and each turn delivers one element (R157). -/
theorem SameShown.squeezeOne : SameShown (squeezeOne s) (squeezeOne u) := by
  have hpermuted : SameShown { Machine.permute s with spos := 0, apos := 0 }
      { Machine.permute u with spos := 0, apos := 0 } := h.permute.map ({ · with spos := 0, apos := 0 })
  have hspos : u.spos = s.spos := by obtain ⟨st, out, -, rfl⟩ := h; rfl
  unfold Machine.squeezeOne
  by_cases hlt : s.spos.val < 4
  · simp only [hspos, hlt]
    exact h.takeRate _
  · simp only [hspos, hlt]
    exact hpermuted.takeRate 0

theorem SameShown.squeezeMany (n : Nat) : SameShown (squeezeMany n s) (squeezeMany n u) := by
  induction n generalizing s u with
  | zero => exact h
  | succ n ih => exact ih h.squeezeOne

theorem SameShown.squeezeCore (n : Nat) : SameShown (squeezeCore n s) (squeezeCore n u) :=
  (h.squeezeMany n).map (fun t => { t with ioc := t.ioc + 1 })

end

/-- Once the sponge is gone, the host is told nothing of the registers that a command has written (R165). -/
theorem sameTold_vrWrite_of_idle {t : State} (ht : t.mode = .idle) (i : Instr) (cnt : Byte) (payload : List Byte) (b : Nat)
    (xs ys : List Nat) :
    SameTold (completeWith i cnt payload (t.vrWrite b xs)) (completeWith i cnt payload (t.vrWrite b ys)) := by
  constructor <;> simp [completeWith, ht]

theorem spongeKill_vrWrite (s : State) (b : Nat) (xs : List Nat) :
    spongeKill (s.vrWrite b xs) = (spongeKill s).vrWrite b xs := by
  simp only [spongeKill, State.vrWrite]

/-! ### The commands of a running sponge do not tell what is hidden -/

section
variable {s : State} {st : PermState} {out : List Nat}

/-- `SpongeKill` leaves nothing of what was hidden. -/
theorem spongeKill_withHidden : spongeKill (s.withHidden st out) = spongeKill s := rfl

/-- `FINISH` tells the length of `OUT` only: the elements are delivered into `VR`, and no sponge is left. -/
theorem sameTold_delivered (i : Instr) (cnt : Byte) (b : Nat) :
    SameTold (completeWith i cnt [] (spongeKill (s.vrWrite b s.out)))
      (completeWith i cnt [] (spongeKill ((s.withHidden st out).vrWrite b out))) := by
  rw [spongeKill_vrWrite, spongeKill_vrWrite, spongeKill_withHidden]
  exact sameTold_vrWrite_of_idle (spongeKill_mode s) _ _ _ _ _ _

variable (hm : s.mode = .active) (hlen : out.length = s.out.length)

include hlen in
/-- `RDSR` shows of `ST` nothing and of `OUT` the length (R32). -/
theorem csrValue_withHidden (n : Nat) : csrValue (s.withHidden st out) n = csrValue s n := by
  simp only [csrValue, State.withHidden, hlen]

include hm hlen

/-- A command that needs `MODE = IDLE` ends with `BadState`, whatever is hidden. -/
theorem sameOutcome_badState {i : Instr}
    (hi : ∀ {u : State}, u.mode = .active → exec i u = .next (raise i .badState u)) :
    SameOutcome (exec i s) (exec i (s.withHidden st out)) := by
  rw [hi hm, hi (u := s.withHidden st out) hm]
  exact .next (SameShown.raise ⟨st, out, hlen, rfl⟩ i .badState)

/-- No check and no response of a command reads `ST` or the contents of `OUT` of an active sponge. -/
theorem exec_sameOutcome (i : Instr) : SameOutcome (exec i s) (exec i (s.withHidden st out)) := by
  have hs : SameShown s (s.withHidden st out) := ⟨st, out, hlen, rfl⟩
  cases i with
  | nop => exact .next (hs.complete _)
  | ldi => exact .next (ite_rel (hs.raise _ _) ((hs.vrWrite _ _).complete _))
  | lde vd payload =>
    refine .next (ite_rel (hs.raise _ _) ?_)
    rw [withHidden_cfg]
    cases dec32 s.cfg.p payload with
    | none => exact hs.raise _ _
    | some v => exact (hs.vrWrite _ _).complete _
  | ldc vd payload =>
    refine .next (ite_rel (hs.raise _ _) ?_)
    rw [withHidden_cfg]
    cases decodeAll s.cfg.p (chunks payload (s.cfg.mcap + 1)) with
    | none => exact hs.raise _ _
    | some es => exact (hs.vrWrite _ _).complete _
  | ste | stc => exact .next (ite_rel (hs.raise _ _) (hs.completeWith _ _ _))
  | ldst vs => exact sameOutcome_badState hm hlen fun hu => exec_ldst_of_active hu vs
  | stst vd => exact sameOutcome_badState hm hlen fun hu => exec_stst_of_active hu vd
  | trunc => exact .next (ite_rel (hs.raise _ _) ((hs.vrWrite _ _).complete _))
  | perm => exact sameOutcome_badState hm hlen exec_perm_of_active
  | pclr => exact .next ((hs.map ({ · with pat := [] })).complete _)
  | pabs | psqz => exact .next (ite_rel (hs.raise _ _) ((hs.map ({ · with pat := s.pat ++ [_] })).complete _))
  | start d => exact sameOutcome_badState hm hlen fun hu => exec_start_of_active hu d
  | absorb =>
    exact .next (ite_rel (hs.raise _ _) (ite_rel (hs.raise _ _) (ite_rel (.refl _) (ite_rel (.refl _)
      ((hs.absorbCore _).complete _)))))
  | squeeze => exact .next (ite_rel (hs.raise _ _) (ite_rel (.refl _) ((hs.squeezeCore _).complete _)))
  | finish vd =>
    refine .next (ite_rel (hs.raise _ _) (ite_rel (hs.raise _ _) (ite_rel (.refl _) ?_)))
    rw [withHidden_out, hlen]
    exact ite_rel (hs.raise _ _) (sameTold_delivered (.finish vd) _ _)
  | abort => exact .next (.refl _)
  | hash vs n vd => exact sameOutcome_badState hm hlen fun hu => exec_hash_of_active hu vs n vd
  | mhash2 | mhash4 =>
    exact sameOutcome_badState hm hlen fun hu => congrArg Host.Outcome.next (merkleHash_of_active _ _ hu)
  | enc vs mlen vd => exact sameOutcome_badState hm hlen fun hu => exec_enc_of_active hu vs mlen vd
  | dec vs vd => exact sameOutcome_badState hm hlen fun hu => exec_dec_of_active hu vs vd
  | rdsr csr =>
    refine .next ?_
    rw [csrValue_withHidden hlen]
    cases csrValue s csr.toNat with
    | none => exact hs.raise _ _
    | some v => exact hs.completeWith _ _ _
  | clrerr => exact .next ((hs.map ({ · with esticky := 0 })).complete _)

/-- What is fetched, and whether, does not depend on the sponge at all. -/
theorem step_sameOutcome : SameOutcome (step s) (step (s.withHidden st out)) := by
  have hs : SameShown s (s.withHidden st out) := ⟨st, out, hlen, rfl⟩
  by_cases hh : s.halt = true
  · rw [step_halted hh, step_halted (s := s.withHidden st out) hh]
    exact .fault _
  rw [Bool.not_eq_true] at hh
  by_cases hcp : s.cs.size ≤ s.cp
  · rw [step_streamEnd hh hcp, step_streamEnd (s := s.withHidden st out) hh hcp]
    exact .fault _
  have hop : s.cs.read s.cp = some (cellAt s.cs.cells s.cp) := if_pos (not_le.mp hcp)
  cases hf : fetch s with
  | error e =>
    have hno : ∀ i, fetch s ≠ .ok i := by simp [hf]
    rw [step_of_noPacket hh hop hno, step_of_noPacket (s := s.withHidden st out) hh hop hno]
    exact .next (hs.map (raiseIllegal _)).told
  | ok i =>
    obtain ⟨hwf, hp⟩ := packet_of_fetch hf
    rw [step_of_packet hh hwf hp, step_of_packet (s := s.withHidden st out) hh hwf hp]
    exact exec_sameOutcome hm hlen i

end

theorem SameOutcome.of_next {r r' : Result} (h : SameOutcome r r') {t : State} (hr : r = .next t) :
    ∃ u, r' = .next u ∧ SameTold t u := by
  subst hr
  cases h with
  | next h => exact ⟨_, rfl, h⟩

theorem SameOutcome.of_fault {r r' : Result} (h : SameOutcome r r') {f : Fault} (hr : r = .fault f) : r' = .fault f := by
  subst hr
  cases h with
  | fault => rfl

/-- Settles O59: the two steps have the same outcome by `step_sameOutcome`, which is taken apart. -/
theorem activeStateIsHidden : Obligations.ActiveStateIsHidden := by
  intro s st out hm hlen
  have h : SameOutcome (step s) (step { s with st := st, out := out }) := step_sameOutcome hm hlen
  refine ⟨fun t ht => ?_, fun f hf => h.of_fault hf⟩
  obtain ⟨u, hu, hrsp, hcp, hhalt, hmode, hsticky, hpcnt, hshown⟩ := h.of_next ht
  refine ⟨u, hu, hrsp, hcp, hhalt, hmode, hsticky, hpcnt, fun hactive => ?_⟩
  obtain ⟨st', out', hlen', rfl⟩ := hshown hactive
  exact ⟨hlen', rfl⟩

end Sys2Proof.Machine

/-! The reset family (spec/70_reset_and_hazards.md): the platform's reset (R280) and the end of a run (R282). -/

namespace Sys2Proof.Machine

/-! ### Reset (R280) -/

/-- Settles O17: the reset state and the state after a platform reset are both `State.resetWith`, which takes nothing of an
old state but what it is given, the configuration and the stream. -/
theorem platformResetKeepsOnlyConfiguration : Obligations.PlatformResetKeepsOnlyConfiguration :=
  fun _ _ => rfl

/-! ### Where a run ends (R282) -/

/-- The end of a run in which every command was executed. -/
def EndedNormally (t : State) : Prop := t.halt = false ∧ t.cp = t.cs.size ∧ step t = .fault .streamEnd

/-- The end of a run that met an `IllegalCommand`, with `CP` at it. -/
def EndedHalted (t : State) : Prop :=
  t.halt = true ∧ t.lastcode = 8 ∧ t.cp < t.cs.size ∧ step t = .fault .halted

/-- At most `n` steps lead from `s` to the end of its run, over the same stream. -/
def EndsWithin (n : Nat) (s : State) : Prop :=
  ∃ (k : Nat) (t : State), k ≤ n ∧ core.run k s = .next t ∧ t.cs = s.cs ∧ (EndedNormally t ∨ EndedHalted t)

theorem endedNormally_of_atEnd {s : State} (hh : s.halt = false) (hcp : s.cp = s.cs.size) : EndedNormally s :=
  ⟨hh, hcp, step_streamEnd hh hcp.ge⟩

theorem raiseIllegal_endedHalted (op : Byte) {s : State} (hlt : s.cp < s.cs.size) : EndedHalted (raiseIllegal op s) := by
  have hh : (raiseIllegal op s).halt = true := by simp [raiseIllegal]
  exact ⟨hh, rfl, hlt, step_halted hh⟩

theorem EndsWithin.of_ended {s : State} (h : EndedNormally s ∨ EndedHalted s) (n : Nat) : EndsWithin n s :=
  ⟨0, s, Nat.zero_le n, rfl, rfl, h⟩

/-! ### Runs, step by step (R94) -/

theorem run_succ_of_step {s t : State} (h : step s = .next t) (k : Nat) : core.run (k + 1) s = core.run k t := by
  have hcore : core.step s = .next t := h
  simp only [Host.Core.run, hcore]

theorem EndsWithin.of_step {n m : Nat} {s t : State} (hstep : step s = .next t) (hcs : t.cs = s.cs)
    (ht : EndsWithin n t) (hnm : n < m) : EndsWithin m s := by
  obtain ⟨k, u, hk, hrun, hucs, hend⟩ := ht
  exact ⟨k + 1, u, by omega, (run_succ_of_step hstep k).trans hrun, hucs.trans hcs, hend⟩

/-- Where a byte stands at `CP`, a running sequencer makes a step: `IllegalCommand`, or a command of which the whole packet
lies within the stream, and `CP` moves past it (R94, R97). -/
theorem step_progress {s : State} (hh : s.halt = false) (hlt : s.cp < s.cs.size) :
    (∃ op, step s = .next (raiseIllegal op s)) ∨
    ∃ t, step s = .next t ∧ t.cs = s.cs ∧ t.halt = false ∧ s.cp < t.cp ∧ t.cp ≤ s.cs.size := by
  cases hf : fetch s with
  | error e => exact .inl ⟨_, step_of_noPacket hh (if_pos hlt) (by simp [hf])⟩
  | ok i =>
    obtain ⟨hwf, hp⟩ := packet_of_fetch hf
    obtain ⟨t, -, hexec, -, -, -, hcp, hhalt, -⟩ := oneResponsePerCommand i s
    have hle := fetch_packet_le hf
    have hpos := packetLen_ge i s.cfg.mcap
    exact .inr ⟨t, (step_of_packet hh hwf hp).trans hexec, (commandsKeepParameters i s t hexec).cs, hhalt.trans hh,
      by omega, by omega⟩

/-- Settles O21, by induction on the bytes that remain: each command leaves fewer of them, and `IllegalCommand` is the last
step. -/
theorem everyRunEnds : Obligations.EveryRunEnds := by
  intro s hh hle
  change EndsWithin (s.cs.size - s.cp) s
  induction hn : s.cs.size - s.cp using Nat.strong_induction_on generalizing s with
  | _ n ih =>
    rcases hle.eq_or_lt with hend | hlt
    · exact .of_ended (.inl (endedNormally_of_atEnd hh hend)) n
    · rcases step_progress hh hlt with ⟨op, hstep⟩ | ⟨t, hstep, hcs, hth, hgt, htle⟩
      · exact .of_step hstep rfl (.of_ended (.inr (raiseIllegal_endedHalted op hlt)) 0) (by omega)
      · have hless : t.cs.size - t.cp < n := by rw [hcs]; omega
        exact .of_step hstep hcs (ih _ hless t hth (hcs ▸ htle) rfl) hless

end Sys2Proof.Machine
